-- ==== Sys2Proof/Word.lean ====
section
/-! DEFINITION. The bit vectors of the engine: the widths the spec fixes for bytes, nibbles, handles, pin numbers
and command words (R12, R24 to R26, R100). Durations, counts and indexes are natural numbers (R12, R125), not words. -/

namespace Sys2Proof

/-- One byte of a frame, a buffer or a command operand (R61, R102); bit 0 is the least significant (R12). -/
abbrev Byte := BitVec 8

/-- A 4-bit register: `id`, `channel`, `address` (R26). -/
abbrev Nibble := BitVec 4

/-- A context handle, 8 bits (R100, R230). Transmitter and receiver handles are separate spaces (R60). -/
abbrev Handle := BitVec 8

/-- A line number, 8 bits (R25, R39). -/
abbrev Pin := BitVec 8

/-- A command word of format `C48` (R100). -/
abbrev CmdWord := BitVec 48

end Sys2Proof
end

