-- ==== Sys2Proof/Syntax.lean ====
section
/-! DEFINITION. The command set: one constructor per row of the opcode table (R101), with the operands the row uses.
A command's unused fields are no part of it (R100). -/

namespace Sys2Proof

/-- The commands and the tick (R101). Handles, pins and nibble operands arrive as bytes (R102, R104); a length is a
count of 8 bits and a duration a number of 16 bits, held as natural numbers whose width `Instr.wellFormed` checks. -/
inductive Instr where
  /-- `TICK`, opcode 0x01: the tick event (R252). -/
  | tick
  /-- `TX_ATTACH h, pin`, opcode 0x10 (R231). -/
  | txAttach (h : Handle) (pin : Pin)
  /-- `TX_DETACH h`, opcode 0x11 (R232). -/
  | txDetach (h : Handle)
  /-- `TX_SEND h, length`, opcode 0x12; the payload is on the payload port (R160). -/
  | txSend (h : Handle) (length : Nat)
  /-- `TX_STOP h`, opcode 0x13 (R161). -/
  | txStop (h : Handle)
  /-- `TX_SET_INTERVAL h, high, low`, opcode 0x14 (R134). -/
  | txSetInterval (h : Handle) (high low : Nat)
  /-- `TX_SET_START h, high, low`, opcode 0x15 (R137). -/
  | txSetStart (h : Handle) (high low : Nat)
  /-- `TX_SET_CHANNEL h, channel`, opcode 0x16 (R162). -/
  | txSetChannel (h : Handle) (channel : Byte)
  /-- `TX_SET_ID h, id`, opcode 0x17 (R163). -/
  | txSetId (h : Handle) (id : Byte)
  /-- `TX_GET_STATE h`, opcode 0x18 (R164). -/
  | txGetState (h : Handle)
  /-- `RX_ATTACH h, pin, address`, opcode 0x20 (R235). -/
  | rxAttach (h : Handle) (pin : Pin) (address : Byte)
  /-- `RX_DETACH h`, opcode 0x21 (R236). -/
  | rxDetach (h : Handle)
  /-- `RX_LISTEN h`, opcode 0x22 (R180). -/
  | rxListen (h : Handle)
  /-- `RX_STOP h`, opcode 0x23 (R181). -/
  | rxStop (h : Handle)
  /-- `RX_SET_INTERVAL h, high, low`, opcode 0x24 (R135). -/
  | rxSetInterval (h : Handle) (high low : Nat)
  /-- `RX_SET_START h, high, low`, opcode 0x25 (R138). -/
  | rxSetStart (h : Handle) (high low : Nat)
  /-- `RX_SET_CHANNEL h, channel`, opcode 0x26 (R183). -/
  | rxSetChannel (h : Handle) (channel : Byte)
  /-- `RX_RESET h`, opcode 0x27 (R182). -/
  | rxReset (h : Handle)
  /-- `RX_GET_STATE h`, opcode 0x28 (R184). -/
  | rxGetState (h : Handle)
  /-- `RX_GET_MESSAGE h`, opcode 0x29 (R185). -/
  | rxGetMessage (h : Handle)
  /-- `RX_GET_MESSAGE_LENGTH h`, opcode 0x2A (R186). -/
  | rxGetMessageLength (h : Handle)
  /-- `RX_CLEAR_BUFFER h`, opcode 0x2B (R187). -/
  | rxClearBuffer (h : Handle)
  deriving DecidableEq, Repr

end Sys2Proof
end

