-- ==== Sys2Proof/WellFormed.lean ====
section
/-! DEFINITION. Which terms of `Instr` are commands of the format `C48`: the operands held as numbers fit the fields
that carry them (R100, R102, R103). Operands held as bit vectors fit by their type. -/

namespace Sys2Proof

/-- A duration operand fits the 16 bits of field `A` or `B` (R24, R102). -/
def fitsDuration (d : Nat) : Bool := decide (d < 65536)

/-- The length operand fits the 8 bits of `A[7:0]` (R103). -/
def fitsLength (n : Nat) : Bool := decide (n < 256)

/-- The command is one that a word of format `C48` can carry. -/
def Instr.wellFormed : Instr → Bool
  | .txSend _ length => fitsLength length
  | .txSetInterval _ high low => fitsDuration high && fitsDuration low
  | .txSetStart _ high low => fitsDuration high && fitsDuration low
  | .rxSetInterval _ high low => fitsDuration high && fitsDuration low
  | .rxSetStart _ high low => fitsDuration high && fitsDuration low
  | .tick => true
  | .txAttach _ _ => true
  | .txDetach _ => true
  | .txStop _ => true
  | .txSetChannel _ _ => true
  | .txSetId _ _ => true
  | .txGetState _ => true
  | .rxAttach _ _ _ => true
  | .rxDetach _ => true
  | .rxListen _ => true
  | .rxStop _ => true
  | .rxSetChannel _ _ => true
  | .rxReset _ => true
  | .rxGetState _ => true
  | .rxGetMessage _ => true
  | .rxGetMessageLength _ => true
  | .rxClearBuffer _ => true

end Sys2Proof
end

