-- ==== Sys2Proof/Decode.lean ====
section
/-! DEFINITION. Command words of format `C48` (R100, R101): the decoder, total on every word, and the encoder. -/

namespace Sys2Proof

/-- What the decoder reads from a word. -/
inductive Decoded where
  /-- The word is this command. -/
  | instr (i : Instr)
  /-- The word's opcode is not in the opcode map (R106). -/
  | undefinedOpcode (op : Byte)
  deriving DecidableEq, Repr

/-- `opcode`, bits [47:40] (R100). -/
def opcodeField (w : CmdWord) : Byte := w.extractLsb' 40 8

/-- `handle`, bits [39:32] (R100). -/
def handleField (w : CmdWord) : Handle := w.extractLsb' 32 8

/-- `A`, bits [31:16], as a number (R100, R102). -/
def fieldA (w : CmdWord) : Nat := (w.extractLsb' 16 16).toNat

/-- `B`, bits [15:0], as a number (R100, R102). -/
def fieldB (w : CmdWord) : Nat := (w.extractLsb' 0 16).toNat

/-- `A[7:0]`: the 8-bit operand of field `A`, whose high byte is ignored (R102). -/
def lowA (w : CmdWord) : Byte := w.extractLsb' 16 8

/-- `B[7:0]`: the 8-bit operand of field `B`, whose high byte is ignored (R102). -/
def lowB (w : CmdWord) : Byte := w.extractLsb' 0 8

/-- The opcode map of R101, row by row. Fields a command does not use are not looked at (R100). -/
def decode (w : CmdWord) : Decoded :=
  match (opcodeField w).toNat with
  | 0x01 => .instr .tick
  | 0x10 => .instr (.txAttach (handleField w) (lowA w))
  | 0x11 => .instr (.txDetach (handleField w))
  | 0x12 => .instr (.txSend (handleField w) (lowA w).toNat)
  | 0x13 => .instr (.txStop (handleField w))
  | 0x14 => .instr (.txSetInterval (handleField w) (fieldA w) (fieldB w))
  | 0x15 => .instr (.txSetStart (handleField w) (fieldA w) (fieldB w))
  | 0x16 => .instr (.txSetChannel (handleField w) (lowA w))
  | 0x17 => .instr (.txSetId (handleField w) (lowA w))
  | 0x18 => .instr (.txGetState (handleField w))
  | 0x20 => .instr (.rxAttach (handleField w) (lowA w) (lowB w))
  | 0x21 => .instr (.rxDetach (handleField w))
  | 0x22 => .instr (.rxListen (handleField w))
  | 0x23 => .instr (.rxStop (handleField w))
  | 0x24 => .instr (.rxSetInterval (handleField w) (fieldA w) (fieldB w))
  | 0x25 => .instr (.rxSetStart (handleField w) (fieldA w) (fieldB w))
  | 0x26 => .instr (.rxSetChannel (handleField w) (lowA w))
  | 0x27 => .instr (.rxReset (handleField w))
  | 0x28 => .instr (.rxGetState (handleField w))
  | 0x29 => .instr (.rxGetMessage (handleField w))
  | 0x2A => .instr (.rxGetMessageLength (handleField w))
  | 0x2B => .instr (.rxClearBuffer (handleField w))
  | _ => .undefinedOpcode (opcodeField w)

/-- The word whose number is `w`, of which the bits from `nbits` up are zero. A `C48` word is one word of 48 bits, so
the table's numbering is the word's own (R100). -/
def commandWord (nbits w : Nat) : CmdWord := BitVec.ofNat 48 (w % 2 ^ nbits)

/-- The instruction the decoder reads from the word numbered `w`, none where the opcode is undefined. -/
def decodeTableWord (nbits w : Nat) : Option Instr :=
  match decode (commandWord nbits w) with
  | .instr i => some i
  | .undefinedOpcode _ => none

/-- A word of format `C48` from its four fields (R100). -/
def packWord (op : Byte) (h : Handle) (a b : BitVec 16) : CmdWord := op ++ h ++ a ++ b

/-- An 8-bit operand in the low byte of a 16-bit field, the high byte zero (R102). -/
def byteField (b : Byte) : BitVec 16 := b.setWidth 16

/-- The command word of a command, every unused field zero (R100, R101). -/
def encode : Instr → CmdWord
  | .tick => packWord 0x01 0 0 0
  | .txAttach h pin => packWord 0x10 h (byteField pin) 0
  | .txDetach h => packWord 0x11 h 0 0
  | .txSend h length => packWord 0x12 h (byteField (BitVec.ofNat 8 length)) 0
  | .txStop h => packWord 0x13 h 0 0
  | .txSetInterval h high low => packWord 0x14 h (BitVec.ofNat 16 high) (BitVec.ofNat 16 low)
  | .txSetStart h high low => packWord 0x15 h (BitVec.ofNat 16 high) (BitVec.ofNat 16 low)
  | .txSetChannel h channel => packWord 0x16 h (byteField channel) 0
  | .txSetId h id => packWord 0x17 h (byteField id) 0
  | .txGetState h => packWord 0x18 h 0 0
  | .rxAttach h pin address => packWord 0x20 h (byteField pin) (byteField address)
  | .rxDetach h => packWord 0x21 h 0 0
  | .rxListen h => packWord 0x22 h 0 0
  | .rxStop h => packWord 0x23 h 0 0
  | .rxSetInterval h high low => packWord 0x24 h (BitVec.ofNat 16 high) (BitVec.ofNat 16 low)
  | .rxSetStart h high low => packWord 0x25 h (BitVec.ofNat 16 high) (BitVec.ofNat 16 low)
  | .rxSetChannel h channel => packWord 0x26 h (byteField channel) 0
  | .rxReset h => packWord 0x27 h 0 0
  | .rxGetState h => packWord 0x28 h 0 0
  | .rxGetMessage h => packWord 0x29 h 0 0
  | .rxGetMessageLength h => packWord 0x2A h 0 0
  | .rxClearBuffer h => packWord 0x2B h 0 0

end Sys2Proof
end

