-- ==== Sys2Proof/Config.lean ====
section
/-! DEFINITION. What an implementation fixes (R8, R10): the record `Cfg` of parameters, the values of `Cfg` the model
resets to, the storage that holds every configuration R11 admits, and the one free value. -/

namespace Sys2Proof

namespace Config

/-- Slots of storage for a registry: the largest capacity R11 (6) admits. Those at and above the configured capacity are
never reached. Log entry 5. -/
abbrev registrySlots : Nat := 256

/-- Bytes of the payload port: the largest `MAX_PAYLOAD` R11 (7) admits. Log entries 5 and 7. -/
abbrev portBytes : Nat := 252

/-- FREE VALUE. What a read at an offset the buffers do not have (R60: `BUF_CAP` and above) gives. No reachable state
makes such a read (R44 (3), (4), (6)); nothing constrains the byte. Log entry 9. -/
opaque beyondBuffer : Nat → Byte

end Config

/-- The configuration record `Cfg` of R8 and R10; durations are in time units. No step changes it; the machine carries
it in its state because the step takes no other argument. Log entry 2. The four capacities are fields of it, as R19 says
of their values: "configuration defaults, not … hardwired constants". Log entry 5. -/
structure Cfg where
  /-- `TICK`: time units added per tick (R8). -/
  tick : Nat
  /-- `DEVIATION`: the tolerance (R8). -/
  deviation : Nat
  /-- `SC_MAX_TRANSMITTERS`: capacity of the transmitter registry (R8). -/
  maxTransmitters : Nat
  /-- `SC_MAX_RECEIVERS`: capacity of the receiver registry (R8). -/
  maxReceivers : Nat
  /-- `MAX_PAYLOAD`: largest payload length in bytes (R8). -/
  maxPayload : Nat
  /-- `BUF_CAP`: bytes of each transmit and each receive buffer (R8); `MAX_PAYLOAD + 3` by R11 (7). -/
  bufCap : Nat
  /-- `MIN_INTERVAL`: least `high` / `low` (R10). -/
  minInterval : Nat
  /-- `MAX_TIME`: greatest profile register (R10). -/
  maxTime : Nat
  /-- `ELAPSED_MAX`: the receive time-out (R10). -/
  elapsedMax : Nat
  /-- `MIN_START_HIGH` (R10). -/
  minStartHigh : Nat
  /-- `MIN_START_LOW` (R10). -/
  minStartLow : Nat
  /-- `DEFAULT_START_HIGH` (R10). -/
  defaultStartHigh : Nat
  /-- `DEFAULT_START_LOW` (R10). -/
  defaultStartLow : Nat
  /-- `DEFAULT_HIGH` (R10). -/
  defaultHigh : Nat
  /-- `DEFAULT_LOW` (R10). -/
  defaultLow : Nat
  /-- `N_TX_CTX`: how many transmitter contexts exist (R10). -/
  nTxCtx : Nat
  /-- `N_RX_CTX`: how many receiver contexts exist (R10). -/
  nRxCtx : Nat
  deriving DecidableEq, Repr

/-- The configuration `State.reset` carries. The first six values are those R8 gives; every other value is the test configuration TC1 of the spec's file 95, a DESIGN CHOICE (log entry 3): the spec leaves them open. -/
def Config.standard : Cfg where
  tick := 100
  deviation := 100
  maxTransmitters := 5
  maxReceivers := 5
  maxPayload := 30
  bufCap := 33
  minInterval := 100
  maxTime := 5000
  elapsedMax := 5000
  minStartHigh := 100
  minStartLow := 100
  defaultStartHigh := 1500
  defaultStartLow := 1500
  defaultHigh := 800
  defaultLow := 400
  nTxCtx := 8
  nRxCtx := 8

end Sys2Proof
end

