-- ==== Sys2Proof/Machine/Signals.lean ====
section
/-! DEFINITION. What crosses the block's boundary (R14, R107, R278): line levels, output events, responses, and the
inputs the machine takes one at a time. -/

namespace Sys2Proof.Machine

/-- The level of a line (R12, R39). -/
inductive Level where
  /-- `LOW`, code 0. -/
  | low
  /-- `HIGH`, code 1. -/
  | high
  deriving DecidableEq, Repr

/-- The direction a `PinConfigure` asks for (R14, R111). -/
inductive Direction where
  /-- `INPUT`, code 0. -/
  | input
  /-- `OUTPUT`, code 1. -/
  | output
  deriving DecidableEq, Repr

/-- A request the engine sends to its surroundings (R14, R45). -/
inductive Event where
  /-- `PinConfigure(p, dir)`: changes no state of the block (R71). -/
  | pinConfigure (p : Pin) (dir : Direction)
  /-- `PinWrite(p, v)`: the line took level `v` (R68). -/
  | pinWrite (p : Pin) (v : Level)
  /-- `TickStart(interval)`, in microseconds (R251). -/
  | tickStart (interval : Nat)
  deriving DecidableEq, Repr

/-- The status of a response (R108). -/
inductive Status where
  /-- Code 0: the command did what it is for. -/
  | ok
  /-- Code 1: the addressed context is not an `Active` one. -/
  | notInitialized
  /-- Code 2: the address nibble is 0. -/
  | invalidAddress
  /-- Code 3: the channel nibble is 0. -/
  | invalidChannel
  /-- Code 4: the length is above 30. -/
  | payloadTooLarge
  /-- Code 5: the command is not valid in the current state. -/
  | rejected
  deriving DecidableEq, Repr

/-- The numeric status codes of R108. -/
def Status.code : Status → BitVec 8
  | .ok => 0
  | .notInitialized => 1
  | .invalidAddress => 2
  | .invalidChannel => 3
  | .payloadTooLarge => 4
  | .rejected => 5

/-- The response of a command (R107). -/
structure Response where
  /-- The status, whose 8-bit code is `Status.code`. -/
  status : Status
  /-- The 16-bit value, 0 where the command has none. -/
  value : BitVec 16
  /-- The data port: the message bytes of `RX_GET_MESSAGE`, else empty. -/
  data : List Byte
  deriving DecidableEq, Repr

/-- What the last step put on the block's outputs. Log entry 6. -/
structure Output where
  /-- The response, none for a tick, a drive or a reset (R107). -/
  response : Option Response
  /-- The requests of the step in the order they were made (R14). -/
  events : List Event
  deriving DecidableEq, Repr

/-- No response and no event. -/
def Output.none : Output := { response := Option.none, events := [] }

/-- One item of the input stream: what the next step of the machine is (R16). Log entry 1. -/
inductive Input where
  /-- A command word with the bytes on the payload port, or a tick word (R100, R101). -/
  | word (w : CmdWord) (payload : Vector Byte Config.portBytes)
  /-- `EnvDrive(p, v)`: the environment sets a line (R68). -/
  | drive (p : Pin) (v : Level)
  /-- A hardware reset (R300). -/
  | hardwareReset
  deriving DecidableEq, Repr

end Sys2Proof.Machine
end

