-- ==== Sys2Proof/Machine/Contexts.lean ====
section
/-! DEFINITION. The storage of one transmitter, one receiver and one registry, and their reset values (R21 to R38,
R46). Counts, indexes and durations are natural numbers (log entry 8); what the spec treats as bits is a bit vector. -/

namespace Sys2Proof.Machine

/-- A buffer of `BUF_CAP` bytes as cells (offset, byte) in canonical form: offsets strictly rising, below `BUF_CAP`, no
zero byte listed. An offset of the buffer that is not listed holds 0, the reset content (R46). -/
abbrev Memory := List Host.Cell

/-- `life` of a context (R22). -/
inductive Life where
  /-- Code 0: the handle names no context in use. -/
  | free
  /-- Code 1: registry admission failed. -/
  | inert
  /-- Code 2: registered. -/
  | active
  deriving DecidableEq, Repr

/-- `phase` of a transmitter (R27). -/
inductive TxPhase where
  /-- Code 0. -/
  | idle
  /-- Code 1. -/
  | sending
  /-- Code 5: the profile is not separated (R270). -/
  | errorDefinitions
  deriving DecidableEq, Repr

/-- The codes of R27, R111. -/
def TxPhase.code : TxPhase → Nat
  | .idle => 0
  | .sending => 1
  | .errorDefinitions => 5

/-- `phase` of a receiver (R33). -/
inductive RxPhase where
  /-- Code 0. -/
  | idle
  /-- Code 1. -/
  | listening
  /-- Code 2: held only inside `validate`, never at the end of a step. -/
  | validating
  /-- Code 3. -/
  | messageReady
  /-- Code 4: the buffer overflowed (R269). -/
  | errorOverflow
  /-- Code 5: the profile is not separated (R270). -/
  | errorDefinitions
  deriving DecidableEq, Repr

/-- The codes of R33, R111. -/
def RxPhase.code : RxPhase → Nat
  | .idle => 0
  | .listening => 1
  | .validating => 2
  | .messageReady => 3
  | .errorOverflow => 4
  | .errorDefinitions => 5

/-- `sym`: the symbol a transmitter is sending (R28). -/
inductive Sym where
  /-- START, code 0. -/
  | start
  /-- ONE, code 1. -/
  | one
  /-- ZERO, code 2. -/
  | zero
  deriving DecidableEq, Repr

/-- The Timing Profile registers (R23), 16 bits wide (R24). -/
structure Profile where
  /-- `start_high`. -/
  startHigh : Nat
  /-- `start_low`. -/
  startLow : Nat
  /-- `high`: the HIGH half of a ONE, the LOW half of a ZERO. -/
  high : Nat
  /-- `low`: the LOW half of a ONE, the HIGH half of a ZERO. -/
  low : Nat
  deriving DecidableEq, Repr

/-- The default profile of a configuration (R10, R46). -/
def Profile.default (c : Cfg) : Profile where
  startHigh := c.defaultStartHigh
  startLow := c.defaultStartLow
  high := c.defaultHigh
  low := c.defaultLow

/-- A transmitter context (R32). -/
structure TxContext where
  /-- `life` (R22). -/
  life : Life
  /-- `pin` (R25). -/
  pin : Pin
  /-- `id`, the target address (R26). -/
  id : Nibble
  /-- `channel` (R26). -/
  channel : Nibble
  /-- The four profile registers (R23). -/
  profile : Profile
  /-- `phase` (R27). -/
  phase : TxPhase
  /-- `sym` (R28). -/
  sym : Sym
  /-- `half` (R28). -/
  half : Level
  /-- `byte_index` (R29): the byte of the next bit to turn into a symbol. -/
  byteIndex : Nat
  /-- `bit_index` (R29): its bit. -/
  bitIndex : Fin 8
  /-- `elapsed` (R30). -/
  elapsed : Nat
  /-- `buf[0 .. BUF_CAP − 1]` (R31). -/
  buf : Memory
  /-- `buf_len` (R31). -/
  bufLen : Nat
  deriving DecidableEq, Repr

/-- A receiver context (R38). -/
structure RxContext where
  /-- `life` (R22). -/
  life : Life
  /-- `pin` (R25). -/
  pin : Pin
  /-- `address` (R26). -/
  address : Nibble
  /-- `channel` (R26). -/
  channel : Nibble
  /-- The four profile registers (R23). -/
  profile : Profile
  /-- `phase` (R33). -/
  phase : RxPhase
  /-- `elapsed` (R35). -/
  elapsed : Nat
  /-- `found`: the first edge was seen (R34). -/
  found : Bool
  /-- `pending`: a HIGH sample waits for its LOW half (R34). -/
  pending : Bool
  /-- `sample_high` (R34). -/
  sampleHigh : Nat
  /-- `sample_low` (R34). -/
  sampleLow : Nat
  /-- `prev_level` (R34). -/
  prevLevel : Level
  /-- `bit_cursor` (R36). -/
  bitCursor : Fin 8
  /-- `buf[0 .. BUF_CAP − 1]` (R37). -/
  buf : Memory
  /-- `buf_len`: complete bytes since the last START (R36). -/
  bufLen : Nat
  deriving DecidableEq, Repr

/-- A registry (R21): a count and slots of which the first `count` are meaningful; `count` stays within the configured
capacity (R237). Log entry 5. -/
structure Registry where
  /-- `tx_count` or `rx_count`. -/
  count : Fin (Config.registrySlots + 1)
  /-- `tx_reg` or `rx_reg`. -/
  slots : Vector Handle Config.registrySlots
  deriving DecidableEq, Repr

/-- The reset value of a transmitter context (R46). -/
def TxContext.fresh (c : Cfg) : TxContext where
  life := .free
  pin := 0
  id := 0
  channel := 0
  profile := Profile.default c
  phase := .idle
  sym := .start
  half := .high
  byteIndex := 0
  bitIndex := 7
  elapsed := 0
  buf := []
  bufLen := 0

/-- The reset value of a receiver context (R46). -/
def RxContext.fresh (c : Cfg) : RxContext where
  life := .free
  pin := 0
  address := 0
  channel := 0
  profile := Profile.default c
  phase := .idle
  elapsed := 0
  found := false
  pending := false
  sampleHigh := 0
  sampleLow := 0
  prevLevel := .low
  bitCursor := 7
  buf := []
  bufLen := 0

/-- The reset value of a registry (R46). -/
def Registry.empty : Registry where
  count := 0
  slots := Vector.replicate Config.registrySlots 0

end Sys2Proof.Machine
end

