-- ==== Sys2Proof/Machine/State.lean ====
section
/-! DEFINITION. The state of the machine as plain data (R20), the reasons a step can stop, and the state after reset
(R46, R300). -/

namespace Sys2Proof.Machine

/-- Why the machine stops with a fault. There is none: nothing in this hardware traps (R14, R265), so no constructor
stands here and no step faults. Log entry 18. -/
inductive Fault where
  deriving DecidableEq, Repr

/-- Why a step has no meaning. -/
inductive Refusal where
  /-- `exec` raises it for an instruction that has no meaning yet; safe, since the machine stops. No arm does. -/
  | notModelled (mnemonic : String)
  /-- `step` raises it for a configuration that breaks a constraint of R11, which the spec says a model refuses;
  safe, since the machine stops. Log entry 2. -/
  | invalidConfiguration
  deriving DecidableEq, Repr

/-- The state of the engine (R20), the lines (R39), and what the model adds: the configuration it runs under, its
input stream and its ports (log entries 1, 2, 6, 7). -/
structure State where
  /-- The configuration; no step changes it (R8, R10). Log entry 2. -/
  cfg : Cfg
  /-- `tick_running` (R21). -/
  tickRunning : Bool
  /-- `tx_count` and `tx_reg` (R21). -/
  txReg : Registry
  /-- `rx_count` and `rx_reg` (R21). -/
  rxReg : Registry
  /-- `tx[h]`; the contexts that exist are those with `h` below `N_TX_CTX` (R20). Log entry 10. -/
  tx : Vector TxContext 256
  /-- `rx[h]`; the contexts that exist are those with `h` below `N_RX_CTX` (R20). Log entry 10. -/
  rx : Vector RxContext 256
  /-- `line[p]` (R39). -/
  line : Vector Level 256
  /-- The bytes on the payload port (R105). Log entry 7. -/
  payloadPort : Vector Byte Config.portBytes
  /-- The inputs not yet taken, oldest first (R16). Log entry 1. -/
  inputs : List Input
  /-- The outputs of the last step (R14, R107). Log entry 6. -/
  out : Output
  deriving DecidableEq, Repr

/-- The machine right after hardware reset under configuration `c` with the lines at `line` (R46, R300, R301). -/
def State.resetWith (c : Cfg) (line : Vector Level 256) : State where
  cfg := c
  tickRunning := false
  txReg := Registry.empty
  rxReg := Registry.empty
  tx := Vector.replicate 256 (TxContext.fresh c)
  rx := Vector.replicate 256 (RxContext.fresh c)
  line := line
  payloadPort := Vector.replicate Config.portBytes 0
  inputs := []
  out := Output.none

/-- The machine right after reset: `resetWith` at the values log entries 3 and 4 name for what the spec leaves open,
the configuration and the level of every line. -/
def State.reset : State := State.resetWith Config.standard (Vector.replicate 256 Level.low)

end Sys2Proof.Machine
end

