-- ==== Sys2Proof/Machine/Operands.lean ====
section
/-! DEFINITION. Arithmetic on operands and registers (R12, R104): clamps, differences, nibbles and single bits. -/

namespace Sys2Proof.Machine

/-- `clamp(v, lo, hi)` of R12. -/
def clamp (v lo hi : Nat) : Nat := if v < lo then lo else if hi < v then hi else v

/-- `|a − b|` of R12. -/
def absDiff (a b : Nat) : Nat := if b ≤ a then a - b else b - a

/-- The nibble an 8-bit `id`, `channel` or `address` operand keeps: bits [3:0] (R104). -/
def keptNibble (b : Byte) : Nibble := b.extractLsb' 0 4

/-- `b[7:4]` (R91). -/
def highNibble (b : Byte) : Nibble := b.extractLsb' 4 4

/-- `b[3:0]` (R91). -/
def lowNibble (b : Byte) : Nibble := b.extractLsb' 0 4

/-- `((id << 4) | channel) & 0xFF` (R91). -/
def headerByte (id channel : Nibble) : Byte := (id.setWidth 8 <<< 4) ||| channel.setWidth 8

/-- Bit `i` of a byte, bit 0 the least significant (R12). -/
def bitOf (b : Byte) (i : Fin 8) : Bool := b.getLsbD i.val

/-- The byte with bit `i` set or cleared and the other seven kept (R66, R203). -/
def putBit (b : Byte) (i : Fin 8) (v : Bool) : Byte :=
  if v then b ||| (1#8 <<< i.val) else b &&& ~~~(1#8 <<< i.val)

/-- The cursor after bit `i` of a byte, MSB first: 7 after 0 (R165, R203). -/
def nextBit (i : Fin 8) : Fin 8 := if i = 0 then 7 else i - 1

/-- The byte after bit `i` of byte `n`: the next one exactly after bit 0 (R165, R203). -/
def nextByte (n : Nat) (i : Fin 8) : Nat := if i = 0 then n + 1 else n

end Sys2Proof.Machine
end

