-- ==== Sys2Proof/Machine/Flags.lean ====
section
/-! DEFINITION. The one-bit outcomes of the engine (R41): the comparators `Within` and `Separated`, the edge tracker's
flags, and the resting phases a comparator decides. There is no arithmetic condition code (R41). -/

namespace Sys2Proof.Machine

/-- `Within(x, ref)`: `|x − ref| ≤ DEVIATION`, evaluated without underflow (R200). -/
def within (c : Cfg) (x ref : Nat) : Bool := decide (ref ≤ x + c.deviation) && decide (x ≤ ref + c.deviation)

/-- `Separated(p)`: `|high − low| ≥ 2 × DEVIATION` (R131). -/
def separated (c : Cfg) (p : Profile) : Bool := decide (2 * c.deviation ≤ absDiff p.high p.low)

/-- `Rest(p)` for a transmitter (R132). -/
def restTx (c : Cfg) (p : Profile) : TxPhase := if separated c p then .idle else .errorDefinitions

/-- `Rest(p)` for a receiver (R132). -/
def restRx (c : Cfg) (p : Profile) : RxPhase := if separated c p then .idle else .errorDefinitions

/-- The edge tracker as a time-out leaves it: everything but `prev_level` (R197). -/
def clearTracker (r : RxContext) : RxContext :=
  { r with elapsed := 0, found := false, pending := false, sampleHigh := 0, sampleLow := 0 }

/-- The phases in which a receiver tracks its line (R196). -/
def tracks (r : RxContext) : Bool := decide (r.phase = .listening) || decide (r.phase = .messageReady)

end Sys2Proof.Machine
end

