-- ==== Sys2Proof/Machine/Ops.lean ====
section
/-! DEFINITION. The named operations: the constraints of a configuration, the buffers, the contexts, the lines, the
tick source, and the one way a command answers. There is no exception to take or to return from: an abnormal condition
is a status, a silent drop or a fatal phase (R265, R273, R274). -/

namespace Sys2Proof.Machine

/-- What every meaning answers. -/
abbrev Result := Host.Outcome State Fault Refusal

/-- The constraints (2) to (7) of R11; (1) holds by type. -/
abbrev validCfg (c : Cfg) : Prop :=
  1 ≤ c.tick ∧ c.minInterval ≤ c.maxTime ∧ c.maxTime ≤ 65535 ∧ c.minStartHigh ≤ c.maxTime ∧
  c.minStartLow ≤ c.maxTime ∧ c.elapsedMax ≤ 65535 ∧ 1 ≤ c.elapsedMax ∧
  c.minStartHigh ≤ c.defaultStartHigh ∧ c.defaultStartHigh ≤ c.maxTime ∧
  c.minStartLow ≤ c.defaultStartLow ∧ c.defaultStartLow ≤ c.maxTime ∧
  c.minInterval ≤ c.defaultHigh ∧ c.defaultHigh ≤ c.maxTime ∧
  c.minInterval ≤ c.defaultLow ∧ c.defaultLow ≤ c.maxTime ∧
  2 * c.deviation ≤ absDiff c.defaultHigh c.defaultLow ∧
  c.maxTransmitters ≤ c.nTxCtx ∧ c.nTxCtx ≤ 256 ∧ c.maxReceivers ≤ c.nRxCtx ∧ c.nRxCtx ≤ 256 ∧
  c.bufCap = c.maxPayload + 3 ∧ c.bufCap ≤ 255

/-! Buffers (R60, R61). -/

/-- The byte a buffer's cells hold at an offset: the listed one, else 0 (R46). -/
def Memory.read : Memory → Nat → Byte
  | [], _ => 0
  | cell :: m, i => if cell.1 = i then cell.2 else Memory.read m i

/-- The cells without the one at offset `i`. -/
def Memory.erase (m : Memory) (i : Nat) : Memory := m.filter fun cell => decide (cell.1 ≠ i)

/-- A cell put before the first one of a higher offset. -/
def Memory.insert (cell : Host.Cell) : Memory → Memory
  | [] => [cell]
  | d :: m => if cell.1 < d.1 then cell :: d :: m else d :: Memory.insert cell m

/-- Byte `i` set to `b`, in canonical form: a zero byte is not listed. -/
def Memory.write (m : Memory) (i : Nat) (b : Byte) : Memory :=
  if b = 0 then m.erase i else (m.erase i).insert (i, b)

/-- Consecutive bytes set from offset `i` up. -/
def Memory.writeBytes : Memory → Nat → List Byte → Memory
  | m, _, [] => m
  | m, i, b :: bs => Memory.writeBytes (m.write i b) (i + 1) bs

/-- The canonical form: offsets strictly rising, each below `BUF_CAP`, no zero byte listed. -/
abbrev Memory.wf (c : Cfg) (m : Memory) : Prop :=
  m.Pairwise (fun a b => a.1 < b.1) ∧ ∀ cell ∈ m, cell.1 < c.bufCap ∧ cell.2 ≠ 0

/-- `buf[i]` (R13, R60): the byte at offset `i`; from offset `BUF_CAP` on there is no byte and the value is free. -/
def bufByte (c : Cfg) (m : Memory) (i : Nat) : Byte := if i < c.bufCap then m.read i else Config.beyondBuffer i

/-- `buf[i .. i + n − 1]`, `n` bytes from offset `i` up. -/
def bufSlice (c : Cfg) (m : Memory) (i n : Nat) : List Byte := (List.range n).map fun k => bufByte c m (i + k)

namespace State

/-! Contexts (R13, R60). -/

/-- `tx[h]`. -/
def txAt (s : State) (h : Handle) : TxContext := s.tx[h.toNat]

/-- `rx[h]`. -/
def rxAt (s : State) (h : Handle) : RxContext := s.rx[h.toNat]

/-- `tx[h] <- t`. -/
def setTx (s : State) (h : Handle) (t : TxContext) : State := { s with tx := s.tx.set h.toNat t }

/-- `rx[h] <- r`. -/
def setRx (s : State) (h : Handle) (r : RxContext) : State := { s with rx := s.rx.set h.toNat r }

/-- The handle names an existing transmitter context that is `Active` (R106). -/
abbrev txActive (s : State) (h : Handle) : Prop := h.toNat < s.cfg.nTxCtx ∧ (s.txAt h).life = .active

/-- The handle names an existing receiver context that is `Active` (R106). -/
abbrev rxActive (s : State) (h : Handle) : Prop := h.toNat < s.cfg.nRxCtx ∧ (s.rxAt h).life = .active

/-! Outputs (R14, R107). -/

/-- A step begins with nothing on the outputs. -/
def quiet (s : State) : State := { s with out := Output.none }

/-- An event is emitted after those the step has emitted already. -/
def emit (s : State) (e : Event) : State := { s with out := { s.out with events := s.out.events ++ [e] } }

/-- `return (status, value, data)`: the response is placed and the command ends (R14, R107). -/
def respond (s : State) (status : Status) (value : Nat) (data : List Byte) : State :=
  { s with out := { s.out with response := some ⟨status, BitVec.ofNat 16 value, data⟩ } }

/-! Lines (R14, R68). -/

/-- `line[p]`. -/
def lineAt (s : State) (p : Pin) : Level := s.line[p.toNat]

/-- `line[p] <- v`, by the engine or by the environment (R68). -/
def setLine (s : State) (p : Pin) (v : Level) : State := { s with line := s.line.set p.toNat v }

/-- `PinWrite(p, v)` (R14). -/
def pinWrite (s : State) (p : Pin) (v : Level) : State := (s.setLine p v).emit (.pinWrite p v)

/-- `PinRead(p)` (R14, R67). -/
def pinRead (s : State) (p : Pin) : Level := s.lineAt p

/-- `PinConfigure(p, dir)` (R14, R71). -/
def pinConfigure (s : State) (p : Pin) (dir : Direction) : State := s.emit (.pinConfigure p dir)

/-- Several writes of one pin, in order. -/
def pinWrites (s : State) (p : Pin) : List Level → State
  | [] => s
  | v :: vs => pinWrites (s.pinWrite p v) p vs

/-- `StartTick()`: idempotent and lazy (R251). -/
def startTick (s : State) : State :=
  if s.tickRunning then s else ({ s with tickRunning := true }).emit (.tickStart s.cfg.tick)

/-- The first `n` bytes of the payload port (R105). -/
def payloadBytes (s : State) (n : Nat) : List Byte := s.payloadPort.toList.take n

end State

/-- A command ends with this response (R107). -/
def answer (s : State) (status : Status) (value : Nat) : Result := .next (s.respond status value [])

/-- A command addressed to a transmitter: `NotInitialized` unless the handle names an `Active` one (R106, R266). -/
def onTx (h : Handle) (s : State) (body : TxContext → State → Result) : Result :=
  if s.txActive h then body (s.txAt h) s.quiet else answer s.quiet .notInitialized 0

/-- A command addressed to a receiver: `NotInitialized` unless the handle names an `Active` one (R106, R266). -/
def onRx (h : Handle) (s : State) (body : RxContext → State → Result) : Result :=
  if s.rxActive h then body (s.rxAt h) s.quiet else answer s.quiet .notInitialized 0

/-! Registries (R21, R237, R238). -/

/-- The registered handles in registry order: the dense prefix of the slots (R21). -/
def Registry.live (r : Registry) : List Handle := r.slots.toList.take r.count.val

/-- `Add(reg, count, CAP, h)`: the registry after it, and the new count or 0 (R237). A capacity that R11 admits is
within the storage. -/
def Registry.add (r : Registry) (cap : Nat) (h : Handle) : Registry × Nat :=
  if hc : r.count.val < cap ∧ r.count.val < Config.registrySlots then
    ({ count := ⟨r.count.val + 1, by omega⟩, slots := r.slots.set r.count.val h hc.2 }, r.count.val + 1)
  else (r, 0)

/-- The first slot of the prefix that holds `h`. -/
def Registry.find (r : Registry) (h : Handle) : Option (Fin Config.registrySlots) :=
  (List.finRange Config.registrySlots).find? fun i => decide (i.val < r.count.val) && decide (r.slots[i] = h)

/-- `Remove(reg, count, h)`: swap-with-last, and whether the handle was found (R238). -/
def Registry.remove (r : Registry) (h : Handle) : Registry × Nat :=
  match r.find h with
  | none => (r, 0)
  | some i =>
    have hi := i.isLt
    have hc := r.count.isLt
    have hl : r.count.val - 1 < Config.registrySlots := by omega
    let slots := if i.val = r.count.val - 1 then r.slots else r.slots.set i.val r.slots[r.count.val - 1]
    ({ count := ⟨r.count.val - 1, by omega⟩, slots := slots }, 1)

end Sys2Proof.Machine
end

