-- ==== Sys2Proof/Machine/Checksum.lean ====
section
/-! DEFINITION. The checksum and the frame validator (spec file 40), and the bytes of a frame (R90). -/

namespace Sys2Proof.Machine

/-- `Checksum(bytes)`: the sum modulo 256 (R120). -/
def checksum : List Byte → Byte
  | [] => 0
  | b :: bs => b + checksum bs

/-- The bytes of a frame: header, length, payload, checksum (R61, R90). -/
def frameBytes (id channel : Nibble) (payload : List Byte) : List Byte :=
  headerByte id channel :: BitVec.ofNat 8 payload.length :: (payload ++ [checksum payload])

/-- `FrameOK(r)` (R122): the checks in the spec's order, the first that fails decides. A stored channel 0 is compared like
any other (R122, R183). Log entry 22. -/
def frameOk (c : Cfg) (r : RxContext) : Bool :=
  if r.bufLen < 3 then false
  else if highNibble (bufByte c r.buf 0) ≠ r.address then false
  else if lowNibble (bufByte c r.buf 0) ≠ r.channel then false
  else if (bufByte c r.buf 1).toNat ≠ r.bufLen - 3 then false
  else decide (checksum (bufSlice c r.buf 2 (r.bufLen - 3)) = bufByte c r.buf (r.bufLen - 1))

/-- `Validate(r)` (R123): `Validating` is entered and left here. -/
def validate (c : Cfg) (r : RxContext) : RxContext :=
  let r := { r with phase := .validating }
  if frameOk c r then { r with phase := .messageReady }
  else { r with phase := .listening, bufLen := 0, bitCursor := 7 }

end Sys2Proof.Machine
end

