-- ==== Sys2Proof/Machine/Receive.lean ====
section
/-! DEFINITION. The receive state machine, interval classifier and frame reassembler (spec file 43). -/

namespace Sys2Proof.Machine

/-- The phase a stop leaves: the fatal phases are kept (R189). -/
def stoppedRxPhase (p : RxPhase) : RxPhase :=
  if p = .errorOverflow then p else if p = .errorDefinitions then p else .idle

/-- `RxStop(r)` (R189). -/
def rxStop (h : Handle) (s : State) : State :=
  let r := s.rxAt h
  s.setRx h { r with phase := stoppedRxPhase r.phase }

/-- The context of an accepted `RX_LISTEN` (R180): all decode progress reset, the buffer bytes kept. -/
def startListening (r : RxContext) : RxContext :=
  { clearTracker r with prevLevel := .low, bitCursor := 7, bufLen := 0, phase := .listening }

/-- `RX_LISTEN h` (R180). -/
def execRxListen (h : Handle) (s : State) : Result :=
  onRx h s fun r s =>
    if r.phase = .errorOverflow ∨ r.phase = .errorDefinitions then answer s .rejected 0
    else if r.address = 0 then answer s .invalidAddress 0
    else if r.channel = 0 then answer s .invalidChannel 0
    else answer ((s.setRx h (startListening r)).startTick) .ok 1

/-- `RX_STOP h` (R181). -/
def execRxStop (h : Handle) (s : State) : Result :=
  onRx h s fun _ s => answer (rxStop h s) .ok 0

/-- `RX_RESET h` (R182). -/
def execRxReset (h : Handle) (s : State) : Result :=
  onRx h s fun r s => answer (s.setRx h { r with bufLen := 0, phase := restRx s.cfg r.profile }) .ok 0

/-- `RX_SET_CHANNEL h, channel` (R183). -/
def execRxSetChannel (h : Handle) (channel : Byte) (s : State) : Result :=
  onRx h s fun r s => answer (s.setRx h { r with channel := keptNibble channel }) .ok 0

/-- `RX_GET_STATE h` (R184). -/
def execRxGetState (h : Handle) (s : State) : Result :=
  onRx h s fun r s => answer s .ok r.phase.code

/-- `RX_GET_MESSAGE h` (R185): the length byte gives how many payload bytes stand on the data port. -/
def execRxGetMessage (h : Handle) (s : State) : Result :=
  onRx h s fun r s =>
    if r.phase = .messageReady then
      let n := (bufByte s.cfg r.buf 1).toNat
      .next (s.respond .ok n (bufSlice s.cfg r.buf 2 n))
    else answer s .rejected 0

/-- `RX_GET_MESSAGE_LENGTH h` (R186). -/
def execRxGetMessageLength (h : Handle) (s : State) : Result :=
  onRx h s fun r s =>
    if r.phase = .messageReady then answer s .ok (bufByte s.cfg r.buf 1).toNat else answer s .rejected 0

/-- The context of an accepted `RX_CLEAR_BUFFER` (R187): every byte 0, the edge tracker kept. -/
def clearBuffer (r : RxContext) : RxContext :=
  { r with buf := [], bufLen := 0, bitCursor := 7, phase := .listening }

/-- `RX_CLEAR_BUFFER h` (R187). -/
def execRxClearBuffer (h : Handle) (s : State) : Result :=
  onRx h s fun r s =>
    if r.phase = .messageReady then answer (s.setRx h (clearBuffer r)) .ok 1 else answer s .rejected 0

/-- `StoreBit(r, b)` (R203): the capacity is checked first. -/
def storeBit (c : Cfg) (r : RxContext) (b : Bool) : RxContext :=
  if c.bufCap ≤ r.bufLen then { r with phase := .errorOverflow }
  else
    { r with
      buf := r.buf.write r.bufLen (putBit (bufByte c r.buf r.bufLen) r.bitCursor b)
      bufLen := nextByte r.bufLen r.bitCursor
      bitCursor := nextBit r.bitCursor }

/-- What START does to a receiver (R201). -/
def beginFrame (r : RxContext) : RxContext :=
  { r with
    bufLen := 0
    bitCursor := 7
    phase := if r.phase = .messageReady then .listening else r.phase }

/-- `ClassifyPair(r)` (R201): START before ONE before ZERO, else the pair is dropped. -/
def classifyPair (c : Cfg) (r : RxContext) : RxContext :=
  let sh := r.sampleHigh
  let sl := r.sampleLow
  if within c sh r.profile.startHigh && within c sl r.profile.startLow then beginFrame r
  else if within c sh r.profile.high && within c sl r.profile.low then storeBit c r true
  else if within c sh r.profile.low && within c sl r.profile.high then storeBit c r false
  else r

/-- The classification of a lone HIGH sample at a time-out (R197): ONE before ZERO, else no bit. -/
def classifyLone (c : Cfg) (r : RxContext) : RxContext :=
  if within c r.sampleHigh r.profile.high then storeBit c r true
  else if within c r.sampleHigh r.profile.low then storeBit c r false
  else r

/-- Validation only if the receiver is still `Listening` (R197). -/
def validateIfListening (c : Cfg) (r : RxContext) : RxContext := if r.phase = .listening then validate c r else r

/-- `Timeout(r)` (R197). -/
def timeout (c : Cfg) (r : RxContext) : RxContext :=
  clearTracker (if r.pending then validateIfListening c (classifyLone c r) else r)

/-- `Detect(r)` with the level read from the receiver's pin (R198). -/
def detect (c : Cfg) (lvl : Level) (r : RxContext) : RxContext :=
  if lvl = r.prevLevel then r
  else
    let r := { r with prevLevel := lvl }
    if r.found = false then { r with found := true, elapsed := 0 }
    else if lvl = .low then { r with sampleHigh := r.elapsed, elapsed := 0, pending := true }
    else
      let r := { r with sampleLow := r.elapsed, elapsed := 0 }
      if r.pending then classifyPair c { r with pending := false } else r

/-- The time-out check of `RxAdvance`, after the tick is added (R196). -/
def timeoutIfDue (c : Cfg) (r : RxContext) : RxContext := if c.elapsedMax ≤ r.elapsed then timeout c r else r

/-- `RxAdvance(r)` on the context, with the level its pin has in this tick (R196). -/
def rxTick (c : Cfg) (lvl : Level) (r : RxContext) : RxContext :=
  if tracks r then
    let r := timeoutIfDue c { r with elapsed := r.elapsed + c.tick }
    if tracks r then detect c lvl r else r
  else r

/-- `RxAdvance(rx[h])` (R196). -/
def rxAdvance (s : State) (h : Handle) : State :=
  let r := s.rxAt h
  s.setRx h (rxTick s.cfg (s.pinRead r.pin) r)

end Sys2Proof.Machine
end

