-- ==== Sys2Proof/Machine/Transmit.lean ====
section
/-! DEFINITION. The transmit state machine and pulse sequencer (spec file 42). -/

namespace Sys2Proof.Machine

/-- `DurHigh(t)` (R151). -/
def durHigh (t : TxContext) : Nat :=
  match t.sym with
  | .start => t.profile.startHigh
  | .one => t.profile.high
  | .zero => t.profile.low

/-- `DurLow(t)` (R151). -/
def durLow (t : TxContext) : Nat :=
  match t.sym with
  | .start => t.profile.startLow
  | .one => t.profile.low
  | .zero => t.profile.high

/-- The phase a stop leaves: `ErrorDefinitions` is kept (R152). -/
def stoppedTxPhase (p : TxPhase) : TxPhase := if p = .errorDefinitions then p else .idle

/-- `TxStop(t)` (R152). -/
def txStop (h : Handle) (s : State) : State :=
  let t := s.txAt h
  (s.setTx h { t with phase := stoppedTxPhase t.phase }).pinWrite t.pin .low

/-- The context of an accepted `TX_SEND`: the frame built, progress at START / HIGH (R160). -/
def startFrame (t : TxContext) (payload : List Byte) : TxContext :=
  { t with
    buf := t.buf.writeBytes 0 (frameBytes t.id t.channel payload)
    bufLen := payload.length + 3
    phase := .sending
    sym := .start
    half := .high
    byteIndex := 0
    bitIndex := 7
    elapsed := 0 }

/-- `TX_SEND h, length` with the payload on the payload port (R160). -/
def execTxSend (h : Handle) (length : Nat) (s : State) : Result :=
  onTx h s fun t s =>
    if t.phase = .errorDefinitions then answer s .rejected 0
    else if t.id = 0 then answer s .invalidAddress 0
    else if t.channel = 0 then answer s .invalidChannel 0
    else if s.cfg.maxPayload < length then answer s .payloadTooLarge 0
    else answer ((s.setTx h (startFrame t (s.payloadBytes length))).startTick) .ok 1

/-- `TX_STOP h` (R161). -/
def execTxStop (h : Handle) (s : State) : Result :=
  onTx h s fun _ s => answer (txStop h s) .ok 0

/-- `TX_SET_CHANNEL h, channel` (R162). -/
def execTxSetChannel (h : Handle) (channel : Byte) (s : State) : Result :=
  onTx h s fun t s => answer (s.setTx h { t with channel := keptNibble channel }) .ok 0

/-- `TX_SET_ID h, id` (R163). -/
def execTxSetId (h : Handle) (id : Byte) (s : State) : Result :=
  onTx h s fun t s => answer (s.setTx h { t with id := keptNibble id }) .ok 0

/-- `TX_GET_STATE h` (R164). -/
def execTxGetState (h : Handle) (s : State) : Result :=
  onTx h s fun t s => answer s .ok t.phase.code

/-- The next symbol selected from the frame cursor, and the cursor moved (R165). -/
def nextSymbol (c : Cfg) (t : TxContext) : TxContext :=
  { t with
    sym := if bitOf (bufByte c t.buf t.byteIndex) t.bitIndex then .one else .zero
    half := .high
    elapsed := 0
    byteIndex := nextByte t.byteIndex t.bitIndex
    bitIndex := nextBit t.bitIndex }

/-- `TxAdvance(t)` on the context: the context after a tick, and the levels written to its pin in order (R165). -/
def txTick (c : Cfg) (t : TxContext) : TxContext × List Level :=
  if t.phase = .sending then
    let e := t.elapsed + c.tick
    match t.half with
    | .high =>
      if durHigh t ≤ e then ({ t with half := .low, elapsed := 0 }, [.high])
      else ({ t with elapsed := e }, [.high])
    | .low =>
      if durLow t ≤ e then
        if t.byteIndex = t.bufLen then ({ t with elapsed := e, phase := .idle }, [.low, .low])
        else (nextSymbol c t, [.low])
      else ({ t with elapsed := e }, [.low])
  else (t, [])

/-- `TxAdvance(tx[h])` (R165). -/
def txAdvance (s : State) (h : Handle) : State :=
  let t := s.txAt h
  (s.setTx h (txTick s.cfg t).1).pinWrites t.pin (txTick s.cfg t).2

end Sys2Proof.Machine
end

