-- ==== Sys2Proof/Machine/Attach.lean ====
section
/-! DEFINITION. The attach and detach commands of the instance registry (spec file 44). -/

namespace Sys2Proof.Machine

/-- The transmitter context an attach writes, but for `life` (R47, R231). -/
def attachedTx (c : Cfg) (pin : Pin) : TxContext :=
  { TxContext.fresh c with pin := pin, phase := restTx c (Profile.default c) }

/-- The receiver context an attach writes, but for `life` (R47, R235). -/
def attachedRx (c : Cfg) (pin : Pin) (address : Nibble) : RxContext :=
  { RxContext.fresh c with pin := pin, address := address, phase := restRx c (Profile.default c) }

/-- `TX_ATTACH h, pin` (R231). -/
def execTxAttach (h : Handle) (pin : Pin) (s : State) : Result :=
  let s := s.quiet
  if s.cfg.nTxCtx ≤ h.toNat then answer s .notInitialized 0
  else if (s.txAt h).life ≠ .free then answer s .rejected 0
  else
    let t := attachedTx s.cfg pin
    let admitted := s.txReg.add s.cfg.maxTransmitters h
    if admitted.2 = 0 then answer (s.setTx h { t with life := .inert }) .rejected 0
    else
      let s := { s with txReg := admitted.1 }
      let s := s.setTx h { t with life := .active }
      answer ((s.pinConfigure pin .output).pinWrite pin .low) .ok admitted.2

/-- `TX_DETACH h` (R232). -/
def execTxDetach (h : Handle) (s : State) : Result :=
  let s := s.quiet
  if s.cfg.nTxCtx ≤ h.toNat ∨ (s.txAt h).life = .free then answer s .notInitialized 0
  else if (s.txAt h).life = .active then
    let s := txStop h s
    let evicted := s.txReg.remove h
    let s := { s with txReg := evicted.1 }
    answer (s.setTx h { s.txAt h with life := .free }) .ok evicted.2
  else answer (s.setTx h { s.txAt h with life := .free }) .ok 0

/-- `RX_ATTACH h, pin, address` (R235). -/
def execRxAttach (h : Handle) (pin : Pin) (address : Byte) (s : State) : Result :=
  let s := s.quiet
  if s.cfg.nRxCtx ≤ h.toNat then answer s .notInitialized 0
  else if (s.rxAt h).life ≠ .free then answer s .rejected 0
  else if keptNibble address = 0 then answer s .invalidAddress 0
  else
    let r := attachedRx s.cfg pin (keptNibble address)
    let admitted := s.rxReg.add s.cfg.maxReceivers h
    if admitted.2 = 0 then answer (s.setRx h { r with life := .inert }) .rejected 0
    else
      let s := { s with rxReg := admitted.1 }
      let s := s.setRx h { r with life := .active }
      answer (s.pinConfigure pin .input) .ok admitted.2

/-- `RX_DETACH h` (R236). -/
def execRxDetach (h : Handle) (s : State) : Result :=
  let s := s.quiet
  if s.cfg.nRxCtx ≤ h.toNat ∨ (s.rxAt h).life = .free then answer s .notInitialized 0
  else if (s.rxAt h).life = .active then
    let s := rxStop h s
    let evicted := s.rxReg.remove h
    let s := { s with rxReg := evicted.1 }
    answer (s.setRx h { s.rxAt h with life := .free }) .ok evicted.2
  else answer (s.setRx h { s.rxAt h with life := .free }) .ok 0

end Sys2Proof.Machine
end

