-- ==== Sys2Proof/Machine/Profile.lean ====
section
/-! DEFINITION. The Timing Profile commands (spec file 41). -/

namespace Sys2Proof.Machine

/-- `SetIntervalCore(h, l)` (R133): each value clamped, then the gap widened to `2 × DEVIATION` if it is smaller, low
pulled down where that fits, else high pulled up where that fits. -/
def setIntervalCore (c : Cfg) (h l : Nat) : Nat × Nat :=
  let h := clamp h c.minInterval c.maxTime
  let l := clamp l c.minInterval c.maxTime
  if absDiff h l < 2 * c.deviation then
    if c.minInterval + 2 * c.deviation ≤ h then (h, h - 2 * c.deviation)
    else if l + 2 * c.deviation ≤ c.maxTime then (l + 2 * c.deviation, l)
    else (h, l)
  else (h, l)

/-- `SetStartCore(h, l)` (R136). -/
def setStartCore (c : Cfg) (h l : Nat) : Nat × Nat :=
  (clamp h c.minStartHigh c.maxTime, clamp l c.minStartLow c.maxTime)

/-- A profile with `high` and `low` stored (R134, R135). -/
def Profile.withInterval (p : Profile) (hl : Nat × Nat) : Profile := { p with high := hl.1, low := hl.2 }

/-- A profile with `start_high` and `start_low` stored (R137, R138). -/
def Profile.withStart (p : Profile) (hl : Nat × Nat) : Profile := { p with startHigh := hl.1, startLow := hl.2 }

/-- The end of both transmitter profile commands (R134, R137): the profile stored, the forced stop, the answer. -/
def storeTxProfile (h : Handle) (t : TxContext) (p : Profile) (s : State) : Result :=
  let t := { t with profile := p, phase := restTx s.cfg p }
  let s := (s.setTx h t).pinWrite t.pin .low
  if t.phase = .idle then answer s .ok 1 else answer s .rejected 0

/-- The end of both receiver profile commands (R135, R138): `ErrorOverflow` is kept. -/
def storeRxProfile (h : Handle) (r : RxContext) (p : Profile) (s : State) : Result :=
  let phase := if r.phase = .errorOverflow then r.phase else restRx s.cfg p
  let s := s.setRx h { r with profile := p, phase := phase }
  if separated s.cfg p then answer s .ok 1 else answer s .rejected 0

/-- `TX_SET_INTERVAL h, high, low` (R134). -/
def execTxSetInterval (h : Handle) (high low : Nat) (s : State) : Result :=
  onTx h s fun t s => storeTxProfile h t (t.profile.withInterval (setIntervalCore s.cfg high low)) s

/-- `TX_SET_START h, high, low` (R137). -/
def execTxSetStart (h : Handle) (high low : Nat) (s : State) : Result :=
  onTx h s fun t s => storeTxProfile h t (t.profile.withStart (setStartCore s.cfg high low)) s

/-- `RX_SET_INTERVAL h, high, low` (R135). -/
def execRxSetInterval (h : Handle) (high low : Nat) (s : State) : Result :=
  onRx h s fun r s => storeRxProfile h r (r.profile.withInterval (setIntervalCore s.cfg high low)) s

/-- `RX_SET_START h, high, low` (R138). -/
def execRxSetStart (h : Handle) (high low : Nat) (s : State) : Result :=
  onRx h s fun r s => storeRxProfile h r (r.profile.withStart (setStartCore s.cfg high low)) s

end Sys2Proof.Machine
end

