-- ==== Sys2Proof/Machine/Scheduler.lean ====
section
/-! DEFINITION. The periodic scheduler multiplexer (spec file 45): the dispatch pass of a tick. -/

namespace Sys2Proof.Machine

/-- Every registered transmitter advanced, in registry order (R252). -/
def advanceTransmitters (s : State) : State := s.txReg.live.foldl txAdvance s

/-- Every registered receiver advanced, in registry order (R252). -/
def advanceReceivers (s : State) : State := s.rxReg.live.foldl rxAdvance s

/-- The dispatch pass: all transmitters, then all receivers (R252, R253). -/
def dispatchPass (s : State) : State := advanceReceivers (advanceTransmitters s)

/-- `TICK` (R252): ignored before the tick source was started; a tick has no response (R107). -/
def execTick (s : State) : Result :=
  .next (if s.tickRunning then dispatchPass s.quiet else s.quiet)

end Sys2Proof.Machine
end

