-- ==== Sys2Proof/Machine/Dispatch.lean ====
section
/-! DEFINITION. The meaning of every command and of the tick, one arm per constructor (R101). -/

namespace Sys2Proof.Machine

def exec (i : Instr) (s : State) : Host.Outcome State Fault Refusal :=
  match i with
  | .tick => Sys2Proof.Machine.execTick s
  | .txAttach h pin => Sys2Proof.Machine.execTxAttach h pin s
  | .txDetach h => Sys2Proof.Machine.execTxDetach h s
  | .txSend h length => Sys2Proof.Machine.execTxSend h length s
  | .txStop h => Sys2Proof.Machine.execTxStop h s
  | .txSetInterval h high low => Sys2Proof.Machine.execTxSetInterval h high low s
  | .txSetStart h high low => Sys2Proof.Machine.execTxSetStart h high low s
  | .txSetChannel h channel => Sys2Proof.Machine.execTxSetChannel h channel s
  | .txSetId h id => Sys2Proof.Machine.execTxSetId h id s
  | .txGetState h => Sys2Proof.Machine.execTxGetState h s
  | .rxAttach h pin address => Sys2Proof.Machine.execRxAttach h pin address s
  | .rxDetach h => Sys2Proof.Machine.execRxDetach h s
  | .rxListen h => Sys2Proof.Machine.execRxListen h s
  | .rxStop h => Sys2Proof.Machine.execRxStop h s
  | .rxSetInterval h high low => Sys2Proof.Machine.execRxSetInterval h high low s
  | .rxSetStart h high low => Sys2Proof.Machine.execRxSetStart h high low s
  | .rxSetChannel h channel => Sys2Proof.Machine.execRxSetChannel h channel s
  | .rxReset h => Sys2Proof.Machine.execRxReset h s
  | .rxGetState h => Sys2Proof.Machine.execRxGetState h s
  | .rxGetMessage h => Sys2Proof.Machine.execRxGetMessage h s
  | .rxGetMessageLength h => Sys2Proof.Machine.execRxGetMessageLength h s
  | .rxClearBuffer h => Sys2Proof.Machine.execRxClearBuffer h s

end Sys2Proof.Machine
end

