-- ==== Sys2Proof/Machine/Reset.lean ====
section
/-! DEFINITION. The inputs that are no command (R16): an environment drive, a hardware reset, an undefined opcode. -/

namespace Sys2Proof.Machine

/-- `EnvDrive(p, v)`: the line takes the level; the engine emits nothing (R68). -/
def envDrive (p : Pin) (v : Level) (s : State) : State := s.quiet.setLine p v

/-- Hardware reset (R300): every piece of the engine's state at its reset value. The lines keep their levels (R301);
the configuration, the pending inputs and the payload port are no state of the engine. Log entry 14. -/
def hardwareReset (s : State) : State :=
  { State.resetWith s.cfg s.line with payloadPort := s.payloadPort, inputs := s.inputs }

/-- An undefined opcode answers `Rejected`, 0 and changes nothing (R106). -/
def rejectUndefined (s : State) : Result := answer s.quiet .rejected 0

end Sys2Proof.Machine
end

