-- ==== Sys2Proof/Machine/Fetch.lean ====
section
/-! DEFINITION. Taking one item of the input stream (R16). -/

namespace Sys2Proof.Machine

/-- The head of the stream once a step has taken it: what is left. -/
def State.advanceInputs (s : State) (rest : List Input) : State := { s with inputs := rest }

/-- The payload that accompanies a command stands on the payload port (R100, R105). -/
def State.presentPayload (s : State) (payload : Vector Byte Config.portBytes) : State := { s with payloadPort := payload }

/-- A word put at the head of the input stream, with the payload port as it stands. -/
def State.presentWord (s : State) (w : CmdWord) : State :=
  { s with inputs := .word w s.payloadPort :: s.inputs }

/-- A word carried out: the command it decodes to, or the answer to an undefined opcode (R101, R106). -/
def runWord (w : CmdWord) (s : State) : Result :=
  match decode w with
  | .instr i => exec i s
  | .undefinedOpcode _ => rejectUndefined s

/-- What one input does to the machine whose stream it has left (R16, R68, R106, R300). -/
def takeInput (i : Input) (s : State) : Result :=
  match i with
  | .word w payload => runWord w (s.presentPayload payload)
  | .drive p v => .next (envDrive p v s)
  | .hardwareReset => .next (hardwareReset s)

/-- The next input taken, if there is one; with none the engine is passive and nothing changes (R16, R301 (3)). Log
entry 11. -/
def takeNext (s : State) : Result :=
  match s.inputs with
  | [] => .next s
  | i :: rest => takeInput i (s.advanceInputs rest)

end Sys2Proof.Machine
end

