-- ==== Sys2Proof/Machine/Step.lean ====
section
/-! DEFINITION. One step of the machine: the first item of the input stream is taken and carried out as one atomic
step (R16, R74). There is no program counter and no fetch (R40). -/

namespace Sys2Proof.Machine

/-- One step. A configuration outside R11 is refused, as R11 says. Log entry 2. -/
def step (s : State) : Host.Outcome State Fault Refusal :=
  if validCfg s.cfg then takeNext s else .refused .invalidConfiguration

/-- The word numbered `w` put where the next step takes its input. Log entry 1. -/
def State.withFetchWord (s : State) (nbits w : Nat) : State := s.presentWord (commandWord nbits w)

end Sys2Proof.Machine
end

