-- ==== Sys2Proof/Safety.lean ====
section
/-! DEFINITION. What the claims speak of: the invariant of R44, the pulses of a frame on a line (R92 to R94, R167), and
repeated ticks. -/

namespace Sys2Proof.Machine

/-! The invariant (R44, with R23, R26, R30, R35). -/

/-- Every register of a profile is in the range of R23. -/
structure Profile.InRange (c : Cfg) (p : Profile) : Prop where
  startHigh : c.minStartHigh ≤ p.startHigh ∧ p.startHigh ≤ c.maxTime
  startLow : c.minStartLow ≤ p.startLow ∧ p.startLow ≤ c.maxTime
  high : c.minInterval ≤ p.high ∧ p.high ≤ c.maxTime
  low : c.minInterval ≤ p.low ∧ p.low ≤ c.maxTime

/-- What R44 says of a transmitter context: (3), (9), (10), (11), the bound of R30 and the form of the buffer. -/
structure TxOk (c : Cfg) (t : TxContext) : Prop where
  profile : t.profile.InRange c
  buffer : t.buf.wf c
  length : t.bufLen = 0 ∨ 3 ≤ t.bufLen ∧ t.bufLen ≤ c.bufCap
  cursor : t.byteIndex ≤ t.bufLen
  sending : t.phase = .sending → 3 ≤ t.bufLen
  elapsed : t.phase = .sending → t.elapsed ≤ c.maxTime + c.tick - 1
  definitions : t.phase = .errorDefinitions ↔ separated c t.profile = false
  inert : t.life = .inert → t.phase ≠ .sending

/-- What R44 says of a receiver context: (4) to (7), (9) to (11), the bounds of R35, the address of R26 and the form of
the buffer. -/
structure RxOk (c : Cfg) (r : RxContext) : Prop where
  profile : r.profile.InRange c
  buffer : r.buf.wf c
  length : r.bufLen ≤ c.bufCap
  settled : r.phase ≠ .validating
  message : r.phase = .messageReady → (bufByte c r.buf 1).toNat ≤ c.maxPayload ∧ (bufByte c r.buf 1).toNat + 3 ≤ r.bufLen
  pending : r.pending = true → r.found = true ∧ r.prevLevel = .low
  elapsed : r.elapsed < c.elapsedMax
  samples : r.sampleHigh < c.elapsedMax ∧ r.sampleLow < c.elapsedMax
  definitions : r.phase ≠ .errorOverflow → (r.phase = .errorDefinitions ↔ separated c r.profile = false)
  inert : r.life = .inert → r.phase = .idle ∨ r.phase = .errorDefinitions
  address : r.life ≠ .free → r.address ≠ 0

/-- The invariant of the machine: R11 for the configuration, and R44 for the rest. -/
structure StateOk (s : State) : Prop where
  cfg : validCfg s.cfg
  txCount : s.txReg.count.val ≤ s.cfg.maxTransmitters
  rxCount : s.rxReg.count.val ≤ s.cfg.maxReceivers
  tx : ∀ h, TxOk s.cfg (s.txAt h)
  rx : ∀ h, RxOk s.cfg (s.rxAt h)
  txDistinct : s.txReg.live.Nodup
  txMember : ∀ h, h ∈ s.txReg.live ↔ (s.txAt h).life = .active
  txExists : ∀ h, (s.txAt h).life ≠ .free → h.toNat < s.cfg.nTxCtx
  rxDistinct : s.rxReg.live.Nodup
  rxMember : ∀ h, h ∈ s.rxReg.live ↔ (s.rxAt h).life = .active
  rxExists : ∀ h, (s.rxAt h).life ≠ .free → h.toNat < s.cfg.nRxCtx
  txStopped : s.tickRunning = false → ∀ h, (s.txAt h).phase ≠ .sending
  rxStopped : s.tickRunning = false → ∀ h, (s.rxAt h).phase ≠ .listening ∧ (s.rxAt h).phase ≠ .messageReady

/-! Pulses (R92 to R94, R166, R167). -/

/-- `K(d)`: the ticks a half of nominal duration `d` lasts, `max(1, ceil(d / TICK))` (R94, R166). -/
def halfTicks (c : Cfg) (d : Nat) : Nat := max 1 ((d + c.tick - 1) / c.tick)

/-- The bits of a byte in wire order: MSB first (R63). -/
def byteBits (b : Byte) : List Bool := [7, 6, 5, 4, 3, 2, 1, 0].map (bitOf b)

/-- The bits of a byte sequence in wire order (R63, R92). -/
def wireBits (bytes : List Byte) : List Bool := bytes.flatMap byteBits

/-- A symbol on a line: a HIGH half, then a LOW half, of so many ticks (R93, R94). -/
def symbolWave (n : Nat × Nat) : List Level := List.replicate n.1 .high ++ List.replicate n.2 .low

/-- A symbol of nominal durations `high` and `low` as a transmitter sends it (R93, R166). -/
def pulse (c : Cfg) (high low : Nat) : List Level := symbolWave (halfTicks c high, halfTicks c low)

/-- The pulse of a bit: ONE is `high` then `low`, ZERO is `low` then `high` (R93). -/
def bitPulse (c : Cfg) (p : Profile) (b : Bool) : List Level :=
  if b then pulse c p.high p.low else pulse c p.low p.high

/-- The levels of a whole frame, tick by tick: START, then every bit (R92, R167). -/
def frameWave (c : Cfg) (p : Profile) (bytes : List Byte) : List Level :=
  pulse c p.startHigh p.startLow ++ (wireBits bytes).flatMap (bitPulse c p)

/-- A transmitter context after `n` ticks (R165). -/
def txAfter (c : Cfg) : Nat → TxContext → TxContext
  | 0, t => t
  | n + 1, t => txAfter c n (txTick c t).1

/-- The level a pin that stood at `l` has after each of `n` ticks of a transmitter (R165). -/
def txWave (c : Cfg) : Nat → Level → TxContext → List Level
  | 0, _, _ => []
  | n + 1, l, t => (txTick c t).2.getLastD l :: txWave c n ((txTick c t).2.getLastD l) (txTick c t).1

/-- A receiver context after a tick for each level its line shows (R196). -/
def rxAfter (c : Cfg) : List Level → RxContext → RxContext
  | [], r => r
  | l :: ls, r => rxAfter c ls (rxTick c l r)

/-- `Q`: the ticks of a time-out, `ceil(ELAPSED_MAX / TICK)` (R331). -/
def timeoutTicks (c : Cfg) : Nat := (c.elapsedMax + c.tick - 1) / c.tick

/-- A transmitter at the first symbol of a frame whose bytes are in its buffer, as `TX_SEND` leaves it (R160). -/
structure FrameLoaded (c : Cfg) (t : TxContext) (bytes : List Byte) : Prop where
  phase : t.phase = .sending
  sym : t.sym = .start
  half : t.half = .high
  byteIndex : t.byteIndex = 0
  bitIndex : t.bitIndex = 7
  elapsed : t.elapsed = 0
  bufLen : t.bufLen = bytes.length
  fits : bytes.length ≤ c.bufCap
  content : bufSlice c t.buf 0 bytes.length = bytes

/-- A receiver that is `Listening` with an idle edge tracker on a `LOW` line (R204). -/
structure Waiting (r : RxContext) : Prop where
  phase : r.phase = .listening
  found : r.found = false
  pending : r.pending = false
  prevLevel : r.prevLevel = .low

/-- Both samples of a symbol of so many ticks are within tolerance of the durations `high` and `low` (R200, R201). -/
abbrev Near (c : Cfg) (n : Nat × Nat) (high low : Nat) : Prop :=
  absDiff (n.1 * c.tick) high ≤ c.deviation ∧ absDiff (n.2 * c.tick) low ≤ c.deviation

/-- A symbol whose halves are measured within tolerance of `high` and `low`, before the time-out (R204, R320 (2)). -/
structure Measured (c : Cfg) (high low : Nat) (n : Nat × Nat) : Prop where
  present : 1 ≤ n.1 ∧ 1 ≤ n.2
  inTime : n.1 * c.tick < c.elapsedMax ∧ n.2 * c.tick < c.elapsedMax
  near : Near c n high low

/-- A symbol measured as this bit and unambiguous: it is not a START as well, and a ZERO is not a ONE as well, in the
priority of R201 (R204). -/
structure MeasuredBit (c : Cfg) (p : Profile) (b : Bool) (n : Nat × Nat) : Prop where
  halves : Measured c (if b then p.high else p.low) (if b then p.low else p.high) n
  notStart : ¬Near c n p.startHigh p.startLow
  notOne : b = false → ¬Near c n p.high p.low

/-- A half of nominal duration `d` is measured within tolerance and before the time-out (R320). -/
abbrev Hearable (c : Cfg) (d : Nat) : Prop :=
  halfTicks c d * c.tick ≤ d + c.deviation ∧ halfTicks c d * c.tick < c.elapsedMax

/-- A profile whose frames a receiver with the same profile can decode: the obligations of R319, with windows that
are disjoint ("strictly more than 2 × DEVIATION"), and of R320. -/
structure Decodable (c : Cfg) (p : Profile) : Prop where
  startHigh : Hearable c p.startHigh
  startLow : Hearable c p.startLow
  high : Hearable c p.high
  low : Hearable c p.low
  bits : 2 * c.deviation < absDiff p.high p.low
  startNotOne : 2 * c.deviation < absDiff p.startHigh p.high ∨ 2 * c.deviation < absDiff p.startLow p.low
  startNotZero : 2 * c.deviation < absDiff p.startHigh p.low ∨ 2 * c.deviation < absDiff p.startLow p.high

/-- `n` ticks in a row (`TICKS n`, R110). -/
def ticks : Nat → State → Result
  | 0, s => .next s
  | n + 1, s =>
    match exec .tick s with
    | .next t => ticks n t
    | .fault f => .fault f
    | .refused r => .refused r

/-! Commands and their answers. -/

/-- The state of which only the outputs differ: this response, and these events in order (R14, R107). -/
def State.replied (s : State) (status : Status) (value : Nat) (data : List Byte) (events : List Event) : State :=
  { s with out := { response := some ⟨status, BitVec.ofNat 16 value, data⟩, events := events } }

/-- The transmitter a command addresses (R101). -/
def txTarget : Instr → Option Handle
  | .tick => none
  | .txAttach h _ => some h
  | .txDetach h => some h
  | .txSend h _ => some h
  | .txStop h => some h
  | .txSetInterval h _ _ => some h
  | .txSetStart h _ _ => some h
  | .txSetChannel h _ => some h
  | .txSetId h _ => some h
  | .txGetState h => some h
  | .rxAttach _ _ _ => none
  | .rxDetach _ => none
  | .rxListen _ => none
  | .rxStop _ => none
  | .rxSetInterval _ _ _ => none
  | .rxSetStart _ _ _ => none
  | .rxSetChannel _ _ => none
  | .rxReset _ => none
  | .rxGetState _ => none
  | .rxGetMessage _ => none
  | .rxGetMessageLength _ => none
  | .rxClearBuffer _ => none

/-- The receiver a command addresses (R101). -/
def rxTarget : Instr → Option Handle
  | .tick => none
  | .txAttach _ _ => none
  | .txDetach _ => none
  | .txSend _ _ => none
  | .txStop _ => none
  | .txSetInterval _ _ _ => none
  | .txSetStart _ _ _ => none
  | .txSetChannel _ _ => none
  | .txSetId _ _ => none
  | .txGetState _ => none
  | .rxAttach h _ _ => some h
  | .rxDetach h => some h
  | .rxListen h => some h
  | .rxStop h => some h
  | .rxSetInterval h _ _ => some h
  | .rxSetStart h _ _ => some h
  | .rxSetChannel h _ => some h
  | .rxReset h => some h
  | .rxGetState h => some h
  | .rxGetMessage h => some h
  | .rxGetMessageLength h => some h
  | .rxClearBuffer h => some h

/-- The bits of its word that a command uses: those the opcode table's pattern does not mark `x` (R100, R101). -/
def usedBits : Instr → CmdWord
  | .tick => 0xFF0000000000
  | .txAttach _ _ => 0xFFFF00FF0000
  | .txDetach _ => 0xFFFF00000000
  | .txSend _ _ => 0xFFFF00FF0000
  | .txStop _ => 0xFFFF00000000
  | .txSetInterval _ _ _ => 0xFFFFFFFFFFFF
  | .txSetStart _ _ _ => 0xFFFFFFFFFFFF
  | .txSetChannel _ _ => 0xFFFF00FF0000
  | .txSetId _ _ => 0xFFFF00FF0000
  | .txGetState _ => 0xFFFF00000000
  | .rxAttach _ _ _ => 0xFFFF00FF00FF
  | .rxDetach _ => 0xFFFF00000000
  | .rxListen _ => 0xFFFF00000000
  | .rxStop _ => 0xFFFF00000000
  | .rxSetInterval _ _ _ => 0xFFFFFFFFFFFF
  | .rxSetStart _ _ _ => 0xFFFFFFFFFFFF
  | .rxSetChannel _ _ => 0xFFFF00FF0000
  | .rxReset _ => 0xFFFF00000000
  | .rxGetState _ => 0xFFFF00000000
  | .rxGetMessage _ => 0xFFFF00000000
  | .rxGetMessageLength _ => 0xFFFF00000000
  | .rxClearBuffer _ => 0xFFFF00000000

/-- Every word whose opcode is `op` is the command made of its fields, whatever the bits the command does not use
(R100 to R102). -/
def Encodes (op : Byte) (command : CmdWord → Instr) : Prop :=
  ∀ w : CmdWord, opcodeField w = op → decode w = .instr (command w)

/-- The opcodes R106 lists as undefined. -/
abbrev undefinedOpcodes (n : Nat) : Prop :=
  n = 0x00 ∨ 0x02 ≤ n ∧ n ≤ 0x0F ∨ 0x19 ≤ n ∧ n ≤ 0x1F ∨ 0x2C ≤ n ∧ n ≤ 0xFF

end Sys2Proof.Machine
end

