-- ==== Sys2Proof/Certificates/Slice0/Obligations.lean ====
section
/-! DEFINITION. The statements for the provers. Each docstring says which rule of spec/ the statement formalises. -/

open Sys2Proof Sys2Proof.Machine

/-! ## Encodings -/

/-- R100 to R104: the word the encoder makes of a command decodes to that command, with every operand at every value
its field admits. -/
def Obligations.DecodeOfEncode : Prop :=
  ∀ i : Instr, i.wellFormed = true → decode (encode i) = .instr i

/-- R100, R101: decoding keeps every bit the command uses. The command read from a word encodes to that word with the
unused bits cleared, and it is well formed. That the encoder writes zeros in the unused bits is the model's choice (log
19, DESIGN CHOICE). -/
def Obligations.DecodeKeepsUsedBits : Prop :=
  ∀ (w : CmdWord) (i : Instr), decode w = .instr i → i.wellFormed = true ∧ encode i = w &&& usedBits i

/-- R100: "Fields a command does not use are ignored: any value is accepted and has no effect." Words that agree on the
bits a command uses are the same command. -/
def Obligations.UnusedFieldsIgnored : Prop :=
  ∀ (w v : CmdWord) (i : Instr), decode w = .instr i → v &&& usedBits i = w &&& usedBits i → decode v = .instr i

/-- R106: a word is no command exactly when its opcode is in the list of undefined ones, and the step that takes such
a word answers (`Rejected`, 0) and changes nothing of the engine. -/
def Obligations.UndefinedOpcodesRejected : Prop :=
  (∀ w : CmdWord, undefinedOpcodes (opcodeField w).toNat ↔ ∀ i, decode w ≠ .instr i) ∧
  ∀ (s : State) (w : CmdWord) (payload : Vector Byte Config.portBytes) (rest : List Input),
    validCfg s.cfg → s.inputs = .word w payload :: rest → undefinedOpcodes (opcodeField w).toNat →
    step s = .next (({ s with inputs := rest, payloadPort := payload }).replied .rejected 0 [] [])

/-- Words of the spec's table 3.3 (file 95), which follow R100 and R101, decode to the commands that table names. -/
def Obligations.TableWordsDecode : Prop :=
  decode 0x010000000000 = .instr .tick ∧
  decode 0x100000020000 = .instr (.txAttach 0 2) ∧
  decode 0x1201001E0000 = .instr (.txSend 1 30) ∧
  decode 0x140001F401C2 = .instr (.txSetInterval 0 500 450) ∧
  decode 0x170000030000 = .instr (.txSetId 0 3) ∧
  decode 0x1700FF03FFFF = .instr (.txSetId 0 3) ∧
  decode 0x2005000F0006 = .instr (.rxAttach 5 15 6) ∧
  decode 0x250005DC05DC = .instr (.rxSetStart 0 1500 1500) ∧
  decode 0x2A0000000000 = .instr (.rxGetMessageLength 0) ∧
  decode 0x190000000000 = .undefinedOpcode 0x19

/-! ## The step -/

/-- R16, R74, R101: when the next input is a command word that decodes to `i`, the step is `exec i` on the state whose
input has been taken and whose payload port holds the bytes that came with the word. -/
def Obligations.StepRunsDecodedCommand : Prop :=
  ∀ (s : State) (w : CmdWord) (payload : Vector Byte Config.portBytes) (rest : List Input) (i : Instr),
    validCfg s.cfg → s.inputs = .word w payload :: rest → decode w = .instr i →
    step s = exec i { s with inputs := rest, payloadPort := payload }

/-- R265: "every rule is a total function from state (and operands) to state (and response)". Under a configuration
that meets R11 every step has a next state. -/
def Obligations.EveryStepAnswers : Prop :=
  ∀ s : State, validCfg s.cfg → ∃ t, step s = .next t

/-- R11: "A configuration that breaks a constraint is refused by the model; the spec gives it no meaning." -/
def Obligations.InvalidConfigurationRefused : Prop :=
  ∀ s : State, ¬validCfg s.cfg → step s = .refused .invalidConfiguration

/-- R68: an environment drive sets its line, which reads so from then on, and changes nothing else. That the drive
stands in the input stream is the model's (log 1). -/
def Obligations.EnvironmentDrivesLine : Prop :=
  ∀ (s : State) (p : Pin) (v : Level) (rest : List Input),
    validCfg s.cfg → s.inputs = .drive p v :: rest →
    ∃ t, step s = .next t ∧ (∀ q, t.lineAt q = if q = p then v else s.lineAt q) ∧
      t.tickRunning = s.tickRunning ∧ t.txReg = s.txReg ∧ t.rxReg = s.rxReg ∧ t.tx = s.tx ∧ t.rx = s.rx ∧
      t.cfg = s.cfg ∧ t.payloadPort = s.payloadPort ∧ t.inputs = rest ∧ t.out = Output.none

/-- R300 with the table of R46: a hardware reset leaves every piece of the engine's state at its reset value and emits
nothing. -/
def Obligations.HardwareResetValues : Prop :=
  ∀ (s : State) (rest : List Input), validCfg s.cfg → s.inputs = .hardwareReset :: rest →
    ∃ t, step s = .next t ∧ t.tickRunning = false ∧
      t.txReg.count = 0 ∧ t.rxReg.count = 0 ∧
      (∀ i : Fin Config.registrySlots, t.txReg.slots[i] = 0 ∧ t.rxReg.slots[i] = 0) ∧
      (∀ h, t.txAt h =
        { life := .free, pin := 0, id := 0, channel := 0,
          profile := ⟨s.cfg.defaultStartHigh, s.cfg.defaultStartLow, s.cfg.defaultHigh, s.cfg.defaultLow⟩,
          phase := .idle, sym := .start, half := .high, byteIndex := 0, bitIndex := 7, elapsed := 0,
          buf := [], bufLen := 0 }) ∧
      (∀ h, t.rxAt h =
        { life := .free, pin := 0, address := 0, channel := 0,
          profile := ⟨s.cfg.defaultStartHigh, s.cfg.defaultStartLow, s.cfg.defaultHigh, s.cfg.defaultLow⟩,
          phase := .idle, elapsed := 0, found := false, pending := false, sampleHigh := 0, sampleLow := 0,
          prevLevel := .low, bitCursor := 7, buf := [], bufLen := 0 }) ∧
      (∀ i < t.cfg.bufCap, bufByte t.cfg [] i = 0) ∧
      t.out.events = []

/-- R301 (1): "It does not change `line`". -/
def Obligations.HardwareResetKeepsLines : Prop :=
  ∀ (s : State) (rest : List Input), validCfg s.cfg → s.inputs = .hardwareReset :: rest →
    ∃ t, step s = .next t ∧ ∀ p, t.lineAt p = s.lineAt p

/-- R8, R20: the configuration is not state; no step changes it. -/
def Obligations.StepKeepsConfiguration : Prop :=
  ∀ s t : State, step s = .next t → t.cfg = s.cfg

/-! ## The invariant -/

/-- R44, its base case: the state after reset meets the invariant, under every configuration of R11, whatever the
levels of the lines. -/
def Obligations.ResetMeetsInvariant : Prop :=
  ∀ (c : Cfg) (line : Vector Level 256), validCfg c → StateOk (State.resetWith c line)

/-- R44, its induction step: from every state that meets the invariant, every step (a command, a tick, a drive, a
reset) gives a state that meets it. -/
def Obligations.StepKeepsInvariant : Prop :=
  ∀ s t : State, StateOk s → step s = .next t → StateOk t

/-! ## Checksum and frame check -/

/-- R120: the checksum is the sum of the bytes modulo 256, with the rule's corner cases and example. -/
def Obligations.ChecksumIsSumModulo256 : Prop :=
  (∀ bytes : List Byte, (checksum bytes).toNat = (bytes.map BitVec.toNat).sum % 256) ∧
  checksum [] = 0x00 ∧ checksum (List.replicate 30 0xFF) = 0xE2 ∧ checksum [0x01, 0x02, 0x03] = 0x06

/-- R121: the checksum depends only on the multiset of bytes, and changing exactly one byte to another value always
changes it. -/
def Obligations.ChecksumOrderAndSingleByte : Prop :=
  (∀ a b : List Byte, a.Perm b → checksum a = checksum b) ∧
  ∀ (a b : List Byte) (x y : Byte), x ≠ y → checksum (a ++ x :: b) ≠ checksum (a ++ y :: b)

/-- R122 with R61: the frame check passes exactly when the received bytes are the frame of some payload of at most
`MAX_PAYLOAD` bytes for this receiver's address and channel; and R98 (1): where neither of those is 0, a header with
address or channel 0 is rejected. For a receiver whose stored channel is 0 the model follows R122 and R183 (log 22). -/
def Obligations.FrameCheckAcceptsExactlyFrames : Prop :=
  ∀ (c : Cfg) (r : RxContext), validCfg c → r.bufLen ≤ c.bufCap →
    let header := (bufByte c r.buf 0).toNat
    (frameOk c r = true ↔ ∃ payload : List Byte, payload.length ≤ c.maxPayload ∧
      bufSlice c r.buf 0 r.bufLen = frameBytes r.address r.channel payload) ∧
    (r.address ≠ 0 → r.channel ≠ 0 → header / 16 = 0 ∨ header % 16 = 0 → frameOk c r = false)

/-! ## Timing Profile -/

/-- R133: the stored pair is in range; requests already apart are only clamped; closer ones end exactly
`2 × DEVIATION` apart, low pulled down where that fits, else high pulled up where that fits, else as clamped; and a
result that is not separated needs a range of at most `6 × DEVIATION − 3`. -/
def Obligations.SetIntervalWidensGap : Prop :=
  ∀ (c : Cfg) (high low : Nat), validCfg c →
    let h := clamp high c.minInterval c.maxTime
    let l := clamp low c.minInterval c.maxTime
    let r := setIntervalCore c high low
    (c.minInterval ≤ r.1 ∧ r.1 ≤ c.maxTime ∧ c.minInterval ≤ r.2 ∧ r.2 ≤ c.maxTime) ∧
    (2 * c.deviation ≤ absDiff h l → r = (h, l)) ∧
    (absDiff h l < 2 * c.deviation → c.minInterval + 2 * c.deviation ≤ h → r.1 = h ∧ r.2 + 2 * c.deviation = h) ∧
    (absDiff h l < 2 * c.deviation → h < c.minInterval + 2 * c.deviation → l + 2 * c.deviation ≤ c.maxTime →
      r.2 = l ∧ r.1 = l + 2 * c.deviation) ∧
    (absDiff h l < 2 * c.deviation → h < c.minInterval + 2 * c.deviation → c.maxTime < l + 2 * c.deviation →
      r = (h, l)) ∧
    (absDiff r.1 r.2 < 2 * c.deviation → c.maxTime - c.minInterval + 3 ≤ 6 * c.deviation)

/-- R134: `TX_SET_INTERVAL`. -/
def Obligations.TxSetIntervalRule : Prop :=
  Encodes 0x14 (fun w => .txSetInterval (handleField w) (fieldA w) (fieldB w)) ∧
  ∀ (h : Handle) (high low : Nat) (s : State),
    (s.txActive h →
      let hl := setIntervalCore s.cfg high low
      let apart := 2 * s.cfg.deviation ≤ absDiff hl.1 hl.2
      exec (.txSetInterval h high low) s = .next
        (((s.setTx h { s.txAt h with
            profile := { (s.txAt h).profile with high := hl.1, low := hl.2 }
            phase := if apart then .idle else .errorDefinitions }).setLine (s.txAt h).pin .low).replied
          (if apart then .ok else .rejected) (if apart then 1 else 0) [] [.pinWrite (s.txAt h).pin .low])) ∧
    (¬s.txActive h → exec (.txSetInterval h high low) s = .next (s.replied .notInitialized 0 [] []))

/-- R137 with R136: `TX_SET_START`. -/
def Obligations.TxSetStartRule : Prop :=
  Encodes 0x15 (fun w => .txSetStart (handleField w) (fieldA w) (fieldB w)) ∧
  ∀ (h : Handle) (high low : Nat) (s : State),
    (s.txActive h →
      let p := (s.txAt h).profile
      let apart := 2 * s.cfg.deviation ≤ absDiff p.high p.low
      exec (.txSetStart h high low) s = .next
        (((s.setTx h { s.txAt h with
            profile := { p with startHigh := clamp high s.cfg.minStartHigh s.cfg.maxTime
                                startLow := clamp low s.cfg.minStartLow s.cfg.maxTime }
            phase := if apart then .idle else .errorDefinitions }).setLine (s.txAt h).pin .low).replied
          (if apart then .ok else .rejected) (if apart then 1 else 0) [] [.pinWrite (s.txAt h).pin .low])) ∧
    (¬s.txActive h → exec (.txSetStart h high low) s = .next (s.replied .notInitialized 0 [] []))

/-- R135: `RX_SET_INTERVAL`; `ErrorOverflow` is kept. -/
def Obligations.RxSetIntervalRule : Prop :=
  Encodes 0x24 (fun w => .rxSetInterval (handleField w) (fieldA w) (fieldB w)) ∧
  ∀ (h : Handle) (high low : Nat) (s : State),
    (s.rxActive h →
      let hl := setIntervalCore s.cfg high low
      let apart := 2 * s.cfg.deviation ≤ absDiff hl.1 hl.2
      exec (.rxSetInterval h high low) s = .next
        ((s.setRx h { s.rxAt h with
            profile := { (s.rxAt h).profile with high := hl.1, low := hl.2 }
            phase := if (s.rxAt h).phase = .errorOverflow then .errorOverflow
                     else if apart then .idle else .errorDefinitions }).replied
          (if apart then .ok else .rejected) (if apart then 1 else 0) [] [])) ∧
    (¬s.rxActive h → exec (.rxSetInterval h high low) s = .next (s.replied .notInitialized 0 [] []))

/-- R138 with R136: `RX_SET_START`; `ErrorOverflow` is kept. -/
def Obligations.RxSetStartRule : Prop :=
  Encodes 0x25 (fun w => .rxSetStart (handleField w) (fieldA w) (fieldB w)) ∧
  ∀ (h : Handle) (high low : Nat) (s : State),
    (s.rxActive h →
      let p := (s.rxAt h).profile
      let apart := 2 * s.cfg.deviation ≤ absDiff p.high p.low
      exec (.rxSetStart h high low) s = .next
        ((s.setRx h { s.rxAt h with
            profile := { p with startHigh := clamp high s.cfg.minStartHigh s.cfg.maxTime
                                startLow := clamp low s.cfg.minStartLow s.cfg.maxTime }
            phase := if (s.rxAt h).phase = .errorOverflow then .errorOverflow
                     else if apart then .idle else .errorDefinitions }).replied
          (if apart then .ok else .rejected) (if apart then 1 else 0) [] [])) ∧
    (¬s.rxActive h → exec (.rxSetStart h high low) s = .next (s.replied .notInitialized 0 [] []))

/-! ## Transmit -/

/-- R160: `TX_SEND`, its checks in order and its effect. The payload is the first `length` bytes of the payload port;
the rule's 30 is `MAX_PAYLOAD` (R8). A failing `TX_SEND` changes nothing at all. -/
def Obligations.TxSendRule : Prop :=
  Encodes 0x12 (fun w => .txSend (handleField w) (lowA w).toNat) ∧
  ∀ (h : Handle) (length : Nat) (s : State),
    let t := s.txAt h
    (¬s.txActive h → exec (.txSend h length) s = .next (s.replied .notInitialized 0 [] [])) ∧
    (s.txActive h → t.phase = .errorDefinitions → exec (.txSend h length) s = .next (s.replied .rejected 0 [] [])) ∧
    (s.txActive h → t.phase ≠ .errorDefinitions → t.id = 0 →
      exec (.txSend h length) s = .next (s.replied .invalidAddress 0 [] [])) ∧
    (s.txActive h → t.phase ≠ .errorDefinitions → t.id ≠ 0 → t.channel = 0 →
      exec (.txSend h length) s = .next (s.replied .invalidChannel 0 [] [])) ∧
    (s.txActive h → t.phase ≠ .errorDefinitions → t.id ≠ 0 → t.channel ≠ 0 → s.cfg.maxPayload < length →
      exec (.txSend h length) s = .next (s.replied .payloadTooLarge 0 [] [])) ∧
    (validCfg s.cfg → s.txActive h → t.phase ≠ .errorDefinitions → t.id ≠ 0 → t.channel ≠ 0 →
      length ≤ s.cfg.maxPayload →
      ∃ buf : Memory,
        (∀ i < s.cfg.bufCap, bufByte s.cfg buf i =
          if i = 0 then headerByte t.id t.channel
          else if i = 1 then BitVec.ofNat 8 length
          else if i < 2 + length then s.payloadPort.toList.getD (i - 2) 0
          else if i = 2 + length then checksum (s.payloadPort.toList.take length)
          else bufByte s.cfg t.buf i) ∧
        exec (.txSend h length) s = .next
          (({ s.setTx h { t with phase := .sending, sym := .start, half := .high, byteIndex := 0, bitIndex := 7,
                                 elapsed := 0, buf := buf, bufLen := length + 3 } with tickRunning := true }).replied
            .ok 1 [] (if s.tickRunning then [] else [.tickStart s.cfg.tick])))

/-- R161 with R152: `TX_STOP`; a second one changes no state. -/
def Obligations.TxStopRule : Prop :=
  Encodes 0x13 (fun w => .txStop (handleField w)) ∧
  ∀ (h : Handle) (s : State),
    (s.txActive h →
      let t := ((s.setTx h { s.txAt h with
          phase := if (s.txAt h).phase = .errorDefinitions then .errorDefinitions else .idle }).setLine
            (s.txAt h).pin .low).replied .ok 0 [] [.pinWrite (s.txAt h).pin .low]
      exec (.txStop h) s = .next t ∧ exec (.txStop h) t = .next t) ∧
    (¬s.txActive h → exec (.txStop h) s = .next (s.replied .notInitialized 0 [] []))

/-- R162: `TX_SET_CHANNEL` stores the low nibble of its operand, unchecked; with 0 stored the next `TX_SEND` fails with
`InvalidChannel`, where no earlier check of R160 fails. -/
def Obligations.TxSetChannelRule : Prop :=
  Encodes 0x16 (fun w => .txSetChannel (handleField w) (lowA w)) ∧
  ∀ (h : Handle) (channel : Byte) (s : State),
    (s.txActive h → exec (.txSetChannel h channel) s = .next
      ((s.setTx h { s.txAt h with channel := BitVec.ofNat 4 (channel.toNat % 16) }).replied .ok 0 [] [])) ∧
    (¬s.txActive h → exec (.txSetChannel h channel) s = .next (s.replied .notInitialized 0 [] [])) ∧
    (s.txActive h → (s.txAt h).phase ≠ .errorDefinitions → (s.txAt h).id ≠ 0 → channel.toNat % 16 = 0 →
      ∃ t, exec (.txSetChannel h channel) s = .next t ∧
        ∀ length, exec (.txSend h length) t = .next (t.replied .invalidChannel 0 [] []))

/-- R163: `TX_SET_ID` stores the low nibble of its operand, unchecked; with 0 stored the next `TX_SEND` fails with
`InvalidAddress`, where no earlier check of R160 fails. -/
def Obligations.TxSetIdRule : Prop :=
  Encodes 0x17 (fun w => .txSetId (handleField w) (lowA w)) ∧
  ∀ (h : Handle) (id : Byte) (s : State),
    (s.txActive h → exec (.txSetId h id) s = .next
      ((s.setTx h { s.txAt h with id := BitVec.ofNat 4 (id.toNat % 16) }).replied .ok 0 [] [])) ∧
    (¬s.txActive h → exec (.txSetId h id) s = .next (s.replied .notInitialized 0 [] [])) ∧
    (s.txActive h → (s.txAt h).phase ≠ .errorDefinitions → id.toNat % 16 = 0 →
      ∃ t, exec (.txSetId h id) s = .next t ∧
        ∀ length, exec (.txSend h length) t = .next (t.replied .invalidAddress 0 [] []))

/-- R164: `TX_GET_STATE` answers the phase code and changes nothing. -/
def Obligations.TxGetStateRule : Prop :=
  Encodes 0x18 (fun w => .txGetState (handleField w)) ∧
  ∀ (h : Handle) (s : State),
    (s.txActive h → exec (.txGetState h) s = .next (s.replied .ok
      (match (s.txAt h).phase with | .idle => 0 | .sending => 1 | .errorDefinitions => 5) [] [])) ∧
    (¬s.txActive h → exec (.txGetState h) s = .next (s.replied .notInitialized 0 [] []))

/-- R166: a half of nominal duration `d` occupies exactly `max(1, ceil(d / TICK))` ticks, in each of which the pin is
written with that half's level; and R165, R168: a tick does nothing to a transmitter that is not `Sending`, not even a
write of its pin. -/
def Obligations.HalfLastsCeilTicks : Prop :=
  (∀ (c : Cfg) (t : TxContext), t.phase ≠ .sending → txTick c t = (t, [])) ∧
  ∀ (c : Cfg) (t : TxContext), 1 ≤ c.tick → t.phase = .sending → t.elapsed = 0 →
    let k := halfTicks c (if t.half = .high then durHigh t else durLow t)
    (∀ j < k, txAfter c j t = { t with elapsed := j * c.tick } ∧
      (txTick c (txAfter c j t)).2 ≠ [] ∧ ∀ v ∈ (txTick c (txAfter c j t)).2, v = t.half) ∧
    (t.half = .high → txAfter c k t = { t with half := .low, elapsed := 0 }) ∧
    (t.half = .low → t.byteIndex = t.bufLen → (txAfter c k t).phase = .idle) ∧
    (t.half = .low → t.byteIndex ≠ t.bufLen → (txAfter c k t).phase = .sending ∧ (txAfter c k t).half = .high ∧
      (txAfter c k t).elapsed = 0)

/-- R167: the waveform of a whole frame, its length in ticks, and the ticks in which the transmitter is `Sending`. -/
def Obligations.FrameWaveform : Prop :=
  ∀ (c : Cfg) (t : TxContext) (bytes : List Byte) (l : Level), 1 ≤ c.tick → FrameLoaded c t bytes →
    let n := halfTicks c t.profile.startHigh + halfTicks c t.profile.startLow +
      8 * bytes.length * (halfTicks c t.profile.high + halfTicks c t.profile.low)
    txWave c n l t = frameWave c t.profile bytes ∧
    (∀ j < n, (txAfter c j t).phase = .sending) ∧ (txAfter c n t).phase = .idle

/-! ## Receive -/

/-- R180: `RX_LISTEN`, its checks in order and its effect: decode progress reset, the buffer bytes kept. -/
def Obligations.RxListenRule : Prop :=
  Encodes 0x22 (fun w => .rxListen (handleField w)) ∧
  ∀ (h : Handle) (s : State),
    let r := s.rxAt h
    let fatal := r.phase = .errorOverflow ∨ r.phase = .errorDefinitions
    (¬s.rxActive h → exec (.rxListen h) s = .next (s.replied .notInitialized 0 [] [])) ∧
    (s.rxActive h → fatal → exec (.rxListen h) s = .next (s.replied .rejected 0 [] [])) ∧
    (s.rxActive h → ¬fatal → r.address = 0 → exec (.rxListen h) s = .next (s.replied .invalidAddress 0 [] [])) ∧
    (s.rxActive h → ¬fatal → r.address ≠ 0 → r.channel = 0 →
      exec (.rxListen h) s = .next (s.replied .invalidChannel 0 [] [])) ∧
    (s.rxActive h → ¬fatal → r.address ≠ 0 → r.channel ≠ 0 →
      exec (.rxListen h) s = .next
        (({ s.setRx h { r with elapsed := 0, found := false, pending := false, sampleHigh := 0, sampleLow := 0,
                               prevLevel := .low, bitCursor := 7, bufLen := 0, phase := .listening }
            with tickRunning := true }).replied .ok 1 [] (if s.tickRunning then [] else [.tickStart s.cfg.tick])))

/-- R181 with R189: `RX_STOP`; the fatal phases are kept, and a second one changes no state. -/
def Obligations.RxStopRule : Prop :=
  Encodes 0x23 (fun w => .rxStop (handleField w)) ∧
  ∀ (h : Handle) (s : State),
    (s.rxActive h →
      let t := (s.setRx h { s.rxAt h with
          phase := match (s.rxAt h).phase with
            | .errorOverflow => .errorOverflow
            | .errorDefinitions => .errorDefinitions
            | _ => .idle }).replied .ok 0 [] []
      exec (.rxStop h) s = .next t ∧ exec (.rxStop h) t = .next t) ∧
    (¬s.rxActive h → exec (.rxStop h) s = .next (s.replied .notInitialized 0 [] []))

/-- R182: `RX_RESET` zeroes the buffer length and rests the receiver, in every phase, and writes nothing more. -/
def Obligations.RxResetRule : Prop :=
  Encodes 0x27 (fun w => .rxReset (handleField w)) ∧
  ∀ (h : Handle) (s : State),
    (s.rxActive h → exec (.rxReset h) s = .next
      ((s.setRx h { s.rxAt h with
          bufLen := 0
          phase := if 2 * s.cfg.deviation ≤ absDiff (s.rxAt h).profile.high (s.rxAt h).profile.low then .idle
                   else .errorDefinitions }).replied .ok 0 [] [])) ∧
    (¬s.rxActive h → exec (.rxReset h) s = .next (s.replied .notInitialized 0 [] []))

/-- R183: `RX_SET_CHANNEL` stores the low nibble of its operand, unchecked, and stops nothing; with 0 stored the next
`RX_LISTEN` fails with `InvalidChannel`, where no earlier check of R180 fails. -/
def Obligations.RxSetChannelRule : Prop :=
  Encodes 0x26 (fun w => .rxSetChannel (handleField w) (lowA w)) ∧
  ∀ (h : Handle) (channel : Byte) (s : State),
    (s.rxActive h → exec (.rxSetChannel h channel) s = .next
      ((s.setRx h { s.rxAt h with channel := BitVec.ofNat 4 (channel.toNat % 16) }).replied .ok 0 [] [])) ∧
    (¬s.rxActive h → exec (.rxSetChannel h channel) s = .next (s.replied .notInitialized 0 [] [])) ∧
    (s.rxActive h → (s.rxAt h).phase ≠ .errorOverflow → (s.rxAt h).phase ≠ .errorDefinitions →
      (s.rxAt h).address ≠ 0 → channel.toNat % 16 = 0 →
      ∃ t, exec (.rxSetChannel h channel) s = .next t ∧
        exec (.rxListen h) t = .next (t.replied .invalidChannel 0 [] []))

/-- R184: `RX_GET_STATE` answers the phase code and changes nothing; the code is never 2, `Validating`. -/
def Obligations.RxGetStateRule : Prop :=
  Encodes 0x28 (fun w => .rxGetState (handleField w)) ∧
  ∀ (h : Handle) (s : State),
    (s.rxActive h → exec (.rxGetState h) s = .next (s.replied .ok
      (match (s.rxAt h).phase with
        | .idle => 0 | .listening => 1 | .validating => 2 | .messageReady => 3 | .errorOverflow => 4
        | .errorDefinitions => 5) [] [])) ∧
    (¬s.rxActive h → exec (.rxGetState h) s = .next (s.replied .notInitialized 0 [] [])) ∧
    (StateOk s → (s.rxAt h).phase ≠ .validating)

/-- R185, R186: in `MessageReady` the message read-out answers the length byte and, for `RX_GET_MESSAGE`, that many
bytes from offset 2, never more than `MAX_PAYLOAD`; in every other phase both answer `Rejected`. Neither changes anything. -/
def Obligations.RxReadOutRule : Prop :=
  Encodes 0x29 (fun w => .rxGetMessage (handleField w)) ∧
  Encodes 0x2A (fun w => .rxGetMessageLength (handleField w)) ∧
  ∀ (h : Handle) (s : State),
    let buf := (s.rxAt h).buf
    let n := (bufByte s.cfg buf 1).toNat
    (s.rxActive h → (s.rxAt h).phase = .messageReady →
      exec (.rxGetMessage h) s = .next (s.replied .ok n ((List.range n).map fun i => bufByte s.cfg buf (2 + i)) []) ∧
      exec (.rxGetMessageLength h) s = .next (s.replied .ok n [] [])) ∧
    (s.rxActive h → (s.rxAt h).phase ≠ .messageReady →
      exec (.rxGetMessage h) s = .next (s.replied .rejected 0 [] []) ∧
      exec (.rxGetMessageLength h) s = .next (s.replied .rejected 0 [] [])) ∧
    (¬s.rxActive h →
      exec (.rxGetMessage h) s = .next (s.replied .notInitialized 0 [] []) ∧
      exec (.rxGetMessageLength h) s = .next (s.replied .notInitialized 0 [] [])) ∧
    (StateOk s → (s.rxAt h).phase = .messageReady → n ≤ s.cfg.maxPayload)

/-- R187: `RX_CLEAR_BUFFER` in `MessageReady` zeroes every byte of the buffer (33 by R8) and listens again, the edge
tracker untouched; in every other phase it changes nothing. -/
def Obligations.RxClearBufferRule : Prop :=
  Encodes 0x2B (fun w => .rxClearBuffer (handleField w)) ∧
  ∀ (h : Handle) (s : State),
    (s.rxActive h → (s.rxAt h).phase = .messageReady →
      ∃ buf : Memory, (∀ i < s.cfg.bufCap, bufByte s.cfg buf i = 0) ∧
        exec (.rxClearBuffer h) s = .next
          ((s.setRx h { s.rxAt h with buf := buf, bufLen := 0, bitCursor := 7, phase := .listening }).replied
            .ok 1 [] [])) ∧
    (s.rxActive h → (s.rxAt h).phase ≠ .messageReady →
      exec (.rxClearBuffer h) s = .next (s.replied .rejected 0 [] [])) ∧
    (¬s.rxActive h → exec (.rxClearBuffer h) s = .next (s.replied .notInitialized 0 [] []))

/-- R203: storing a bit. The capacity, `BUF_CAP` (the rule's 33, R8), is checked first; otherwise one bit of the byte
being filled is set or cleared, every other bit of the buffer is kept, and the cursor moves, to the next byte after bit
0. -/
def Obligations.StoreBitRule : Prop :=
  ∀ (c : Cfg) (r : RxContext) (b : Bool),
    (c.bufCap ≤ r.bufLen → storeBit c r b = { r with phase := .errorOverflow }) ∧
    (r.bufLen < c.bufCap → ∃ buf : Memory,
      (∀ i < c.bufCap, ∀ j : Fin 8, bitOf (bufByte c buf i) j =
        if i = r.bufLen ∧ j = r.bitCursor then b else bitOf (bufByte c r.buf i) j) ∧
      (r.bitCursor = 0 → storeBit c r b = { r with buf := buf, bitCursor := 7, bufLen := r.bufLen + 1 }) ∧
      (r.bitCursor ≠ 0 → storeBit c r b = { r with buf := buf, bitCursor := r.bitCursor - 1 }))

/-- R201 with R200: the interval classifier. START before ONE before ZERO, both samples within the closed tolerance
window of both durations, and a pair that matches none changes nothing. -/
def Obligations.ClassifyPairRule : Prop :=
  ∀ (c : Cfg) (r : RxContext),
    let near := fun x ref => absDiff x ref ≤ c.deviation
    let p := r.profile
    let start := near r.sampleHigh p.startHigh ∧ near r.sampleLow p.startLow
    let one := near r.sampleHigh p.high ∧ near r.sampleLow p.low
    let zero := near r.sampleHigh p.low ∧ near r.sampleLow p.high
    (start → classifyPair c r = { r with
      bufLen := 0, bitCursor := 7, phase := if r.phase = .messageReady then .listening else r.phase }) ∧
    (¬start → one → classifyPair c r = storeBit c r true) ∧
    (¬start → ¬one → zero → classifyPair c r = storeBit c r false) ∧
    (¬start → ¬one → ¬zero → classifyPair c r = r)

/-- R197: the time-out. A pending HIGH sample near `high` stores a ONE, else near `low` a ZERO, else no bit; only a
receiver that is still `Listening` then validates, to `MessageReady` or to a discarded frame; with nothing pending only
the edge tracker is reset. `prev_level` is kept in every case. -/
def Obligations.TimeoutRule : Prop :=
  ∀ (c : Cfg) (r : RxContext),
    let near := fun ref => absDiff r.sampleHigh ref ≤ c.deviation
    let idle := fun q : RxContext =>
      { q with elapsed := 0, found := false, pending := false, sampleHigh := 0, sampleLow := 0 }
    let stored := if near r.profile.high then storeBit c r true
      else if near r.profile.low then storeBit c r false else r
    (r.pending = false → timeout c r = idle r) ∧
    (r.pending = true → stored.phase ≠ .listening → timeout c r = idle stored) ∧
    (r.pending = true → stored.phase = .listening → frameOk c stored = true →
      timeout c r = idle { stored with phase := .messageReady }) ∧
    (r.pending = true → stored.phase = .listening → frameOk c stored = false →
      timeout c r = idle { stored with phase := .listening, bufLen := 0, bitCursor := 7 })

/-- R198: transition detection. No level change, a first edge, a falling edge, and a rising edge with and without a
pending HIGH sample. -/
def Obligations.EdgeDetectionRule : Prop :=
  ∀ (c : Cfg) (lvl : Level) (r : RxContext),
    (lvl = r.prevLevel → detect c lvl r = r) ∧
    (lvl ≠ r.prevLevel → r.found = false →
      detect c lvl r = { r with prevLevel := lvl, found := true, elapsed := 0 }) ∧
    (lvl ≠ r.prevLevel → r.found = true → lvl = .low →
      detect c lvl r = { r with prevLevel := .low, sampleHigh := r.elapsed, elapsed := 0, pending := true }) ∧
    (lvl ≠ r.prevLevel → r.found = true → lvl = .high → r.pending = false →
      detect c lvl r = { r with prevLevel := .high, sampleLow := r.elapsed, elapsed := 0 }) ∧
    (lvl ≠ r.prevLevel → r.found = true → lvl = .high → r.pending = true →
      detect c lvl r = classifyPair c
        { r with prevLevel := .high, sampleLow := r.elapsed, elapsed := 0, pending := false })

/-- R196: the order of a receiver's tick. Outside `Listening` and `MessageReady` nothing happens; else the tick is
added, a due time-out is taken first, and the edge is looked for unless the time-out overflowed the buffer. -/
def Obligations.ReceiverTickOrder : Prop :=
  ∀ (c : Cfg) (lvl : Level) (r : RxContext),
    let on := fun q : RxContext => q.phase = .listening ∨ q.phase = .messageReady
    let r₁ := { r with elapsed := r.elapsed + c.tick }
    (¬on r → rxTick c lvl r = r) ∧
    (on r → r₁.elapsed < c.elapsedMax → rxTick c lvl r = detect c lvl r₁) ∧
    (on r → c.elapsedMax ≤ r₁.elapsed → on (timeout c r₁) → rxTick c lvl r = detect c lvl (timeout c r₁)) ∧
    (on r → c.elapsedMax ≤ r₁.elapsed → ¬on (timeout c r₁) → rxTick c lvl r = timeout c r₁)

/-- R209, R212 for a tick: `MessageReady` is ended by a START pair, completed by a rising edge before the time-out (to
`Listening`), and by a bit, of a pair or of a lone pulse at the time-out, that comes while the buffer is full (to
`ErrorOverflow`); by nothing else, a time-out included, and until then the message stays byte for byte. -/
def Obligations.ReadyMessageStable : Prop :=
  ∀ (c : Cfg) (lvl : Level) (r : RxContext), RxOk c r → r.phase = .messageReady →
    let q := rxTick c lvl r
    let length := (bufByte c r.buf 1).toNat + 3
    let near := fun x ref => absDiff x ref ≤ c.deviation
    let p := r.profile
    let sh := r.sampleHigh
    let sl := r.elapsed + c.tick
    let pair := r.pending = true ∧ sl < c.elapsedMax ∧ lvl = .high
    let lone := r.pending = true ∧ c.elapsedMax ≤ sl
    let start := pair ∧ near sh p.startHigh ∧ near sl p.startLow
    let bit := (pair ∧ ¬start ∧ (near sh p.high ∧ near sl p.low ∨ near sh p.low ∧ near sl p.high)) ∨
      (lone ∧ (near sh p.high ∨ near sh p.low))
    let full := bit ∧ r.bufLen = c.bufCap
    (start → q.phase = .listening ∧ q.bufLen = 0 ∧ q.bitCursor = 7) ∧
    (full → q.phase = .errorOverflow) ∧
    (¬start → ¬full → q.phase = .messageReady ∧ bufSlice c q.buf 0 length = bufSlice c r.buf 0 length)

/-- R204 with R123 and R213: what a `Listening` receiver makes of a START and the symbols of `n` bytes, 3 to `BUF_CAP`,
whatever their lengths within tolerance as long as they are unambiguous, on a line that then stays `LOW` for the
time-out. The last bit is read from its HIGH half alone, so a last ZERO must not be near `high` in that half. The bytes
are in its buffer; if they are the frame of a payload for its address and channel it is in `MessageReady` with `buf_len`
`n`, and if they are not it is `Listening` with nothing received. For a receiver whose stored channel is 0 the model
follows R122 and R183 (log 22). -/
def Obligations.FrameReception : Prop :=
  ∀ (c : Cfg) (r : RxContext) (bytes : List Byte) (start last : Nat × Nat) (symbols : List (Nat × Nat)) (quiet : Nat),
    validCfg c → Waiting r → 3 ≤ bytes.length → bytes.length ≤ c.bufCap → timeoutTicks c ≤ quiet →
    Measured c r.profile.startHigh r.profile.startLow start →
    List.Forall₂ (MeasuredBit c r.profile) (wireBits bytes) (symbols ++ [last]) →
    ((wireBits bytes).getLast? = some false → c.deviation < absDiff (last.1 * c.tick) r.profile.high) →
    let q := rxAfter c ((start :: symbols ++ [last]).flatMap symbolWave ++ List.replicate quiet .low) r
    let ours := ∃ payload : List Byte, payload.length ≤ c.maxPayload ∧
      bytes = frameBytes r.address r.channel payload
    bufSlice c q.buf 0 bytes.length = bytes ∧
    (ours → q.phase = .messageReady ∧ q.bufLen = bytes.length) ∧
    (¬ours → q.phase = .listening ∧ q.bufLen = 0 ∧ q.bitCursor = 7)

/-- R322: what the protocol guarantees. A transmitter and a `Listening` receiver with an idle edge tracker, of one
engine and on one line, same profile meeting R319 and R320, `id` = `address`, same non-zero channel, no other
transmitter sending on the line: after `TX_SEND` and the ticks R331 counts, and no other command, the receiver is in
`MessageReady` and its message is the payload, byte for byte. -/
def Obligations.LoopbackDelivers : Prop :=
  ∀ (s : State) (a b : Handle) (length : Nat),
    StateOk s → s.txActive a → s.rxActive b →
    (s.rxAt b).pin = (s.txAt a).pin → (s.rxAt b).profile = (s.txAt a).profile →
    (s.rxAt b).address = (s.txAt a).id → (s.rxAt b).channel = (s.txAt a).channel → (s.txAt a).channel ≠ 0 →
    (∀ k ∈ s.txReg.live, k ≠ a → (s.txAt k).pin = (s.txAt a).pin → (s.txAt k).phase ≠ .sending) →
    length ≤ s.cfg.maxPayload → Waiting (s.rxAt b) → Decodable s.cfg (s.txAt a).profile →
    let payload := s.payloadPort.toList.take length
    let p := (s.txAt a).profile
    let k := halfTicks s.cfg
    let lastLow := if bitOf (checksum payload) 0 then k p.low else k p.high
    ∃ s₁ s₂ s₃, exec (.txSend a length) s = .next s₁ ∧
      ticks (k p.startHigh + k p.startLow + 8 * (length + 3) * (k p.high + k p.low) - lastLow + 1 +
        timeoutTicks s.cfg) s₁ = .next s₂ ∧
      (s₂.rxAt b).phase = .messageReady ∧ exec (.rxGetMessage b) s₂ = .next s₃ ∧
      s₃.out.response = some ⟨.ok, BitVec.ofNat 16 length, payload⟩

/-! ## Registry -/

/-- R231: `TX_ATTACH`, its checks in order and both results of admission. -/
def Obligations.TxAttachRule : Prop :=
  Encodes 0x10 (fun w => .txAttach (handleField w) (lowA w)) ∧
  ∀ (h : Handle) (pin : Pin) (s : State),
    let fresh := fun (life : Life) =>
      { TxContext.fresh s.cfg with
        life := life, pin := pin
        phase := if 2 * s.cfg.deviation ≤ absDiff s.cfg.defaultHigh s.cfg.defaultLow then TxPhase.idle else TxPhase.errorDefinitions }
    (s.cfg.nTxCtx ≤ h.toNat → exec (.txAttach h pin) s = .next (s.replied .notInitialized 0 [] [])) ∧
    (h.toNat < s.cfg.nTxCtx → (s.txAt h).life ≠ .free →
      exec (.txAttach h pin) s = .next (s.replied .rejected 0 [] [])) ∧
    (h.toNat < s.cfg.nTxCtx → (s.txAt h).life = .free → s.cfg.maxTransmitters ≤ s.txReg.count.val →
      exec (.txAttach h pin) s = .next ((s.setTx h (fresh .inert)).replied .rejected 0 [] [])) ∧
    (validCfg s.cfg → h.toNat < s.cfg.nTxCtx → (s.txAt h).life = .free →
      s.txReg.count.val < s.cfg.maxTransmitters →
      ∃ reg : Registry,
        reg.count.val = s.txReg.count.val + 1 ∧ reg.live = s.txReg.live ++ [h] ∧
        exec (.txAttach h pin) s = .next
          ((({ s with txReg := reg }).setTx h (fresh .active)).setLine pin .low |>.replied .ok
            (s.txReg.count.val + 1) [] [.pinConfigure pin .output, .pinWrite pin .low]))

/-- R235: `RX_ATTACH`, its checks in order and both results of admission. -/
def Obligations.RxAttachRule : Prop :=
  Encodes 0x20 (fun w => .rxAttach (handleField w) (lowA w) (lowB w)) ∧
  ∀ (h : Handle) (pin : Pin) (address : Byte) (s : State),
    let nibble : Nibble := BitVec.ofNat 4 (address.toNat % 16)
    let fresh := fun (life : Life) =>
      { RxContext.fresh s.cfg with
        life := life, pin := pin, address := nibble
        phase := if 2 * s.cfg.deviation ≤ absDiff s.cfg.defaultHigh s.cfg.defaultLow then RxPhase.idle else RxPhase.errorDefinitions }
    (s.cfg.nRxCtx ≤ h.toNat → exec (.rxAttach h pin address) s = .next (s.replied .notInitialized 0 [] [])) ∧
    (h.toNat < s.cfg.nRxCtx → (s.rxAt h).life ≠ .free →
      exec (.rxAttach h pin address) s = .next (s.replied .rejected 0 [] [])) ∧
    (h.toNat < s.cfg.nRxCtx → (s.rxAt h).life = .free → nibble = 0 →
      exec (.rxAttach h pin address) s = .next (s.replied .invalidAddress 0 [] [])) ∧
    (h.toNat < s.cfg.nRxCtx → (s.rxAt h).life = .free → nibble ≠ 0 → s.cfg.maxReceivers ≤ s.rxReg.count.val →
      exec (.rxAttach h pin address) s = .next ((s.setRx h (fresh .inert)).replied .rejected 0 [] [])) ∧
    (validCfg s.cfg → h.toNat < s.cfg.nRxCtx → (s.rxAt h).life = .free → nibble ≠ 0 →
      s.rxReg.count.val < s.cfg.maxReceivers →
      ∃ reg : Registry,
        reg.count.val = s.rxReg.count.val + 1 ∧ reg.live = s.rxReg.live ++ [h] ∧
        exec (.rxAttach h pin address) s = .next
          ((({ s with rxReg := reg }).setRx h (fresh .active)).replied .ok
            (s.rxReg.count.val + 1) [] [.pinConfigure pin .input]))

/-- R232: `TX_DETACH` of an active, an inert and a missing instance. -/
def Obligations.TxDetachRule : Prop :=
  Encodes 0x11 (fun w => .txDetach (handleField w)) ∧
  ∀ (h : Handle) (s : State),
    let t := s.txAt h
    (s.cfg.nTxCtx ≤ h.toNat ∨ t.life = .free → exec (.txDetach h) s = .next (s.replied .notInitialized 0 [] [])) ∧
    (h.toNat < s.cfg.nTxCtx → t.life = .inert →
      exec (.txDetach h) s = .next ((s.setTx h { t with life := .free }).replied .ok 0 [] [])) ∧
    (s.txActive h →
      exec (.txDetach h) s = .next
        (((({ s with txReg := (s.txReg.remove h).1 }).setTx h { t with
            life := .free
            phase := if t.phase = TxPhase.errorDefinitions then TxPhase.errorDefinitions else TxPhase.idle }).setLine t.pin .low).replied
          .ok (if h ∈ s.txReg.live then 1 else 0) [] [.pinWrite t.pin .low]))

/-- R236: `RX_DETACH` of an active, an inert and a missing instance. -/
def Obligations.RxDetachRule : Prop :=
  Encodes 0x21 (fun w => .rxDetach (handleField w)) ∧
  ∀ (h : Handle) (s : State),
    let r := s.rxAt h
    (s.cfg.nRxCtx ≤ h.toNat ∨ r.life = .free → exec (.rxDetach h) s = .next (s.replied .notInitialized 0 [] [])) ∧
    (h.toNat < s.cfg.nRxCtx → r.life = .inert →
      exec (.rxDetach h) s = .next ((s.setRx h { r with life := .free }).replied .ok 0 [] [])) ∧
    (s.rxActive h →
      exec (.rxDetach h) s = .next
        ((({ s with rxReg := (s.rxReg.remove h).1 }).setRx h { r with
            life := .free
            phase := match r.phase with
              | .errorOverflow => RxPhase.errorOverflow
              | .errorDefinitions => RxPhase.errorDefinitions
              | _ => RxPhase.idle }).replied
          .ok (if h ∈ s.rxReg.live then 1 else 0) [] []))

/-- R237: admission appends the handle and answers the new count, or, with the registry full, writes nothing and
answers 0. -/
def Obligations.RegistryAdmission : Prop :=
  ∀ (cap : Nat) (g : Registry) (h : Handle), cap ≤ Config.registrySlots →
    (g.count.val < cap → (g.add cap h).1.live = g.live ++ [h] ∧ (g.add cap h).2 = g.live.length + 1) ∧
    (cap ≤ g.count.val → g.add cap h = (g, 0))

/-- R238: eviction relocates the last entry into the removed slot, or drops the last slot, and answers 1; a handle that
is not registered leaves the registry as it is and answers 0. -/
def Obligations.RegistryEviction : Prop :=
  ∀ (g : Registry) (h : Handle),
    (∀ (before after : List Handle) (last : Handle), h ∉ before → g.live = before ++ h :: (after ++ [last]) →
      (g.remove h).1.live = before ++ last :: after ∧ (g.remove h).2 = 1) ∧
    (∀ before : List Handle, h ∉ before → g.live = before ++ [h] →
      (g.remove h).1.live = before ∧ (g.remove h).2 = 1) ∧
    (h ∉ g.live → g.remove h = (g, 0))

/-! ## Scheduler -/

/-- R252 corner case (1): a tick before the tick source was started does nothing, and has no response. -/
def Obligations.TickIgnoredBeforeStart : Prop :=
  ∀ s : State, s.tickRunning = false → exec .tick s = .next { s with out := Output.none }

/-- R252, R253, R256: a tick advances every registered transmitter once and every registered receiver once, no other
context, and nothing else of the engine; every receiver sees the line as all transmitters left it, no line changes but
those a registered transmitter writes, and the events of the tick are those writes in registry order (R14, R45). -/
def Obligations.TickAdvancesEachOnce : Prop :=
  ∀ s : State, s.tickRunning = true → s.txReg.live.Nodup → s.rxReg.live.Nodup →
    ∃ t, exec .tick s = .next t ∧
      (∀ h ∈ s.txReg.live, t.txAt h = (txTick s.cfg (s.txAt h)).1) ∧
      (∀ h, h ∉ s.txReg.live → t.txAt h = s.txAt h) ∧
      (∀ h ∈ s.rxReg.live, t.rxAt h = rxTick s.cfg (t.lineAt (s.rxAt h).pin) (s.rxAt h)) ∧
      (∀ h, h ∉ s.rxReg.live → t.rxAt h = s.rxAt h) ∧
      (∀ p, (∀ h ∈ s.txReg.live, (s.txAt h).pin = p → (s.txAt h).phase ≠ .sending) → t.lineAt p = s.lineAt p) ∧
      t.cfg = s.cfg ∧ t.tickRunning = true ∧ t.txReg = s.txReg ∧ t.rxReg = s.rxReg ∧
      t.payloadPort = s.payloadPort ∧ t.inputs = s.inputs ∧ t.out.response = none ∧
      t.out.events = s.txReg.live.flatMap fun h => (txTick s.cfg (s.txAt h)).2.map (Event.pinWrite (s.txAt h).pin)

/-- R70: "the line holds the last write in registry order". After a tick the line of a sending transmitter that no
later one in registry order sends on holds the level of that transmitter's half. -/
def Obligations.LastWriterHoldsLine : Prop :=
  ∀ (s : State) (before after : List Handle) (h : Handle),
    s.tickRunning = true → s.txReg.live.Nodup → s.txReg.live = before ++ h :: after →
    (s.txAt h).phase = .sending →
    (∀ k ∈ after, (s.txAt k).pin = (s.txAt h).pin → (s.txAt k).phase ≠ .sending) →
    ∃ t, exec .tick s = .next t ∧ t.lineAt (s.txAt h).pin = (s.txAt h).half

/-- R233: "receiver order is unobservable". Two states that differ only in the order of the registered receivers are
taken by a tick to states that differ only in that order. -/
def Obligations.ReceiverOrderUnobservable : Prop :=
  ∀ (s : State) (g : Registry), s.rxReg.live.Nodup → g.live.Perm s.rxReg.live →
    ∃ t, exec .tick s = .next t ∧ exec .tick { s with rxReg := g } = .next { t with rxReg := g }

/-- R251: `tick_running` is never cleared by a command or a tick, and `TickStart` is emitted exactly by what sets it,
with the tick interval. -/
def Obligations.TickSourceStartedOnce : Prop :=
  ∀ (i : Instr) (s t : State), exec i s = .next t →
    (s.tickRunning = true → t.tickRunning = true) ∧
    ∀ n, Event.tickStart n ∈ t.out.events ↔ s.tickRunning = false ∧ t.tickRunning = true ∧ n = s.cfg.tick

/-! ## Fatal phases and isolation -/

/-- R269: "Exit: `RX_RESET` only". No other command, and no tick, takes an active receiver out of `ErrorOverflow`. -/
def Obligations.OverflowLeftOnlyByReset : Prop :=
  ∀ (i : Instr) (s t : State) (h : Handle), exec i s = .next t → (s.rxAt h).life = .active →
    (s.rxAt h).phase = .errorOverflow → (t.rxAt h).phase ≠ .errorOverflow → i = .rxReset h

/-- R270: `ErrorDefinitions` of an active instance is left only by a `*_SET_INTERVAL` that stores a separated
profile. -/
def Obligations.DefinitionsLeftOnlyBySetInterval : Prop :=
  ∀ (i : Instr) (s t : State) (h : Handle), StateOk s → exec i s = .next t →
    ((s.txAt h).life = .active → (s.txAt h).phase = .errorDefinitions → (t.txAt h).phase ≠ .errorDefinitions →
      (∃ high low, i = .txSetInterval h high low) ∧
        2 * s.cfg.deviation ≤ absDiff (t.txAt h).profile.high (t.txAt h).profile.low) ∧
    ((s.rxAt h).life = .active → (s.rxAt h).phase = .errorDefinitions → (t.rxAt h).phase ≠ .errorDefinitions →
      (∃ high low, i = .rxSetInterval h high low) ∧
        2 * s.cfg.deviation ≤ absDiff (t.rxAt h).profile.high (t.rxAt h).profile.low)

/-- R25, R26: the pin of an instance and the address of a receiver are fixed from attach on: nothing changes them while
the context is in use. -/
def Obligations.PinAndAddressImmutable : Prop :=
  ∀ (i : Instr) (s t : State) (h : Handle), exec i s = .next t →
    ((s.txAt h).life ≠ .free → (t.txAt h).pin = (s.txAt h).pin) ∧
    ((s.rxAt h).life ≠ .free → (t.rxAt h).pin = (s.rxAt h).pin ∧ (t.rxAt h).address = (s.rxAt h).address)

/-- R239, R73 (5): a command writes no context but the one it addresses, and a line only if it addresses a transmitter
on it. -/
def Obligations.CommandTouchesOnlyItsContext : Prop :=
  ∀ (i : Instr) (s t : State), i ≠ .tick → exec i s = .next t →
    (∀ k, txTarget i ≠ some k → t.txAt k = s.txAt k) ∧
    (∀ k, rxTarget i ≠ some k → t.rxAt k = s.rxAt k) ∧
    (∀ p, t.lineAt p ≠ s.lineAt p → ∃ k, txTarget i = some k ∧ (t.txAt k).pin = p) ∧
    t.payloadPort = s.payloadPort ∧ t.inputs = s.inputs ∧ t.cfg = s.cfg

/-- R67: the four read commands change nothing but the outputs, and a second one answers the same. -/
def Obligations.ReadsHaveNoSideEffects : Prop :=
  ∀ (i : Instr) (h : Handle) (s : State),
    i = .txGetState h ∨ i = .rxGetState h ∨ i = .rxGetMessage h ∨ i = .rxGetMessageLength h →
    ∃ o : Output, o.events = [] ∧ exec i s = .next { s with out := o } ∧
      exec i { s with out := o } = .next { s with out := o }
end

