-- ==== Sys2Proof/Laws/Bits.lean ====
section
/-! SUPPORT. Laws of the bit helpers: single bits, nibbles, the header byte, and the fields of a packed word. -/

namespace Sys2Proof.Machine

/-- The bit put is read back, and the other seven are kept (R66). -/
theorem bitOf_putBit (b : Byte) (i j : Fin 8) (v : Bool) : bitOf (putBit b i v) j = if j = i then v else bitOf b j := by
  have hs : (1#8 <<< i.val).getLsbD j.val = decide (j = i) := by revert i j; decide
  unfold bitOf putBit
  cases v
  · simp only [Bool.false_eq_true, if_false, BitVec.getLsbD_and, BitVec.getLsbD_not, hs]
    by_cases h : j = i <;> simp [h]
  · simp only [if_true, BitVec.getLsbD_or, hs]
    by_cases h : j = i <;> simp [h]

/-- A byte is its eight bits. -/
theorem byte_ext {a b : Byte} (h : ∀ i, bitOf a i = bitOf b i) : a = b :=
  BitVec.eq_of_getLsbD_eq fun i hi => h ⟨i, hi⟩

@[simp] theorem highNibble_headerByte (id channel : Nibble) : highNibble (headerByte id channel) = id := by
  revert id channel; decide

@[simp] theorem lowNibble_headerByte (id channel : Nibble) : lowNibble (headerByte id channel) = channel := by
  revert id channel; decide

/-- A header byte is determined by its two nibbles (R91). -/
theorem headerByte_nibbles (b : Byte) : headerByte (highNibble b) (lowNibble b) = b := by
  revert b; decide

@[simp] theorem nextBit_zero : nextBit 0 = 7 := rfl
theorem nextBit_val {i : Fin 8} (h : i ≠ 0) : (nextBit i).val = i.val - 1 := by
  revert i; decide
theorem nextByte_zero (n : Nat) : nextByte n 0 = n + 1 := rfl
theorem nextByte_ne {n : Nat} {i : Fin 8} (h : i ≠ 0) : nextByte n i = n := by simp [nextByte, h]

@[simp] theorem frameBytes_length (id channel : Nibble) (payload : List Byte) :
    (frameBytes id channel payload).length = payload.length + 3 := by simp [frameBytes]

theorem checksum_append (a b : List Byte) : checksum (a ++ b) = checksum a + checksum b := by
  induction a with
  | nil => simp [checksum]
  | cons x a ih => rw [List.cons_append, checksum, ih, checksum, BitVec.add_assoc]

end Sys2Proof.Machine

namespace Sys2Proof

section Fields
variable (op : Byte) (h : Handle) (a b : BitVec 16)

theorem packWord_toNat : (packWord op h a b).toNat =
    op.toNat * 2 ^ 40 + h.toNat * 2 ^ 32 + a.toNat * 2 ^ 16 + b.toNat := by
  have h1 := op.isLt
  have h2 := h.isLt
  have h3 := a.isLt
  have h4 := b.isLt
  unfold packWord
  simp only [BitVec.toNat_append, Nat.shiftLeft_eq]
  rw [Nat.mul_comm _ (2 ^ 8), Nat.mul_comm _ (2 ^ 16), Nat.mul_comm _ (2 ^ 16), ← Nat.two_pow_add_eq_or_of_lt h2,
    ← Nat.two_pow_add_eq_or_of_lt h3, ← Nat.two_pow_add_eq_or_of_lt h4]
  omega

@[simp] theorem opcodeField_packWord : opcodeField (packWord op h a b) = op := by
  apply BitVec.eq_of_toNat_eq
  have h2 := h.isLt
  have h3 := a.isLt
  have h4 := b.isLt
  simp only [opcodeField, BitVec.extractLsb'_toNat, packWord_toNat, Nat.shiftRight_eq_div_pow]
  omega

@[simp] theorem handleField_packWord : handleField (packWord op h a b) = h := by
  apply BitVec.eq_of_toNat_eq
  have h2 := h.isLt
  have h3 := a.isLt
  have h4 := b.isLt
  simp only [handleField, BitVec.extractLsb'_toNat, packWord_toNat, Nat.shiftRight_eq_div_pow]
  omega

@[simp] theorem fieldA_packWord : fieldA (packWord op h a b) = a.toNat := by
  have h3 := a.isLt
  have h4 := b.isLt
  simp only [fieldA, BitVec.extractLsb'_toNat, packWord_toNat, Nat.shiftRight_eq_div_pow]
  omega

@[simp] theorem fieldB_packWord : fieldB (packWord op h a b) = b.toNat := by
  have h4 := b.isLt
  simp only [fieldB, BitVec.extractLsb'_toNat, packWord_toNat, Nat.shiftRight_eq_div_pow]
  omega

@[simp] theorem lowA_packWord : lowA (packWord op h a b) = a.setWidth 8 := by
  apply BitVec.eq_of_toNat_eq
  have h4 := b.isLt
  simp only [lowA, BitVec.extractLsb'_toNat, packWord_toNat, Nat.shiftRight_eq_div_pow, BitVec.toNat_setWidth]
  omega

@[simp] theorem lowB_packWord : lowB (packWord op h a b) = b.setWidth 8 := by
  apply BitVec.eq_of_toNat_eq
  simp only [lowB, BitVec.extractLsb'_toNat, packWord_toNat, Nat.shiftRight_eq_div_pow, BitVec.toNat_setWidth]
  omega

end Fields

@[simp] theorem byteField_setWidth (b : Byte) : (byteField b).setWidth 8 = b := by
  simp [byteField]

end Sys2Proof
end

