-- ==== Sys2Proof/Laws/Buffers.lean ====
section
/-! SUPPORT. Laws of the buffers: read after write, the canonical form kept by every operation, and equal contents
being equal data. -/

namespace Sys2Proof.Machine

variable {c : Cfg}

@[simp] theorem Memory.read_nil (i : Nat) : Memory.read [] i = 0 := rfl

theorem Memory.read_cons (cell : Host.Cell) (m : Memory) (i : Nat) :
    Memory.read (cell :: m) i = if cell.1 = i then cell.2 else Memory.read m i := rfl

theorem Memory.erase_cons (cell : Host.Cell) (m : Memory) (i : Nat) :
    Memory.erase (cell :: m) i = if cell.1 = i then Memory.erase m i else cell :: Memory.erase m i := by
  by_cases h : cell.1 = i <;> simp [Memory.erase, h]

theorem Memory.read_erase (m : Memory) (i j : Nat) : (m.erase i).read j = if j = i then 0 else m.read j := by
  induction m with
  | nil => simp [Memory.erase]
  | cons d m ih =>
    rw [erase_cons, read_cons]
    by_cases hd : d.1 = i <;> by_cases hj : d.1 = j <;> by_cases hij : j = i <;> simp_all [read_cons]

/-- Before an inserted cell of another offset nothing is seen of it; at its own offset it is seen if no other is. -/
theorem Memory.read_insert (cell : Host.Cell) (m : Memory) (j : Nat) (h : ∀ d ∈ m, d.1 ≠ cell.1) :
    (Memory.insert cell m).read j = if j = cell.1 then cell.2 else m.read j := by
  induction m with
  | nil => simp [Memory.insert, read_cons, eq_comm]
  | cons d m ih =>
    have hd : d.1 ≠ cell.1 := h d (by simp)
    have ih := ih fun e he => h e (by simp [he])
    unfold Memory.insert
    split
    · rw [read_cons]
      by_cases hj : cell.1 = j
      · simp [hj]
      · simp [hj, Ne.symm hj]
    · rw [read_cons, read_cons, ih]
      by_cases hj : j = cell.1
      · subst hj; simp [hd]
      · simp [hj]

theorem Memory.erase_offsets (m : Memory) (i : Nat) : ∀ d ∈ m.erase i, d.1 ≠ i := by
  intro d hd
  simpa [Memory.erase] using (List.mem_filter.1 hd).2

/-- A byte read after a write: the value written, or the byte as before at any other offset. -/
theorem Memory.read_write (m : Memory) (i j : Nat) (b : Byte) : (m.write i b).read j = if j = i then b else m.read j := by
  unfold Memory.write
  split
  · rename_i hb
    rw [read_erase, hb]
  · rw [read_insert _ _ _ (m.erase_offsets i), read_erase]
    by_cases hj : j = i <;> simp [hj]

@[simp] theorem Memory.read_write_self (m : Memory) (i : Nat) (b : Byte) : (m.write i b).read i = b := by simp [read_write]

/-- Consecutive bytes read back; every offset outside them reads as before. -/
theorem Memory.read_writeBytes (m : Memory) (i j : Nat) (bs : List Byte) :
    (m.writeBytes i bs).read j = if h : i ≤ j ∧ j < i + bs.length then bs[j - i]'(by omega) else m.read j := by
  induction bs generalizing m i with
  | nil => simp [Memory.writeBytes]
  | cons b bs ih =>
    rw [Memory.writeBytes, ih, read_write]
    by_cases h0 : j = i
    · subst h0
      simp
    · by_cases h1 : i + 1 ≤ j ∧ j < i + 1 + bs.length
      · have h2 : i ≤ j ∧ j < i + (b :: bs).length := by simp; omega
        rw [dif_pos h1, dif_pos h2]
        have h3 : j - i = j - (i + 1) + 1 := by omega
        simp [h3]
      · have h2 : ¬(i ≤ j ∧ j < i + (b :: bs).length) := by simp; omega
        rw [dif_neg h1, dif_neg h2, if_neg h0]

theorem Memory.wf_nil : Memory.wf c [] := by simp [Memory.wf]

theorem Memory.wf_erase {m : Memory} (h : m.wf c) (i : Nat) : (m.erase i).wf c :=
  ⟨h.1.filter _, fun d hd => h.2 d (List.mem_filter.1 hd).1⟩

theorem Memory.mem_insert (cell d : Host.Cell) (m : Memory) : d ∈ Memory.insert cell m ↔ d = cell ∨ d ∈ m := by
  induction m with
  | nil => simp [Memory.insert]
  | cons e m ih =>
    unfold Memory.insert
    split
    · simp
    · simp only [List.mem_cons, ih]
      tauto

theorem Memory.wf_insert {m : Memory} (h : m.wf c) (cell : Host.Cell) (hne : ∀ d ∈ m, d.1 ≠ cell.1)
    (hc : cell.1 < c.bufCap ∧ cell.2 ≠ 0) : (Memory.insert cell m).wf c := by
  refine ⟨?_, fun d hd => ?_⟩
  · have hp := h.1
    clear h
    induction m with
    | nil => simp [Memory.insert]
    | cons e m ih =>
      have he := hne e (by simp)
      obtain ⟨h1, h2⟩ := List.pairwise_cons.1 hp
      unfold Memory.insert
      split
      · rename_i hlt
        refine List.pairwise_cons.2 ⟨fun d hd => ?_, hp⟩
        rcases List.mem_cons.1 hd with rfl | hd
        · exact hlt
        · exact lt_trans hlt (h1 d hd)
      · refine List.pairwise_cons.2 ⟨fun d hd => ?_, ih (fun d hd => hne d (by simp [hd])) h2⟩
        rcases (mem_insert _ _ _).1 hd with rfl | hd
        · omega
        · exact h1 d hd
  · rcases (mem_insert _ _ _).1 hd with rfl | hd
    · exact hc
    · exact h.2 d hd

/-- A write inside the buffer keeps the canonical form. -/
theorem Memory.wf_write {m : Memory} (h : m.wf c) {i : Nat} (hi : i < c.bufCap) (b : Byte) : (m.write i b).wf c := by
  unfold Memory.write
  split
  · exact wf_erase h i
  · exact wf_insert (wf_erase h i) _ (m.erase_offsets i) ⟨hi, by assumption⟩

theorem Memory.wf_writeBytes {m : Memory} (h : m.wf c) {i : Nat} (bs : List Byte) (hi : i + bs.length ≤ c.bufCap) :
    (m.writeBytes i bs).wf c := by
  induction bs generalizing m i with
  | nil => exact h
  | cons b bs ih =>
    simp only [List.length_cons] at hi
    exact ih (wf_write h (by omega) b) (by omega)

theorem Memory.read_of_not_mem (m : Memory) (i : Nat) (h : ∀ d ∈ m, d.1 ≠ i) : m.read i = 0 := by
  induction m with
  | nil => rfl
  | cons d m ih =>
    rw [read_cons, if_neg (h d (by simp))]
    exact ih fun e he => h e (by simp [he])

theorem Memory.read_of_mem {m : Memory} (h : m.wf c) {cell : Host.Cell} (hc : cell ∈ m) : m.read cell.1 = cell.2 := by
  induction m with
  | nil => simp at hc
  | cons d m ih =>
    obtain ⟨h1, h2⟩ := List.pairwise_cons.1 h.1
    rw [read_cons]
    rcases List.mem_cons.1 hc with rfl | hm
    · simp
    · have := h1 cell hm
      rw [if_neg (by omega)]
      exact ih ⟨h2, fun e he => h.2 e (by simp [he])⟩ hm

/-- Canonical buffers of equal contents are equal data. -/
theorem Memory.wf_ext {m n : Memory} (hm : m.wf c) (hn : n.wf c) (h : ∀ i, m.read i = n.read i) : m = n := by
  have key : ∀ {a b : Memory}, a.wf c → b.wf c → (∀ i, a.read i = b.read i) → ∀ d ∈ a, d ∈ b := by
    intro a b ha hb hab e he
    have h1 := read_of_mem ha he
    by_contra heb
    by_cases hex : ∃ d ∈ b, d.1 = e.1
    · obtain ⟨d, hd, hde⟩ := hex
      have h2 := read_of_mem hb hd
      rw [hde, ← hab, h1] at h2
      exact heb (by rwa [show e = d from Prod.ext hde.symm h2])
    · have h3 := read_of_not_mem b e.1 fun d hd h => hex ⟨d, hd, h⟩
      rw [← hab, h1] at h3
      exact (ha.2 e he).2 h3
  have hp : m.Perm n := by
    refine (List.perm_ext_iff_of_nodup ?_ ?_).2 fun d => ⟨key hm hn h d, key hn hm (fun i => (h i).symm) d⟩
    · exact hm.1.imp fun {a b} hlt e => by subst e; omega
    · exact hn.1.imp fun {a b} hlt e => by subst e; omega
  refine hp.eq_of_pairwise (le := fun a b => a.1 < b.1) ?_ hm.1 hn.1
  intro a b _ _ h1 h2
  omega

/-- Every byte of the empty buffer is 0, and it is the only canonical buffer of which that holds. -/
theorem Memory.eq_nil_of_zero {m : Memory} (h : m.wf c) (hz : ∀ i < c.bufCap, m.read i = 0) : m = [] := by
  cases m with
  | nil => rfl
  | cons d m =>
    have := hz d.1 (h.2 d (by simp)).1
    rw [read_cons, if_pos rfl] at this
    exact absurd this (h.2 d (by simp)).2


theorem bufByte_of_lt (m : Memory) {i : Nat} (h : i < c.bufCap) : bufByte c m i = m.read i := by simp [bufByte, h]

@[simp] theorem bufSlice_length (m : Memory) (i n : Nat) : (bufSlice c m i n).length = n := by simp [bufSlice]

theorem bufSlice_getElem (m : Memory) (i n k : Nat) (h : k < (bufSlice c m i n).length) :
    (bufSlice c m i n)[k] = bufByte c m (i + k) := by simp [bufSlice]

/-- A byte of a buffer after one byte of it was written. -/
theorem bufByte_write (m : Memory) {i : Nat} (hi : i < c.bufCap) (j : Nat) (b : Byte) :
    bufByte c (m.write i b) j = if j = i then b else bufByte c m j := by
  unfold bufByte
  rw [Memory.read_write]
  by_cases hj : j = i
  · subst hj; simp [hi]
  · simp [hj]

/-- A slice of a buffer that a write lies outside of is unchanged. -/
theorem bufSlice_congr {m n : Memory} {i k : Nat} (h : ∀ j, i ≤ j → j < i + k → bufByte c m j = bufByte c n j) :
    bufSlice c m i k = bufSlice c n i k := by
  unfold bufSlice
  refine List.map_congr_left fun j hj => h _ (by omega) ?_
  have := List.mem_range.1 hj
  omega

/-- The bytes written from the start of a buffer are its first bytes. -/
theorem bufSlice_writeBytes (m : Memory) (bs : List Byte) (h : bs.length ≤ c.bufCap) :
    bufSlice c (m.writeBytes 0 bs) 0 bs.length = bs := by
  apply List.ext_getElem (by simp)
  intro k h1 h2
  rw [bufSlice_getElem, bufByte_of_lt _ (by omega), Memory.read_writeBytes, dif_pos (by omega)]
  simp

theorem bufSlice_succ (m : Memory) (i n : Nat) : bufSlice c m i (n + 1) = bufSlice c m i n ++ [bufByte c m (i + n)] := by
  simp [bufSlice, List.range_succ]

theorem bufSlice_append (m : Memory) (i a b : Nat) : bufSlice c m i (a + b) = bufSlice c m i a ++ bufSlice c m (i + a) b := by
  induction b with
  | zero => simp [bufSlice]
  | succ b ih => rw [← Nat.add_assoc, bufSlice_succ, ih, bufSlice_succ, List.append_assoc, Nat.add_assoc]

end Sys2Proof.Machine
end

