-- ==== Sys2Proof/Laws/Registries.lean ====
section
/-! SUPPORT. What registry admission and eviction do to the registered handles (R237, R238). -/

namespace Sys2Proof.Machine

variable (r : Registry) (h : Handle)

theorem Registry.live_length : r.live.length = r.count.val := by
  have := r.count.isLt
  simp [Registry.live]
  omega

theorem Registry.live_getElem (i : Nat) (hi : i < r.live.length) :
    r.live[i] = r.slots[i]'(by have := r.count.isLt; rw [Registry.live_length] at hi; omega) := by
  simp [Registry.live]

@[simp] theorem Registry.empty_live : Registry.empty.live = [] := by simp [Registry.live, Registry.empty]

theorem Registry.add_full {cap : Nat} (hc : cap ≤ r.count.val) : r.add cap h = (r, 0) := by
  unfold Registry.add
  rw [dif_neg (by omega)]

/-- Admission appends the handle and answers the new count (R237). -/
theorem Registry.add_live {cap : Nat} (hr : cap ≤ Config.registrySlots) (hc : r.count.val < cap) :
    (r.add cap h).1.live = r.live ++ [h] ∧ (r.add cap h).2 = r.count.val + 1 := by
  have hs : r.count.val < Config.registrySlots := by omega
  unfold Registry.add
  rw [dif_pos ⟨hc, hs⟩]
  refine ⟨?_, rfl⟩
  simp only [Registry.live]
  rw [Vector.toList_set, List.take_add_one, List.take_set_of_le (Nat.le_refl _)]
  simp [hs]

/-- Admission keeps the count within the capacity (R237). -/
theorem Registry.add_count_le {cap : Nat} (hc : r.count.val ≤ cap) : (r.add cap h).1.count.val ≤ cap := by
  unfold Registry.add
  split
  · rename_i hlt
    exact hlt.1
  · exact hc

/-- Eviction lengthens nothing (R238). -/
theorem Registry.remove_count_le : (r.remove h).1.count.val ≤ r.count.val := by
  unfold Registry.remove
  split
  · exact Nat.le_refl _
  · exact Nat.sub_le _ _

theorem Registry.find_none : r.find h = none ↔ h ∉ r.live := by
  unfold Registry.find
  rw [List.find?_eq_none]
  constructor
  · intro hn hm
    obtain ⟨i, hi, e⟩ := List.getElem_of_mem hm
    rw [r.live_getElem] at e
    have hi' := hi
    rw [r.live_length] at hi'
    have hc := r.count.isLt
    have := hn ⟨i, by omega⟩ (List.mem_finRange _)
    simp [hi', e] at this
  · intro hn i _ hi
    simp only [Bool.and_eq_true, decide_eq_true_eq] at hi
    apply hn
    have hl : i.val < r.live.length := by rw [r.live_length]; exact hi.1
    rw [← hi.2]
    have := List.getElem_mem hl
    rwa [r.live_getElem] at this

theorem Registry.find_some {i : Fin Config.registrySlots} (hf : r.find h = some i) : i.val < r.count.val ∧ r.slots[i] = h := by
  have := List.find?_some hf
  simpa using this

/-- The first slot that holds a handle, found by where the handle stands among the registered ones. -/
theorem Registry.find_first {before rest : List Handle} (hb : h ∉ before) (hl : r.live = before ++ h :: rest) :
    ∃ hi, r.find h = some ⟨before.length, hi⟩ := by
  have hlen := r.live_length
  rw [hl] at hlen
  simp only [List.length_append, List.length_cons] at hlen
  have hc := r.count.isLt
  refine ⟨by omega, ?_⟩
  have hself : r.slots[before.length]'(by omega) = h := by
    have hx : before.length < r.live.length := by rw [r.live_length]; omega
    rw [← r.live_getElem _ hx]
    simp [hl]
  cases hf : r.find h with
  | none =>
    rw [r.find_none, hl] at hf
    simp at hf
  | some i =>
    unfold Registry.find at hf
    rw [List.find?_eq_some_iff_getElem] at hf
    obtain ⟨h1, j, hj, h2, h3⟩ := hf
    simp only [Bool.and_eq_true, decide_eq_true_eq] at h1
    simp only [List.getElem_finRange, Fin.cast_mk] at h2
    have hji : j = i.val := by rw [← h2]
    congr 1
    apply Fin.ext
    rcases Nat.lt_trichotomy i.val before.length with hlt | heq | hgt
    · exfalso
      have hx : i.val < r.live.length := by rw [r.live_length]; omega
      have := r.live_getElem i.val hx
      simp only [hl, List.getElem_append_left hlt] at this
      have hm := List.getElem_mem hlt
      rw [this] at hm
      exact hb (h1.2 ▸ hm)
    · exact heq
    · have := h3 before.length (by omega)
      simp [hself] at this
      omega

/-- Eviction of a handle that is not registered changes nothing and answers 0 (R238). -/
theorem Registry.remove_absent (hn : h ∉ r.live) : r.remove h = (r, 0) := by
  unfold Registry.remove
  rw [(r.find_none h).2 hn]

/-- Eviction of a registered handle: the last entry is relocated into its slot, and the answer is 1 (R238). -/
theorem Registry.remove_live {i : Nat} (hi : i < r.live.length) (hh : r.find h = some ⟨i, by
      have := r.count.isLt; rw [Registry.live_length] at hi; omega⟩) :
    (r.remove h).1.live = (r.live.set i (r.live.getLast (by intro e; simp [e] at hi))).dropLast ∧ (r.remove h).2 = 1 := by
  have hc := r.count.isLt
  have hl := hi
  rw [r.live_length] at hl
  unfold Registry.remove
  rw [hh]
  refine ⟨?_, rfl⟩
  apply List.ext_getElem
  · simp [Registry.live]; omega
  · intro k h1 h2
    have hk : k < r.count.val - 1 := by
      simp only [List.length_dropLast, List.length_set, r.live_length] at h2
      exact h2
    have hk' : k < r.live.length := by rw [r.live_length]; omega
    rw [Registry.live_getElem, List.getElem_dropLast, List.getElem_set, r.live_getElem k hk', List.getLast_eq_getElem,
      r.live_getElem]
    by_cases he : i = r.count.val - 1
    · have : i ≠ k := by omega
      simp [he, show r.count.val - 1 ≠ k by omega]
    · simp only [he, if_false]
      rw [Vector.getElem_set]
      simp [r.live_length]

/-- What eviction leaves: every registered handle but the evicted one, each once. -/
theorem Registry.remove_mem (hd : r.live.Nodup) (k : Handle) :
    k ∈ (r.remove h).1.live ↔ k ∈ r.live ∧ k ≠ h := by
  by_cases hm : h ∈ r.live
  · cases hf : r.find h with
    | none => exact absurd hm ((r.find_none h).1 hf)
    | some i =>
      obtain ⟨hi, he⟩ := r.find_some h hf
      have hil : i.val < r.live.length := by rw [r.live_length]; exact hi
      have hli : r.live[i.val] = h := by rw [r.live_getElem]; exact he
      rw [(r.remove_live h hil hf).1]
      have hne : r.live ≠ [] := by intro e; simp [e] at hil
      constructor
      · intro hk
        obtain ⟨j, hj, hjk⟩ := List.getElem_of_mem hk
        simp only [List.length_dropLast, List.length_set] at hj
        rw [List.getElem_dropLast, List.getElem_set] at hjk
        split at hjk
        · refine ⟨hjk ▸ List.getLast_mem hne, fun e => ?_⟩
          rw [e, ← hli, List.getLast_eq_getElem] at hjk
          have := (List.Nodup.getElem_inj_iff hd).1 hjk
          omega
        · refine ⟨hjk ▸ List.getElem_mem _, fun e => ?_⟩
          rw [e, ← hli] at hjk
          have := (List.Nodup.getElem_inj_iff hd).1 hjk
          omega
      · rintro ⟨hk, hkh⟩
        obtain ⟨j, hj, hjk⟩ := List.getElem_of_mem hk
        have hji : j ≠ i.val := fun e => hkh (by subst e; rw [← hjk, hli])
        by_cases hlast : j = r.live.length - 1
        · have hmem : i.val < (r.live.set i.val (r.live.getLast hne)).dropLast.length := by simp; omega
          have := List.getElem_mem hmem
          rw [List.getElem_dropLast, List.getElem_set_self] at this
          have hg : r.live.getLast hne = k := by
            rw [List.getLast_eq_getElem, ← hjk]
            simp only [hlast]
          rwa [hg] at this ⊢
        · have hmem : j < (r.live.set i.val (r.live.getLast hne)).dropLast.length := by simp; omega
          have := List.getElem_mem hmem
          rw [List.getElem_dropLast, List.getElem_set_ne (Ne.symm hji), hjk] at this
          exact this
  · rw [r.remove_absent h hm]
    exact ⟨fun hk => ⟨hk, fun e => hm (e ▸ hk)⟩, fun hk => hk.1⟩

theorem Registry.remove_nodup (hd : r.live.Nodup) : (r.remove h).1.live.Nodup := by
  by_cases hm : h ∈ r.live
  · cases hf : r.find h with
    | none => exact absurd hm ((r.find_none h).1 hf)
    | some i =>
      obtain ⟨hi, he⟩ := r.find_some h hf
      have hil : i.val < r.live.length := by rw [r.live_length]; exact hi
      rw [(r.remove_live h hil hf).1, List.nodup_iff_injective_getElem]
      rintro ⟨a, ha⟩ ⟨b, hb⟩ hab
      simp only [List.length_dropLast, List.length_set] at ha hb
      simp only [List.getElem_dropLast, List.getElem_set, List.getLast_eq_getElem] at hab
      have inj : ∀ {x y : Nat} (hx : x < r.live.length) (hy : y < r.live.length), r.live[x] = r.live[y] → x = y :=
        fun hx hy e => (List.Nodup.getElem_inj_iff hd).1 e
      simp only [Fin.mk.injEq]
      split at hab <;> split at hab
      · omega
      · have := inj _ _ hab; omega
      · have := inj _ _ hab; omega
      · exact inj _ _ hab
  · rw [r.remove_absent h hm]
    exact hd

/-- Whether eviction found the handle (R238). -/
theorem Registry.remove_found : (r.remove h).2 = if h ∈ r.live then 1 else 0 := by
  by_cases hm : h ∈ r.live
  · cases hf : r.find h with
    | none => exact absurd hm ((r.find_none h).1 hf)
    | some i =>
      rw [if_pos hm]
      unfold Registry.remove
      rw [hf]
  · rw [r.remove_absent h hm, if_neg hm]

end Sys2Proof.Machine
end

