-- ==== Sys2Proof/Laws/State.lean ====
section
/-! SUPPORT. One lemma per field per named update of `State`, true by unfolding, so that no later proof unfolds a record
update; and what the accessors read after each. -/

namespace Sys2Proof.Machine.State

variable (s : State)

@[simp] theorem quiet_cfg : s.quiet.cfg = s.cfg := rfl
@[simp] theorem quiet_tickRunning : s.quiet.tickRunning = s.tickRunning := rfl
@[simp] theorem quiet_txReg : s.quiet.txReg = s.txReg := rfl
@[simp] theorem quiet_rxReg : s.quiet.rxReg = s.rxReg := rfl
@[simp] theorem quiet_tx : s.quiet.tx = s.tx := rfl
@[simp] theorem quiet_rx : s.quiet.rx = s.rx := rfl
@[simp] theorem quiet_line : s.quiet.line = s.line := rfl
@[simp] theorem quiet_payloadPort : s.quiet.payloadPort = s.payloadPort := rfl
@[simp] theorem quiet_inputs : s.quiet.inputs = s.inputs := rfl
@[simp] theorem quiet_out : s.quiet.out = Output.none := rfl

@[simp] theorem emit_cfg (e : Event) : (s.emit e).cfg = s.cfg := rfl
@[simp] theorem emit_tickRunning (e : Event) : (s.emit e).tickRunning = s.tickRunning := rfl
@[simp] theorem emit_txReg (e : Event) : (s.emit e).txReg = s.txReg := rfl
@[simp] theorem emit_rxReg (e : Event) : (s.emit e).rxReg = s.rxReg := rfl
@[simp] theorem emit_tx (e : Event) : (s.emit e).tx = s.tx := rfl
@[simp] theorem emit_rx (e : Event) : (s.emit e).rx = s.rx := rfl
@[simp] theorem emit_line (e : Event) : (s.emit e).line = s.line := rfl
@[simp] theorem emit_payloadPort (e : Event) : (s.emit e).payloadPort = s.payloadPort := rfl
@[simp] theorem emit_inputs (e : Event) : (s.emit e).inputs = s.inputs := rfl
@[simp] theorem emit_out (e : Event) : (s.emit e).out = { s.out with events := s.out.events ++ [e] } := rfl

@[simp] theorem respond_cfg (st : Status) (n : Nat) (d : List Byte) : (s.respond st n d).cfg = s.cfg := rfl
@[simp] theorem respond_tickRunning (st : Status) (n : Nat) (d : List Byte) : (s.respond st n d).tickRunning = s.tickRunning := rfl
@[simp] theorem respond_txReg (st : Status) (n : Nat) (d : List Byte) : (s.respond st n d).txReg = s.txReg := rfl
@[simp] theorem respond_rxReg (st : Status) (n : Nat) (d : List Byte) : (s.respond st n d).rxReg = s.rxReg := rfl
@[simp] theorem respond_tx (st : Status) (n : Nat) (d : List Byte) : (s.respond st n d).tx = s.tx := rfl
@[simp] theorem respond_rx (st : Status) (n : Nat) (d : List Byte) : (s.respond st n d).rx = s.rx := rfl
@[simp] theorem respond_line (st : Status) (n : Nat) (d : List Byte) : (s.respond st n d).line = s.line := rfl
@[simp] theorem respond_payloadPort (st : Status) (n : Nat) (d : List Byte) : (s.respond st n d).payloadPort = s.payloadPort := rfl
@[simp] theorem respond_inputs (st : Status) (n : Nat) (d : List Byte) : (s.respond st n d).inputs = s.inputs := rfl
@[simp] theorem respond_out (st : Status) (n : Nat) (d : List Byte) : (s.respond st n d).out = { s.out with response := some ⟨st, BitVec.ofNat 16 n, d⟩ } := rfl

@[simp] theorem setLine_cfg (p : Pin) (v : Level) : (s.setLine p v).cfg = s.cfg := rfl
@[simp] theorem setLine_tickRunning (p : Pin) (v : Level) : (s.setLine p v).tickRunning = s.tickRunning := rfl
@[simp] theorem setLine_txReg (p : Pin) (v : Level) : (s.setLine p v).txReg = s.txReg := rfl
@[simp] theorem setLine_rxReg (p : Pin) (v : Level) : (s.setLine p v).rxReg = s.rxReg := rfl
@[simp] theorem setLine_tx (p : Pin) (v : Level) : (s.setLine p v).tx = s.tx := rfl
@[simp] theorem setLine_rx (p : Pin) (v : Level) : (s.setLine p v).rx = s.rx := rfl
@[simp] theorem setLine_line (p : Pin) (v : Level) : (s.setLine p v).line = s.line.set p.toNat v := rfl
@[simp] theorem setLine_payloadPort (p : Pin) (v : Level) : (s.setLine p v).payloadPort = s.payloadPort := rfl
@[simp] theorem setLine_inputs (p : Pin) (v : Level) : (s.setLine p v).inputs = s.inputs := rfl
@[simp] theorem setLine_out (p : Pin) (v : Level) : (s.setLine p v).out = s.out := rfl

@[simp] theorem pinWrite_cfg (p : Pin) (v : Level) : (s.pinWrite p v).cfg = s.cfg := rfl
@[simp] theorem pinWrite_tickRunning (p : Pin) (v : Level) : (s.pinWrite p v).tickRunning = s.tickRunning := rfl
@[simp] theorem pinWrite_txReg (p : Pin) (v : Level) : (s.pinWrite p v).txReg = s.txReg := rfl
@[simp] theorem pinWrite_rxReg (p : Pin) (v : Level) : (s.pinWrite p v).rxReg = s.rxReg := rfl
@[simp] theorem pinWrite_tx (p : Pin) (v : Level) : (s.pinWrite p v).tx = s.tx := rfl
@[simp] theorem pinWrite_rx (p : Pin) (v : Level) : (s.pinWrite p v).rx = s.rx := rfl
@[simp] theorem pinWrite_line (p : Pin) (v : Level) : (s.pinWrite p v).line = s.line.set p.toNat v := rfl
@[simp] theorem pinWrite_payloadPort (p : Pin) (v : Level) : (s.pinWrite p v).payloadPort = s.payloadPort := rfl
@[simp] theorem pinWrite_inputs (p : Pin) (v : Level) : (s.pinWrite p v).inputs = s.inputs := rfl
@[simp] theorem pinWrite_out (p : Pin) (v : Level) : (s.pinWrite p v).out = { s.out with events := s.out.events ++ [.pinWrite p v] } := rfl

@[simp] theorem pinConfigure_cfg (p : Pin) (dir : Direction) : (s.pinConfigure p dir).cfg = s.cfg := rfl
@[simp] theorem pinConfigure_tickRunning (p : Pin) (dir : Direction) : (s.pinConfigure p dir).tickRunning = s.tickRunning := rfl
@[simp] theorem pinConfigure_txReg (p : Pin) (dir : Direction) : (s.pinConfigure p dir).txReg = s.txReg := rfl
@[simp] theorem pinConfigure_rxReg (p : Pin) (dir : Direction) : (s.pinConfigure p dir).rxReg = s.rxReg := rfl
@[simp] theorem pinConfigure_tx (p : Pin) (dir : Direction) : (s.pinConfigure p dir).tx = s.tx := rfl
@[simp] theorem pinConfigure_rx (p : Pin) (dir : Direction) : (s.pinConfigure p dir).rx = s.rx := rfl
@[simp] theorem pinConfigure_line (p : Pin) (dir : Direction) : (s.pinConfigure p dir).line = s.line := rfl
@[simp] theorem pinConfigure_payloadPort (p : Pin) (dir : Direction) : (s.pinConfigure p dir).payloadPort = s.payloadPort := rfl
@[simp] theorem pinConfigure_inputs (p : Pin) (dir : Direction) : (s.pinConfigure p dir).inputs = s.inputs := rfl
@[simp] theorem pinConfigure_out (p : Pin) (dir : Direction) : (s.pinConfigure p dir).out = { s.out with events := s.out.events ++ [.pinConfigure p dir] } := rfl

@[simp] theorem setTx_cfg (h : Handle) (t : TxContext) : (s.setTx h t).cfg = s.cfg := rfl
@[simp] theorem setTx_tickRunning (h : Handle) (t : TxContext) : (s.setTx h t).tickRunning = s.tickRunning := rfl
@[simp] theorem setTx_txReg (h : Handle) (t : TxContext) : (s.setTx h t).txReg = s.txReg := rfl
@[simp] theorem setTx_rxReg (h : Handle) (t : TxContext) : (s.setTx h t).rxReg = s.rxReg := rfl
@[simp] theorem setTx_tx (h : Handle) (t : TxContext) : (s.setTx h t).tx = s.tx.set h.toNat t := rfl
@[simp] theorem setTx_rx (h : Handle) (t : TxContext) : (s.setTx h t).rx = s.rx := rfl
@[simp] theorem setTx_line (h : Handle) (t : TxContext) : (s.setTx h t).line = s.line := rfl
@[simp] theorem setTx_payloadPort (h : Handle) (t : TxContext) : (s.setTx h t).payloadPort = s.payloadPort := rfl
@[simp] theorem setTx_inputs (h : Handle) (t : TxContext) : (s.setTx h t).inputs = s.inputs := rfl
@[simp] theorem setTx_out (h : Handle) (t : TxContext) : (s.setTx h t).out = s.out := rfl

@[simp] theorem setRx_cfg (h : Handle) (r : RxContext) : (s.setRx h r).cfg = s.cfg := rfl
@[simp] theorem setRx_tickRunning (h : Handle) (r : RxContext) : (s.setRx h r).tickRunning = s.tickRunning := rfl
@[simp] theorem setRx_txReg (h : Handle) (r : RxContext) : (s.setRx h r).txReg = s.txReg := rfl
@[simp] theorem setRx_rxReg (h : Handle) (r : RxContext) : (s.setRx h r).rxReg = s.rxReg := rfl
@[simp] theorem setRx_tx (h : Handle) (r : RxContext) : (s.setRx h r).tx = s.tx := rfl
@[simp] theorem setRx_rx (h : Handle) (r : RxContext) : (s.setRx h r).rx = s.rx.set h.toNat r := rfl
@[simp] theorem setRx_line (h : Handle) (r : RxContext) : (s.setRx h r).line = s.line := rfl
@[simp] theorem setRx_payloadPort (h : Handle) (r : RxContext) : (s.setRx h r).payloadPort = s.payloadPort := rfl
@[simp] theorem setRx_inputs (h : Handle) (r : RxContext) : (s.setRx h r).inputs = s.inputs := rfl
@[simp] theorem setRx_out (h : Handle) (r : RxContext) : (s.setRx h r).out = s.out := rfl

@[simp] theorem advanceInputs_cfg (rest : List Input) : (s.advanceInputs rest).cfg = s.cfg := rfl
@[simp] theorem advanceInputs_tickRunning (rest : List Input) : (s.advanceInputs rest).tickRunning = s.tickRunning := rfl
@[simp] theorem advanceInputs_txReg (rest : List Input) : (s.advanceInputs rest).txReg = s.txReg := rfl
@[simp] theorem advanceInputs_rxReg (rest : List Input) : (s.advanceInputs rest).rxReg = s.rxReg := rfl
@[simp] theorem advanceInputs_tx (rest : List Input) : (s.advanceInputs rest).tx = s.tx := rfl
@[simp] theorem advanceInputs_rx (rest : List Input) : (s.advanceInputs rest).rx = s.rx := rfl
@[simp] theorem advanceInputs_line (rest : List Input) : (s.advanceInputs rest).line = s.line := rfl
@[simp] theorem advanceInputs_payloadPort (rest : List Input) : (s.advanceInputs rest).payloadPort = s.payloadPort := rfl
@[simp] theorem advanceInputs_inputs (rest : List Input) : (s.advanceInputs rest).inputs = rest := rfl
@[simp] theorem advanceInputs_out (rest : List Input) : (s.advanceInputs rest).out = s.out := rfl

@[simp] theorem presentPayload_cfg (v : Vector Byte Config.portBytes) : (s.presentPayload v).cfg = s.cfg := rfl
@[simp] theorem presentPayload_tickRunning (v : Vector Byte Config.portBytes) : (s.presentPayload v).tickRunning = s.tickRunning := rfl
@[simp] theorem presentPayload_txReg (v : Vector Byte Config.portBytes) : (s.presentPayload v).txReg = s.txReg := rfl
@[simp] theorem presentPayload_rxReg (v : Vector Byte Config.portBytes) : (s.presentPayload v).rxReg = s.rxReg := rfl
@[simp] theorem presentPayload_tx (v : Vector Byte Config.portBytes) : (s.presentPayload v).tx = s.tx := rfl
@[simp] theorem presentPayload_rx (v : Vector Byte Config.portBytes) : (s.presentPayload v).rx = s.rx := rfl
@[simp] theorem presentPayload_line (v : Vector Byte Config.portBytes) : (s.presentPayload v).line = s.line := rfl
@[simp] theorem presentPayload_payloadPort (v : Vector Byte Config.portBytes) : (s.presentPayload v).payloadPort = v := rfl
@[simp] theorem presentPayload_inputs (v : Vector Byte Config.portBytes) : (s.presentPayload v).inputs = s.inputs := rfl
@[simp] theorem presentPayload_out (v : Vector Byte Config.portBytes) : (s.presentPayload v).out = s.out := rfl

@[simp] theorem presentWord_cfg (w : CmdWord) : (s.presentWord w).cfg = s.cfg := rfl
@[simp] theorem presentWord_tickRunning (w : CmdWord) : (s.presentWord w).tickRunning = s.tickRunning := rfl
@[simp] theorem presentWord_txReg (w : CmdWord) : (s.presentWord w).txReg = s.txReg := rfl
@[simp] theorem presentWord_rxReg (w : CmdWord) : (s.presentWord w).rxReg = s.rxReg := rfl
@[simp] theorem presentWord_tx (w : CmdWord) : (s.presentWord w).tx = s.tx := rfl
@[simp] theorem presentWord_rx (w : CmdWord) : (s.presentWord w).rx = s.rx := rfl
@[simp] theorem presentWord_line (w : CmdWord) : (s.presentWord w).line = s.line := rfl
@[simp] theorem presentWord_payloadPort (w : CmdWord) : (s.presentWord w).payloadPort = s.payloadPort := rfl
@[simp] theorem presentWord_inputs (w : CmdWord) : (s.presentWord w).inputs = .word w s.payloadPort :: s.inputs := rfl
@[simp] theorem presentWord_out (w : CmdWord) : (s.presentWord w).out = s.out := rfl

@[simp] theorem quiet_txAt (k : Handle) : s.quiet.txAt k = s.txAt k := rfl
@[simp] theorem quiet_rxAt (k : Handle) : s.quiet.rxAt k = s.rxAt k := rfl
@[simp] theorem quiet_lineAt (q : Pin) : s.quiet.lineAt q = s.lineAt q := rfl
@[simp] theorem emit_txAt (e : Event) (k : Handle) : (s.emit e).txAt k = s.txAt k := rfl
@[simp] theorem emit_rxAt (e : Event) (k : Handle) : (s.emit e).rxAt k = s.rxAt k := rfl
@[simp] theorem emit_lineAt (e : Event) (q : Pin) : (s.emit e).lineAt q = s.lineAt q := rfl
@[simp] theorem respond_txAt (st : Status) (n : Nat) (d : List Byte) (k : Handle) : (s.respond st n d).txAt k = s.txAt k := rfl
@[simp] theorem respond_rxAt (st : Status) (n : Nat) (d : List Byte) (k : Handle) : (s.respond st n d).rxAt k = s.rxAt k := rfl
@[simp] theorem respond_lineAt (st : Status) (n : Nat) (d : List Byte) (q : Pin) : (s.respond st n d).lineAt q = s.lineAt q := rfl
@[simp] theorem setLine_txAt (p : Pin) (v : Level) (k : Handle) : (s.setLine p v).txAt k = s.txAt k := rfl
@[simp] theorem setLine_rxAt (p : Pin) (v : Level) (k : Handle) : (s.setLine p v).rxAt k = s.rxAt k := rfl
@[simp] theorem pinWrite_txAt (p : Pin) (v : Level) (k : Handle) : (s.pinWrite p v).txAt k = s.txAt k := rfl
@[simp] theorem pinWrite_rxAt (p : Pin) (v : Level) (k : Handle) : (s.pinWrite p v).rxAt k = s.rxAt k := rfl
@[simp] theorem pinConfigure_txAt (p : Pin) (dir : Direction) (k : Handle) : (s.pinConfigure p dir).txAt k = s.txAt k := rfl
@[simp] theorem pinConfigure_rxAt (p : Pin) (dir : Direction) (k : Handle) : (s.pinConfigure p dir).rxAt k = s.rxAt k := rfl
@[simp] theorem pinConfigure_lineAt (p : Pin) (dir : Direction) (q : Pin) : (s.pinConfigure p dir).lineAt q = s.lineAt q := rfl
@[simp] theorem setTx_rxAt (h : Handle) (t : TxContext) (k : Handle) : (s.setTx h t).rxAt k = s.rxAt k := rfl
@[simp] theorem setTx_lineAt (h : Handle) (t : TxContext) (q : Pin) : (s.setTx h t).lineAt q = s.lineAt q := rfl
@[simp] theorem setRx_txAt (h : Handle) (r : RxContext) (k : Handle) : (s.setRx h r).txAt k = s.txAt k := rfl
@[simp] theorem setRx_lineAt (h : Handle) (r : RxContext) (q : Pin) : (s.setRx h r).lineAt q = s.lineAt q := rfl
@[simp] theorem advanceInputs_txAt (rest : List Input) (k : Handle) : (s.advanceInputs rest).txAt k = s.txAt k := rfl
@[simp] theorem advanceInputs_rxAt (rest : List Input) (k : Handle) : (s.advanceInputs rest).rxAt k = s.rxAt k := rfl
@[simp] theorem advanceInputs_lineAt (rest : List Input) (q : Pin) : (s.advanceInputs rest).lineAt q = s.lineAt q := rfl
@[simp] theorem presentPayload_txAt (v : Vector Byte Config.portBytes) (k : Handle) : (s.presentPayload v).txAt k = s.txAt k := rfl
@[simp] theorem presentPayload_rxAt (v : Vector Byte Config.portBytes) (k : Handle) : (s.presentPayload v).rxAt k = s.rxAt k := rfl
@[simp] theorem presentPayload_lineAt (v : Vector Byte Config.portBytes) (q : Pin) : (s.presentPayload v).lineAt q = s.lineAt q := rfl
@[simp] theorem presentWord_txAt (w : CmdWord) (k : Handle) : (s.presentWord w).txAt k = s.txAt k := rfl
@[simp] theorem presentWord_rxAt (w : CmdWord) (k : Handle) : (s.presentWord w).rxAt k = s.rxAt k := rfl
@[simp] theorem presentWord_lineAt (w : CmdWord) (q : Pin) : (s.presentWord w).lineAt q = s.lineAt q := rfl
@[simp] theorem startTick_cfg : s.startTick.cfg = s.cfg := by unfold startTick; split <;> rfl
@[simp] theorem startTick_txReg : s.startTick.txReg = s.txReg := by unfold startTick; split <;> rfl
@[simp] theorem startTick_rxReg : s.startTick.rxReg = s.rxReg := by unfold startTick; split <;> rfl
@[simp] theorem startTick_tx : s.startTick.tx = s.tx := by unfold startTick; split <;> rfl
@[simp] theorem startTick_rx : s.startTick.rx = s.rx := by unfold startTick; split <;> rfl
@[simp] theorem startTick_line : s.startTick.line = s.line := by unfold startTick; split <;> rfl
@[simp] theorem startTick_payloadPort : s.startTick.payloadPort = s.payloadPort := by unfold startTick; split <;> rfl
@[simp] theorem startTick_inputs : s.startTick.inputs = s.inputs := by unfold startTick; split <;> rfl
@[simp] theorem startTick_tickRunning : s.startTick.tickRunning = true := by
  unfold startTick
  split
  · assumption
  · rfl
/-- The request is emitted exactly when the tick source was not running (R251). -/
theorem startTick_out : s.startTick.out =
    if s.tickRunning then s.out else { s.out with events := s.out.events ++ [.tickStart s.cfg.tick] } := by
  unfold startTick
  split <;> rfl
@[simp] theorem startTick_txAt (k : Handle) : s.startTick.txAt k = s.txAt k := by simp [txAt]
@[simp] theorem startTick_rxAt (k : Handle) : s.startTick.rxAt k = s.rxAt k := by simp [rxAt]
@[simp] theorem startTick_lineAt (q : Pin) : s.startTick.lineAt q = s.lineAt q := by simp [lineAt]

@[simp] theorem with_txReg_txAt (g : Registry) (k : Handle) :
    txAt { s with txReg := g } k = s.txAt k := rfl
@[simp] theorem with_txReg_rxAt (g : Registry) (k : Handle) :
    rxAt { s with txReg := g } k = s.rxAt k := rfl
@[simp] theorem with_rxReg_txAt (g : Registry) (k : Handle) :
    txAt { s with rxReg := g } k = s.txAt k := rfl
@[simp] theorem with_rxReg_rxAt (g : Registry) (k : Handle) :
    rxAt { s with rxReg := g } k = s.rxAt k := rfl

/-- A context read back after it was set; any other is unchanged. -/
theorem setTx_txAt (h k : Handle) (t : TxContext) : (s.setTx h t).txAt k = if k = h then t else s.txAt k := by
  unfold setTx txAt
  rw [Vector.getElem_set]
  by_cases hk : k = h
  · simp [hk]
  · have : h.toNat ≠ k.toNat := fun e => hk (BitVec.eq_of_toNat_eq e.symm)
    simp [hk, this]
@[simp] theorem setTx_txAt_self (h : Handle) (t : TxContext) : (s.setTx h t).txAt h = t := by simp [setTx_txAt]

theorem setRx_rxAt (h k : Handle) (r : RxContext) : (s.setRx h r).rxAt k = if k = h then r else s.rxAt k := by
  unfold setRx rxAt
  rw [Vector.getElem_set]
  by_cases hk : k = h
  · simp [hk]
  · have : h.toNat ≠ k.toNat := fun e => hk (BitVec.eq_of_toNat_eq e.symm)
    simp [hk, this]
@[simp] theorem setRx_rxAt_self (h : Handle) (r : RxContext) : (s.setRx h r).rxAt h = r := by simp [setRx_rxAt]

/-- A line read back after it was written; any other keeps its level (R68). -/
theorem setLine_lineAt (p q : Pin) (v : Level) : (s.setLine p v).lineAt q = if q = p then v else s.lineAt q := by
  unfold setLine lineAt
  rw [Vector.getElem_set]
  by_cases hk : q = p
  · simp [hk]
  · have : p.toNat ≠ q.toNat := fun e => hk (BitVec.eq_of_toNat_eq e.symm)
    simp [hk, this]
theorem pinWrite_lineAt (p q : Pin) (v : Level) : (s.pinWrite p v).lineAt q = if q = p then v else s.lineAt q :=
  s.setLine_lineAt p q v
@[simp] theorem pinRead_eq (p : Pin) : s.pinRead p = s.lineAt p := rfl

@[simp] theorem pinWrites_cfg (p : Pin) (vs : List Level) : (s.pinWrites p vs).cfg = s.cfg := by
  induction vs generalizing s with
  | nil => rfl
  | cons v vs ih => simp [pinWrites, ih]
@[simp] theorem pinWrites_tickRunning (p : Pin) (vs : List Level) : (s.pinWrites p vs).tickRunning = s.tickRunning := by
  induction vs generalizing s with
  | nil => rfl
  | cons v vs ih => simp [pinWrites, ih]
@[simp] theorem pinWrites_txReg (p : Pin) (vs : List Level) : (s.pinWrites p vs).txReg = s.txReg := by
  induction vs generalizing s with
  | nil => rfl
  | cons v vs ih => simp [pinWrites, ih]
@[simp] theorem pinWrites_rxReg (p : Pin) (vs : List Level) : (s.pinWrites p vs).rxReg = s.rxReg := by
  induction vs generalizing s with
  | nil => rfl
  | cons v vs ih => simp [pinWrites, ih]
@[simp] theorem pinWrites_tx (p : Pin) (vs : List Level) : (s.pinWrites p vs).tx = s.tx := by
  induction vs generalizing s with
  | nil => rfl
  | cons v vs ih => simp [pinWrites, ih]
@[simp] theorem pinWrites_rx (p : Pin) (vs : List Level) : (s.pinWrites p vs).rx = s.rx := by
  induction vs generalizing s with
  | nil => rfl
  | cons v vs ih => simp [pinWrites, ih]
@[simp] theorem pinWrites_payloadPort (p : Pin) (vs : List Level) : (s.pinWrites p vs).payloadPort = s.payloadPort := by
  induction vs generalizing s with
  | nil => rfl
  | cons v vs ih => simp [pinWrites, ih]
@[simp] theorem pinWrites_inputs (p : Pin) (vs : List Level) : (s.pinWrites p vs).inputs = s.inputs := by
  induction vs generalizing s with
  | nil => rfl
  | cons v vs ih => simp [pinWrites, ih]
@[simp] theorem pinWrites_txAt (p : Pin) (vs : List Level) (k : Handle) : (s.pinWrites p vs).txAt k = s.txAt k := by
  simp [txAt]
@[simp] theorem pinWrites_rxAt (p : Pin) (vs : List Level) (k : Handle) : (s.pinWrites p vs).rxAt k = s.rxAt k := by
  simp [rxAt]
/-- After several writes of a pin its line holds the last of them; every other line keeps its level. -/
theorem pinWrites_lineAt (p q : Pin) (vs : List Level) :
    (s.pinWrites p vs).lineAt q = if q = p then vs.getLastD (s.lineAt p) else s.lineAt q := by
  induction vs generalizing s with
  | nil => by_cases h : q = p <;> simp [pinWrites, h]
  | cons v vs ih =>
    rw [pinWrites, ih]
    by_cases h : q = p
    · subst h
      cases vs <;> simp [pinWrite_lineAt, List.getLast?_cons]
    · simp [h, pinWrite_lineAt]
/-- The events of several writes follow those already emitted. -/
theorem pinWrites_out (p : Pin) (vs : List Level) :
    (s.pinWrites p vs).out = { s.out with events := s.out.events ++ vs.map (Event.pinWrite p) } := by
  induction vs generalizing s with
  | nil => simp [pinWrites]
  | cons v vs ih => simp [pinWrites, ih]

@[simp] theorem resetWith_txAt (c : Cfg) (l : Vector Level 256) (k : Handle) :
    (resetWith c l).txAt k = TxContext.fresh c := by simp [txAt, resetWith]
@[simp] theorem resetWith_rxAt (c : Cfg) (l : Vector Level 256) (k : Handle) :
    (resetWith c l).rxAt k = RxContext.fresh c := by simp [rxAt, resetWith]

/-- Two states whose contexts read alike hold the same contexts. -/
theorem txAt_ext {s t : State} (h : ∀ k, s.txAt k = t.txAt k) : s.tx = t.tx := by
  apply Vector.ext
  intro i hi
  have := h (BitVec.ofNat 8 i)
  simp only [txAt] at this
  simpa [Nat.mod_eq_of_lt hi] using this
theorem rxAt_ext {s t : State} (h : ∀ k, s.rxAt k = t.rxAt k) : s.rx = t.rx := by
  apply Vector.ext
  intro i hi
  have := h (BitVec.ofNat 8 i)
  simp only [rxAt] at this
  simpa [Nat.mod_eq_of_lt hi] using this

end Sys2Proof.Machine.State
end

