-- ==== Sys2Proof/Laws/Commands.lean ====
section
/-! SUPPORT. What the shared operations of the commands do: whom a command answers, how it answers, the comparators, the
stops, and the tick source. -/

namespace Sys2Proof.Machine

variable {s : State} {h : Handle}

/-- A command to an `Active` transmitter runs its body on the context and the state with quiet outputs (R106). -/
theorem onTx_active {body : TxContext → State → Result} (ha : s.txActive h) :
    onTx h s body = body (s.txAt h) s.quiet := if_pos ha

/-- Any other transmitter command answers `NotInitialized`, 0 and changes nothing (R106, R266). -/
theorem onTx_inactive {body : TxContext → State → Result} (ha : ¬s.txActive h) :
    onTx h s body = .next (s.replied .notInitialized 0 [] []) := if_neg ha

/-- A command to an `Active` receiver runs its body on the context and the state with quiet outputs (R106). -/
theorem onRx_active {body : RxContext → State → Result} (ha : s.rxActive h) :
    onRx h s body = body (s.rxAt h) s.quiet := if_pos ha

/-- Any other receiver command answers `NotInitialized`, 0 and changes nothing (R106, R266). -/
theorem onRx_inactive {body : RxContext → State → Result} (ha : ¬s.rxActive h) :
    onRx h s body = .next (s.replied .notInitialized 0 [] []) := if_neg ha

theorem validCfg.elapsedMax_pos {c : Cfg} (hc : validCfg c) : 1 ≤ c.elapsedMax := by
  obtain ⟨-, -, -, -, -, -, h, -⟩ := hc
  exact h

/-- `BUF_CAP` is `MAX_PAYLOAD + 3` (R11 (7)). -/
theorem validCfg.bufCap_eq {c : Cfg} (hc : validCfg c) : c.bufCap = c.maxPayload + 3 := by
  obtain ⟨-, -, -, -, -, -, -, -, -, -, -, -, -, -, -, -, -, -, -, -, h, -⟩ := hc
  exact h

/-- A frame fits the length byte, and a payload the port (R11 (7)). -/
theorem validCfg.bufCap_le {c : Cfg} (hc : validCfg c) : c.bufCap ≤ 255 := by
  obtain ⟨-, -, -, -, -, -, -, -, -, -, -, -, -, -, -, -, -, -, -, -, -, h⟩ := hc
  exact h

/-- The configured capacities are within the storage (R11 (6)). -/
theorem validCfg.registries {c : Cfg} (hc : validCfg c) :
    c.maxTransmitters ≤ Config.registrySlots ∧ c.maxReceivers ≤ Config.registrySlots := by
  obtain ⟨-, -, -, -, -, -, -, -, -, -, -, -, -, -, -, -, h1, h2, h3, h4, -, -⟩ := hc
  exact ⟨Nat.le_trans h1 h2, Nat.le_trans h3 h4⟩

theorem keptNibble_eq (b : Byte) : keptNibble b = BitVec.ofNat 4 (b.toNat % 16) := by revert b; decide

/-- `Within` is a closed interval of `2 × DEVIATION + 1` values (R200). -/
theorem within_iff (c : Cfg) (x ref : Nat) : within c x ref = true ↔ absDiff x ref ≤ c.deviation := by
  unfold within absDiff
  simp only [Bool.and_eq_true, decide_eq_true_eq]
  split <;> omega

theorem within_self_range {c : Cfg} {x ref : Nat} (h1 : ref ≤ x) (h2 : x ≤ ref + c.deviation) :
    within c x ref = true := by
  unfold within
  simp only [Bool.and_eq_true, decide_eq_true_eq]
  omega

/-- A value within the tolerance of one duration is outside that of any that is more than two tolerances away (R319). -/
theorem within_apart {c : Cfg} {x a b : Nat} (ha : within c x a = true) (hab : 2 * c.deviation < absDiff a b) :
    within c x b = false := by
  unfold within at *
  unfold absDiff at hab
  simp only [Bool.and_eq_true, decide_eq_true_eq] at ha
  simp only [Bool.and_eq_false_iff, decide_eq_false_iff_not]
  split at hab <;> omega

theorem separated_iff (c : Cfg) (p : Profile) : separated c p = true ↔ 2 * c.deviation ≤ absDiff p.high p.low := by
  simp [separated]

theorem restTx_idle {c : Cfg} {p : Profile} : restTx c p = .idle ↔ separated c p = true := by
  unfold restTx; split <;> simp_all

theorem restTx_definitions {c : Cfg} {p : Profile} : restTx c p = .errorDefinitions ↔ separated c p = false := by
  unfold restTx; split <;> simp_all

theorem restTx_ne_sending {c : Cfg} {p : Profile} : restTx c p ≠ .sending := by
  unfold restTx; split <;> simp

theorem restRx_idle {c : Cfg} {p : Profile} : restRx c p = .idle ↔ separated c p = true := by
  unfold restRx; split <;> simp_all

theorem restRx_definitions {c : Cfg} {p : Profile} : restRx c p = .errorDefinitions ↔ separated c p = false := by
  unfold restRx; split <;> simp_all

theorem restRx_cases (c : Cfg) (p : Profile) : restRx c p = .idle ∨ restRx c p = .errorDefinitions := by
  unfold restRx; split <;> simp

/-- A clamped value is in its range (R12). -/
theorem clamp_range {v lo hi : Nat} (hr : lo ≤ hi) : lo ≤ clamp v lo hi ∧ clamp v lo hi ≤ hi := by
  unfold clamp; split <;> [skip; split] <;> omega

theorem tracks_iff (r : RxContext) : tracks r = true ↔ r.phase = .listening ∨ r.phase = .messageReady := by
  simp [tracks]

/-- The state an accepted `TX_SEND` or `RX_LISTEN` leaves, its answer placed (R251). -/
theorem respond_startTick_quiet (s : State) (status : Status) (n : Nat) :
    s.quiet.startTick.respond status n [] = ({ s with tickRunning := true }).replied status n []
      (if s.tickRunning then [] else [.tickStart s.cfg.tick]) := by
  unfold State.startTick
  cases hr : s.tickRunning <;>
    simp [hr, State.quiet, State.respond, State.replied, State.emit, Output.none]

@[simp] theorem State.setTx_quiet (t : TxContext) : s.quiet.setTx h t = (s.setTx h t).quiet := rfl
@[simp] theorem State.setRx_quiet (r : RxContext) : s.quiet.setRx h r = (s.setRx h r).quiet := rfl

/-- A context written twice holds the second value. -/
@[simp] theorem State.setTx_setTx (t u : TxContext) : (s.setTx h t).setTx h u = s.setTx h u := by
  simp [State.setTx]

@[simp] theorem State.setRx_setRx (r q : RxContext) : (s.setRx h r).setRx h q = s.setRx h q := by
  simp [State.setRx]

/-- A stop keeps the profile's verdict: it leaves `Idle` or, where it was, `ErrorDefinitions` (R152). -/
theorem stoppedTxPhase_cases (p : TxPhase) :
    (p = .errorDefinitions ∧ stoppedTxPhase p = .errorDefinitions) ∨ (p ≠ .errorDefinitions ∧ stoppedTxPhase p = .idle) := by
  cases p <;> simp [stoppedTxPhase]

/-- A stop keeps the fatal phases and leaves every other phase `Idle` (R189). -/
theorem stoppedRxPhase_cases (p : RxPhase) :
    (p = .errorOverflow ∧ stoppedRxPhase p = .errorOverflow) ∨
    (p = .errorDefinitions ∧ stoppedRxPhase p = .errorDefinitions) ∨
    (p ≠ .errorOverflow ∧ p ≠ .errorDefinitions ∧ stoppedRxPhase p = .idle) := by
  cases p <;> simp [stoppedRxPhase]

end Sys2Proof.Machine
end

