-- ==== Sys2Proof/Laws/Receiving.lean ====
section
/-! SUPPORT. What the receive state machine can do in a tick: a bit stored, a frame begun, a frame checked, a time-out, an
edge; and that each keeps a receiver context as R44 says it is. -/

namespace Sys2Proof.Machine

variable {c : Cfg} {r : RxContext}

/-! One operation at a time. -/

theorem storeBit_full {b : Bool} (h : c.bufCap ≤ r.bufLen) : storeBit c r b = { r with phase := .errorOverflow } :=
  if_pos h

theorem storeBit_fits {b : Bool} (h : r.bufLen < c.bufCap) :
    storeBit c r b = { r with
      buf := r.buf.write r.bufLen (putBit (bufByte c r.buf r.bufLen) r.bitCursor b)
      bufLen := nextByte r.bufLen r.bitCursor
      bitCursor := nextBit r.bitCursor } := if_neg (by omega)

/-- Storing a bit touches nothing but the buffer, its length, the cursor, and the phase on overflow (R203). -/
theorem storeBit_frame (c : Cfg) (r : RxContext) (b : Bool) :
    ∃ phase buf n i, storeBit c r b = { r with phase := phase, buf := buf, bufLen := n, bitCursor := i } ∧
      (phase = r.phase ∨ phase = .errorOverflow) := by
  unfold storeBit
  split
  · exact ⟨.errorOverflow, r.buf, r.bufLen, r.bitCursor, rfl, .inr rfl⟩
  · exact ⟨r.phase, _, _, _, rfl, .inl rfl⟩

/-- A stored bit is read back, and every other bit of the buffer is as before (R203). -/
theorem bitOf_storeBit {b : Bool} (h : r.bufLen < c.bufCap) (i : Nat) (j : Fin 8) :
    bitOf (bufByte c (storeBit c r b).buf i) j =
      if i = r.bufLen ∧ j = r.bitCursor then b else bitOf (bufByte c r.buf i) j := by
  rw [storeBit_fits h]
  simp only [bufByte_write _ h]
  by_cases hi : i = r.bufLen
  · simp [hi, bitOf_putBit]
  · simp [hi]

/-- A byte of the buffer below the one being filled is kept by a stored bit (R203). -/
theorem storeBit_keeps {b : Bool} (i : Nat) (hi : i < r.bufLen) : bufByte c (storeBit c r b).buf i = bufByte c r.buf i := by
  unfold storeBit
  split
  · rfl
  · simp only [bufByte_write _ (by omega : r.bufLen < c.bufCap), if_neg (Nat.ne_of_lt hi)]

theorem nextByte_le (n : Nat) (i : Fin 8) : n ≤ nextByte n i ∧ nextByte n i ≤ n + 1 := by
  unfold nextByte; split <;> omega

/-- The frame check passes only on a length byte that fits the bytes received (R122). -/
theorem frameOk_length (h : frameOk c r = true) :
    3 ≤ r.bufLen ∧ (bufByte c r.buf 1).toNat + 3 = r.bufLen := by
  unfold frameOk at h
  split at h
  · simp at h
  · split at h
    · simp at h
    · split at h
      · simp at h
      · split at h
        · simp at h
        · omega

/-- Validation answers ready or discards; it looks at nothing of the edge tracker (R123). -/
theorem validate_cases (c : Cfg) (r : RxContext) :
    (frameOk c r = true ∧ validate c r = { r with phase := .messageReady }) ∨
    (frameOk c r = false ∧ validate c r = { r with phase := .listening, bufLen := 0, bitCursor := 7 }) := by
  cases h : frameOk c r with
  | true => exact .inl ⟨rfl, by unfold validate; rw [if_pos (show frameOk c { r with phase := .validating } = true from h)]⟩
  | false =>
    exact .inr ⟨rfl, by
      unfold validate
      rw [if_neg (show ¬frameOk c { r with phase := .validating } = true from by
        show ¬frameOk c r = true
        simp [h])]⟩

theorem clearTracker_storeBit (c : Cfg) (r : RxContext) (b : Bool) : clearTracker (storeBit c r b) = storeBit c (clearTracker r) b := by
  unfold storeBit
  by_cases h : c.bufCap ≤ r.bufLen
  · rw [if_pos h, if_pos (show c.bufCap ≤ (clearTracker r).bufLen from h)]; rfl
  · rw [if_neg h, if_neg (show ¬c.bufCap ≤ (clearTracker r).bufLen from h)]; rfl

theorem clearTracker_validateIfListening (c : Cfg) (r : RxContext) :
    clearTracker (validateIfListening c r) = validateIfListening c (clearTracker r) := by
  unfold validateIfListening
  by_cases h : r.phase = .listening
  · rw [if_pos h, if_pos (show (clearTracker r).phase = .listening from h)]
    rcases validate_cases c r with ⟨hf, hv⟩ | ⟨hf, hv⟩ <;>
      rcases validate_cases c (clearTracker r) with ⟨hg, hw⟩ | ⟨hg, hw⟩
    · rw [hv, hw]; rfl
    · exact absurd (hf.symm.trans hg) (by simp)
    · exact absurd (hf.symm.trans hg) (by simp)
    · rw [hv, hw]; rfl
  · rw [if_neg h, if_neg (show ¬(clearTracker r).phase = .listening from h)]

/-- Everything a time-out can do: the tracker cleared, after at most one bit and at most one validation (R197). -/
theorem timeout_cases (c : Cfg) (r : RxContext) :
    (r.pending = false ∧ timeout c r = clearTracker r) ∨
    (r.pending = true ∧ timeout c r = validateIfListening c (clearTracker r)) ∨
    (r.pending = true ∧ ∃ b, timeout c r = validateIfListening c (storeBit c (clearTracker r) b)) := by
  unfold timeout
  cases hp : r.pending with
  | false => simp
  | true =>
    refine .inr ?_
    simp only [if_true, true_and, clearTracker_validateIfListening]
    unfold classifyLone
    split
    · exact .inr ⟨true, by rw [clearTracker_storeBit]⟩
    · split
      · exact .inr ⟨false, by rw [clearTracker_storeBit]⟩
      · exact .inl rfl

/-- Everything a classified pair can do (R201). -/
theorem classifyPair_cases (c : Cfg) (r : RxContext) :
    classifyPair c r = beginFrame r ∨ (∃ b, classifyPair c r = storeBit c r b) ∨ classifyPair c r = r := by
  unfold classifyPair
  dsimp only
  split
  · exact .inl rfl
  · split
    · exact .inr (.inl ⟨true, rfl⟩)
    · split
      · exact .inr (.inl ⟨false, rfl⟩)
      · exact .inr (.inr rfl)

/-- Everything transition detection can do (R198). -/
theorem detect_cases (c : Cfg) (lvl : Level) (r : RxContext) :
    (lvl = r.prevLevel ∧ detect c lvl r = r) ∨
    (lvl ≠ r.prevLevel ∧ r.found = false ∧ detect c lvl r = { r with prevLevel := lvl, found := true, elapsed := 0 }) ∨
    (r.prevLevel = .high ∧ r.found = true ∧ lvl = .low ∧
      detect c lvl r = { r with prevLevel := .low, sampleHigh := r.elapsed, elapsed := 0, pending := true }) ∨
    (r.prevLevel = .low ∧ r.found = true ∧ lvl = .high ∧ r.pending = false ∧
      detect c lvl r = { r with prevLevel := .high, sampleLow := r.elapsed, elapsed := 0 }) ∨
    (r.prevLevel = .low ∧ r.found = true ∧ lvl = .high ∧ r.pending = true ∧
      detect c lvl r = classifyPair c { r with prevLevel := .high, sampleLow := r.elapsed, elapsed := 0, pending := false }) := by
  unfold detect
  by_cases h1 : lvl = r.prevLevel
  · exact .inl ⟨h1, if_pos h1⟩
  · rw [if_neg h1]
    cases hf : r.found with
    | false => exact .inr (.inl ⟨h1, rfl, by simp⟩)
    | true =>
      cases lvl with
      | low =>
        have : r.prevLevel = .high := by cases hp : r.prevLevel <;> simp_all
        exact .inr (.inr (.inl ⟨this, rfl, rfl, by simp⟩))
      | high =>
        have : r.prevLevel = .low := by cases hp : r.prevLevel <;> simp_all
        cases hp : r.pending with
        | false => exact .inr (.inr (.inr (.inl ⟨this, rfl, rfl, rfl, by simp⟩)))
        | true => exact .inr (.inr (.inr (.inr ⟨this, rfl, rfl, rfl, by simp⟩)))

/-- Everything a tick of a receiver can do (R196). -/
theorem rxTick_cases (c : Cfg) (lvl : Level) (r : RxContext) :
    (tracks r = false ∧ rxTick c lvl r = r) ∨
    (tracks r = true ∧ r.elapsed + c.tick < c.elapsedMax ∧
      rxTick c lvl r = detect c lvl { r with elapsed := r.elapsed + c.tick }) ∨
    (tracks r = true ∧ c.elapsedMax ≤ r.elapsed + c.tick ∧
      ∃ q, q = timeout c { r with elapsed := r.elapsed + c.tick } ∧
        (tracks q = true ∧ rxTick c lvl r = detect c lvl q ∨ tracks q = false ∧ rxTick c lvl r = q)) := by
  cases ht : tracks r with
  | false => exact .inl ⟨rfl, by simp [rxTick, ht]⟩
  | true =>
    refine .inr ?_
    simp only [rxTick, ht, if_true, timeoutIfDue]
    by_cases he : c.elapsedMax ≤ r.elapsed + c.tick
    · refine .inr ⟨trivial, he, _, rfl, ?_⟩
      simp only [he, if_true]
      cases hq : tracks (timeout c { r with elapsed := r.elapsed + c.tick }) <;> simp
    · refine .inl ⟨trivial, by omega, ?_⟩
      have h2 : tracks { r with elapsed := r.elapsed + c.tick } = true := ht
      simp [he, h2]

/-! The invariant of a receiver context. -/

theorem RxOk.not_inert (h : RxOk c r) (ht : tracks r = true) : r.life ≠ .inert := by
  intro hi
  have := h.inert hi
  rw [tracks_iff] at ht
  rcases ht with ht | ht <;> rw [ht] at this <;> simp at this

theorem RxOk.separated_of_tracks (h : RxOk c r) (ht : tracks r = true) : separated c r.profile = true := by
  rw [tracks_iff] at ht
  have := h.definitions (by rcases ht with ht | ht <;> simp [ht])
  cases hs : separated c r.profile with
  | true => rfl
  | false =>
    have := this.2 hs
    rcases ht with ht | ht <;> simp [ht] at this

/-- A context whose tracker only was changed, in range and with `pending` as R44 (5) says. -/
theorem RxOk.tracker (h : RxOk c r) {e x y : Nat} {f p : Bool} {l : Level} (he : e < c.elapsedMax)
    (hx : x < c.elapsedMax) (hy : y < c.elapsedMax) (hp : p = true → f = true ∧ l = .low) :
    RxOk c { r with elapsed := e, found := f, pending := p, sampleHigh := x, sampleLow := y, prevLevel := l } :=
  { h with pending := hp, elapsed := he, samples := ⟨hx, hy⟩ }

theorem RxOk.cleared (h : RxOk c r) (hc : 1 ≤ c.elapsedMax) (e : Nat) :
    RxOk c (clearTracker { r with elapsed := e }) :=
  h.tracker (by omega) (by omega) (by omega) (by simp)

theorem RxOk.begun (h : RxOk c r) (ht : tracks r = true) : RxOk c (beginFrame r) := by
  have hs := h.separated_of_tracks ht
  have hi := h.not_inert ht
  have hph : (beginFrame r).phase = .listening := by
    rw [tracks_iff] at ht
    rcases ht with ht | ht <;> simp [beginFrame, ht]
  exact
    { h with
      length := Nat.zero_le _
      settled := by rw [hph]; simp
      message := by rw [hph]; simp
      definitions := fun _ => by rw [hph]; show _ ↔ separated c r.profile = false; simp [hs]
      inert := fun hl => absurd hl hi }

theorem RxOk.stored (h : RxOk c r) (ht : tracks r = true) (b : Bool) : RxOk c (storeBit c r b) := by
  have hs := h.separated_of_tracks ht
  have hi := h.not_inert ht
  by_cases hf : r.bufLen < c.bufCap
  · rw [storeBit_fits hf]
    have hn := nextByte_le r.bufLen r.bitCursor
    exact
      { h with
        buffer := Memory.wf_write h.buffer hf _
        length := by show nextByte _ _ ≤ _; omega
        message := fun hm => by
          have hm := h.message hm
          simp only [bufByte_write _ hf]
          rw [if_neg (by omega)]
          omega }
  · rw [storeBit_full (by omega)]
    exact
      { h with
        settled := by simp
        message := by simp
        definitions := by simp
        inert := fun hl => absurd hl hi }

theorem RxOk.validated (h : RxOk c r) (hv : validCfg c) : RxOk c (validateIfListening c r) := by
  unfold validateIfListening
  split
  · rename_i hl
    have ht : tracks r = true := (tracks_iff r).2 (.inl hl)
    have hs := h.separated_of_tracks ht
    have hi := h.not_inert ht
    rcases validate_cases c r with ⟨hf, ho⟩ | ⟨hf, ho⟩ <;> rw [ho]
    · have hlen := frameOk_length hf
      have hcap := h.length
      exact
        { h with
          settled := by simp
          message := fun _ => by
            show (bufByte c r.buf 1).toNat ≤ c.maxPayload ∧ (bufByte c r.buf 1).toNat + 3 ≤ r.bufLen
            have := hv.bufCap_eq
            omega
          definitions := by simp [hs]
          inert := fun hl => absurd hl hi }
    · exact
        { h with
          length := Nat.zero_le _
          settled := by simp
          message := by simp
          definitions := by simp [hs]
          inert := fun hl => absurd hl hi }
  · exact h

theorem RxOk.timedOut (h : RxOk c r) (ht : tracks r = true) (hv : validCfg c) (e : Nat) :
    RxOk c (timeout c { r with elapsed := e }) := by
  have h0 := h.cleared hv.elapsedMax_pos e
  rcases timeout_cases c { r with elapsed := e } with ⟨-, ho⟩ | ⟨-, ho⟩ | ⟨-, b, ho⟩ <;> rw [ho]
  · exact h0
  · exact h0.validated hv
  · exact (h0.stored ht b).validated hv

theorem RxOk.classified (h : RxOk c r) (ht : tracks r = true) : RxOk c (classifyPair c r) := by
  rcases classifyPair_cases c r with ho | ⟨b, ho⟩ | ho <;> rw [ho]
  · exact h.begun ht
  · exact h.stored ht b
  · exact h

theorem RxOk.detected (h : RxOk c r) (ht : tracks r = true) (lvl : Level) : RxOk c (detect c lvl r) := by
  have hx := h.samples
  have he := h.elapsed
  have h0 : 0 < c.elapsedMax := by omega
  rcases detect_cases c lvl r with ⟨-, ho⟩ | ⟨hl, hf, ho⟩ | ⟨-, hf, rfl, ho⟩ | ⟨-, hf, rfl, hp, ho⟩ | ⟨-, hf, rfl, -, ho⟩ <;>
    rw [ho]
  · exact h
  · refine h.tracker (e := 0) h0 hx.1 hx.2 fun hp => ?_
    have := h.pending hp
    simp [hf] at this
  · exact h.tracker (e := 0) h0 he hx.2 fun _ => ⟨hf, rfl⟩
  · exact h.tracker (e := 0) h0 hx.1 he fun hp' => by simp [hp] at hp'
  · exact (h.tracker (e := 0) (p := false) (l := .high) h0 hx.1 he (by simp)).classified ht

/-- A tick keeps a receiver context as R44 says it is. -/
theorem RxOk.ticked (h : RxOk c r) (hv : validCfg c) (lvl : Level) : RxOk c (rxTick c lvl r) := by
  rcases rxTick_cases c lvl r with ⟨-, ho⟩ | ⟨ht, he, ho⟩ | ⟨ht, -, q, hq, ⟨hq', ho⟩ | ⟨-, ho⟩⟩ <;> rw [ho]
  · exact h
  · exact (h.tracker he h.samples.1 h.samples.2 h.pending).detected ht lvl
  · exact (hq ▸ h.timedOut ht hv _ : RxOk c q).detected hq' lvl
  · exact hq ▸ h.timedOut ht hv _

/-! What a tick leaves alone. -/

/-- A tick writes nothing of a receiver but its phase, its edge tracker and its reassembly state (R196). -/
theorem rxTick_frame (c : Cfg) (lvl : Level) (r : RxContext) :
    let q := rxTick c lvl r
    q.life = r.life ∧ q.pin = r.pin ∧ q.address = r.address ∧ q.channel = r.channel ∧ q.profile = r.profile := by
  have hst : ∀ (x : RxContext) (b : Bool), (storeBit c x b).life = x.life ∧ (storeBit c x b).pin = x.pin ∧
      (storeBit c x b).address = x.address ∧ (storeBit c x b).channel = x.channel ∧ (storeBit c x b).profile = x.profile := by
    intro x b
    obtain ⟨_, _, _, _, ho, -⟩ := storeBit_frame c x b
    rw [ho]
    exact ⟨rfl, rfl, rfl, rfl, rfl⟩
  have hv : ∀ x : RxContext, (validateIfListening c x).life = x.life ∧ (validateIfListening c x).pin = x.pin ∧
      (validateIfListening c x).address = x.address ∧ (validateIfListening c x).channel = x.channel ∧
      (validateIfListening c x).profile = x.profile := by
    intro x
    unfold validateIfListening
    split
    · rcases validate_cases c x with ⟨-, ho⟩ | ⟨-, ho⟩ <;> rw [ho] <;> exact ⟨rfl, rfl, rfl, rfl, rfl⟩
    · exact ⟨rfl, rfl, rfl, rfl, rfl⟩
  have hc : ∀ x : RxContext, (classifyPair c x).life = x.life ∧ (classifyPair c x).pin = x.pin ∧
      (classifyPair c x).address = x.address ∧ (classifyPair c x).channel = x.channel ∧
      (classifyPair c x).profile = x.profile := by
    intro x
    rcases classifyPair_cases c x with ho | ⟨b, ho⟩ | ho <;> rw [ho]
    · exact ⟨rfl, rfl, rfl, rfl, rfl⟩
    · exact hst x b
    · exact ⟨rfl, rfl, rfl, rfl, rfl⟩
  have hd : ∀ x : RxContext, (detect c lvl x).life = x.life ∧ (detect c lvl x).pin = x.pin ∧
      (detect c lvl x).address = x.address ∧ (detect c lvl x).channel = x.channel ∧
      (detect c lvl x).profile = x.profile := by
    intro x
    rcases detect_cases c lvl x with ⟨-, ho⟩ | ⟨-, -, ho⟩ | ⟨-, -, -, ho⟩ | ⟨-, -, -, -, ho⟩ | ⟨-, -, -, -, ho⟩ <;> rw [ho]
    · exact ⟨rfl, rfl, rfl, rfl, rfl⟩
    · exact ⟨rfl, rfl, rfl, rfl, rfl⟩
    · exact ⟨rfl, rfl, rfl, rfl, rfl⟩
    · exact ⟨rfl, rfl, rfl, rfl, rfl⟩
    · exact hc _
  have ht : ∀ x : RxContext, (timeout c x).life = x.life ∧ (timeout c x).pin = x.pin ∧
      (timeout c x).address = x.address ∧ (timeout c x).channel = x.channel ∧ (timeout c x).profile = x.profile := by
    intro x
    rcases timeout_cases c x with ⟨-, ho⟩ | ⟨-, ho⟩ | ⟨-, b, ho⟩ <;> rw [ho]
    · exact ⟨rfl, rfl, rfl, rfl, rfl⟩
    · exact hv _
    · obtain ⟨a1, a2, a3, a4, a5⟩ := hv (storeBit c (clearTracker x) b)
      obtain ⟨b1, b2, b3, b4, b5⟩ := hst (clearTracker x) b
      exact ⟨a1.trans b1, a2.trans b2, a3.trans b3, a4.trans b4, a5.trans b5⟩
  rcases rxTick_cases c lvl r with ⟨-, ho⟩ | ⟨-, -, ho⟩ | ⟨-, -, q, hq, ⟨-, ho⟩ | ⟨-, ho⟩⟩ <;> dsimp only <;> rw [ho]
  · exact ⟨rfl, rfl, rfl, rfl, rfl⟩
  · exact hd _
  · obtain ⟨a1, a2, a3, a4, a5⟩ := hd q
    obtain ⟨b1, b2, b3, b4, b5⟩ := hq ▸ ht _
    exact ⟨a1.trans b1, a2.trans b2, a3.trans b3, a4.trans b4, a5.trans b5⟩
  · exact hq ▸ ht _

/-- A receiver outside `Listening` and `MessageReady` is left as it is by a tick (R196). -/
theorem rxTick_idle {lvl : Level} (h : tracks r = false) : rxTick c lvl r = r := by simp [rxTick, h]

end Sys2Proof.Machine
end

