-- ==== Sys2Proof/Laws/Transmitting.lean ====
section
/-! SUPPORT. What the transmit state machine can do in a tick, and that it and an accepted `TX_SEND` keep a transmitter
context as R44 says it is. -/

namespace Sys2Proof.Machine

variable {c : Cfg} {t : TxContext}

theorem txTick_idle (h : t.phase ≠ .sending) : txTick c t = (t, []) := by simp [txTick, h]

/-- A half that is not over yet: one write of its level, and the elapsed time (R165). -/
theorem txTick_within (hp : t.phase = .sending)
    (he : t.elapsed + c.tick < if t.half = .high then durHigh t else durLow t) :
    txTick c t = ({ t with elapsed := t.elapsed + c.tick }, [t.half]) := by
  unfold txTick
  rw [if_pos hp]
  cases hh : t.half with
  | high =>
    simp only [hh, if_true] at he
    dsimp only
    rw [if_neg (by omega)]
  | low =>
    simp only [hh, reduceCtorEq, if_false] at he
    dsimp only
    rw [if_neg (by omega)]

/-- The last tick of a HIGH half (R165). -/
theorem txTick_high (hp : t.phase = .sending) (hh : t.half = .high) (he : durHigh t ≤ t.elapsed + c.tick) :
    txTick c t = ({ t with half := .low, elapsed := 0 }, [.high]) := by
  unfold txTick
  rw [if_pos hp, hh]
  dsimp only
  rw [if_pos he]

/-- The last tick of a LOW half with bits left: the next symbol is selected (R165). -/
theorem txTick_next (hp : t.phase = .sending) (hh : t.half = .low) (he : durLow t ≤ t.elapsed + c.tick)
    (hn : t.byteIndex ≠ t.bufLen) : txTick c t = (nextSymbol c t, [.low]) := by
  unfold txTick
  rw [if_pos hp, hh]
  dsimp only
  rw [if_pos he, if_neg hn]

/-- The last tick of a frame: the pin is written twice and the transmitter is `Idle` (R165). -/
theorem txTick_last (hp : t.phase = .sending) (hh : t.half = .low) (he : durLow t ≤ t.elapsed + c.tick)
    (hn : t.byteIndex = t.bufLen) :
    txTick c t = ({ t with elapsed := t.elapsed + c.tick, phase := .idle }, [.low, .low]) := by
  unfold txTick
  rw [if_pos hp, hh]
  dsimp only
  rw [if_pos he, if_pos hn]

/-- Everything a tick of a transmitter can do (R165). -/
theorem txTick_cases (c : Cfg) (t : TxContext) :
    (t.phase ≠ .sending ∧ txTick c t = (t, [])) ∨
    (t.phase = .sending ∧ (t.elapsed + c.tick < if t.half = .high then durHigh t else durLow t) ∧
      txTick c t = ({ t with elapsed := t.elapsed + c.tick }, [t.half])) ∨
    (t.phase = .sending ∧ t.half = .high ∧ durHigh t ≤ t.elapsed + c.tick ∧
      txTick c t = ({ t with half := .low, elapsed := 0 }, [.high])) ∨
    (t.phase = .sending ∧ t.half = .low ∧ durLow t ≤ t.elapsed + c.tick ∧ t.byteIndex ≠ t.bufLen ∧
      txTick c t = (nextSymbol c t, [.low])) ∨
    (t.phase = .sending ∧ t.half = .low ∧ durLow t ≤ t.elapsed + c.tick ∧ t.byteIndex = t.bufLen ∧
      txTick c t = ({ t with elapsed := t.elapsed + c.tick, phase := .idle }, [.low, .low])) := by
  by_cases hp : t.phase = .sending
  · refine .inr ?_
    by_cases he : t.elapsed + c.tick < if t.half = .high then durHigh t else durLow t
    · exact .inl ⟨hp, he, txTick_within hp he⟩
    · refine .inr ?_
      by_cases hh : t.half = .high
      · rw [if_pos hh] at he
        exact .inl ⟨hp, hh, by omega, txTick_high hp hh (by omega)⟩
      · have hl : t.half = .low := by cases h : t.half <;> simp_all
        rw [if_neg hh] at he
        by_cases hn : t.byteIndex = t.bufLen
        · exact .inr (.inr ⟨hp, hl, by omega, hn, txTick_last hp hl (by omega) hn⟩)
        · exact .inr (.inl ⟨hp, hl, by omega, hn, txTick_next hp hl (by omega) hn⟩)
  · exact .inl ⟨hp, txTick_idle hp⟩

/-- The level of every write of a tick is the level of the half the transmitter was in, and it writes exactly if it was
`Sending` (R68, R165). -/
theorem txTick_levels (c : Cfg) (t : TxContext) :
    ((txTick c t).2 = [] ↔ t.phase ≠ .sending) ∧ ∀ v ∈ (txTick c t).2, v = t.half := by
  rcases txTick_cases c t with ⟨hp, ho⟩ | ⟨hp, -, ho⟩ | ⟨hp, hh, -, ho⟩ | ⟨hp, hh, -, -, ho⟩ | ⟨hp, hh, -, -, ho⟩ <;>
    rw [ho] <;> simp_all

/-- A tick writes nothing of a transmitter but its phase and its frame progress (R165). -/
theorem txTick_frame (c : Cfg) (t : TxContext) :
    let u := (txTick c t).1
    u.life = t.life ∧ u.pin = t.pin ∧ u.id = t.id ∧ u.channel = t.channel ∧ u.profile = t.profile ∧
      u.buf = t.buf ∧ u.bufLen = t.bufLen := by
  rcases txTick_cases c t with ⟨-, ho⟩ | ⟨-, -, ho⟩ | ⟨-, -, -, ho⟩ | ⟨-, -, -, -, ho⟩ | ⟨-, -, -, -, ho⟩ <;>
    dsimp only <;> rw [ho] <;> exact ⟨rfl, rfl, rfl, rfl, rfl, rfl, rfl⟩

/-- A tick ends `Sending` only to `Idle`, and begins nothing (R165). -/
theorem txTick_phase (c : Cfg) (t : TxContext) :
    (txTick c t).1.phase = t.phase ∨ t.phase = .sending ∧ (txTick c t).1.phase = .idle := by
  rcases txTick_cases c t with ⟨-, ho⟩ | ⟨-, -, ho⟩ | ⟨-, -, -, ho⟩ | ⟨-, -, -, -, ho⟩ | ⟨hp, -, -, -, ho⟩ <;> rw [ho]
  · exact .inl rfl
  · exact .inl rfl
  · exact .inl rfl
  · exact .inl rfl
  · exact .inr ⟨hp, rfl⟩

theorem Profile.InRange.dur_le (h : t.profile.InRange c) : durHigh t ≤ c.maxTime ∧ durLow t ≤ c.maxTime := by
  unfold durHigh durLow
  have h1 := h.startHigh.2
  have h2 := h.startLow.2
  have h3 := h.high.2
  have h4 := h.low.2
  cases t.sym <;> exact ⟨by assumption, by assumption⟩

theorem nextByte_bounds (n : Nat) (i : Fin 8) : n ≤ nextByte n i ∧ nextByte n i ≤ n + 1 := by
  unfold nextByte; split <;> omega

/-- A tick keeps a transmitter context as R44 says it is. -/
theorem TxOk.ticked (h : TxOk c t) : TxOk c (txTick c t).1 := by
  have hd := h.profile.dur_le
  have hcur := h.cursor
  have hnd : t.phase = .sending → separated c t.profile = true := fun hp => by
    cases hs : separated c t.profile with
    | true => rfl
    | false => rw [h.definitions.2 hs] at hp; simp at hp
  rcases txTick_cases c t with ⟨-, ho⟩ | ⟨hp, he, ho⟩ | ⟨hp, -, -, ho⟩ | ⟨hp, -, -, hn, ho⟩ | ⟨hp, -, -, -, ho⟩ <;> rw [ho]
  · exact h
  · exact { h with elapsed := fun _ => by show t.elapsed + c.tick ≤ _; split at he <;> omega }
  · exact { h with elapsed := fun _ => Nat.zero_le _ }
  · have hb := nextByte_bounds t.byteIndex t.bitIndex
    exact
      { h with
        cursor := by show nextByte _ _ ≤ t.bufLen; omega
        elapsed := fun _ => Nat.zero_le _ }
  · exact
      { h with
        sending := by simp
        elapsed := by simp
        definitions := by simp [hnd hp]
        inert := by simp }

/-- An accepted `TX_SEND` keeps a transmitter context as R44 says it is (R160). -/
theorem TxOk.framed (h : TxOk c t) (hv : validCfg c) (hl : t.life = .active) (hp : t.phase ≠ .errorDefinitions) {payload : List Byte}
    (hn : payload.length ≤ c.maxPayload) : TxOk c (startFrame t payload) := by
  have hs : separated c t.profile = true := by
    cases hs : separated c t.profile with
    | true => rfl
    | false => exact absurd (h.definitions.2 hs) hp
  have hcap := hv.bufCap_eq
  exact
    { h with
      buffer := Memory.wf_writeBytes h.buffer _ (by simp [frameBytes]; omega)
      length := .inr (by simp only [startFrame]; omega)
      cursor := Nat.zero_le _
      sending := fun _ => by simp only [startFrame]; omega
      elapsed := fun _ => Nat.zero_le _
      definitions := by simp [startFrame, hs]
      inert := fun hi => by simp [startFrame, hl] at hi }

/-! Several ticks. -/

theorem txAfter_add (c : Cfg) (m n : Nat) (t : TxContext) : txAfter c (m + n) t = txAfter c n (txAfter c m t) := by
  induction m generalizing t with
  | zero => simp [txAfter]
  | succ m ih => rw [Nat.succ_add, txAfter, ih, txAfter]

/-- The level a pin holds after a run of ticks of a transmitter that stood at `l` before it (R165). -/
theorem txWave_add (c : Cfg) (m n : Nat) (l : Level) (t : TxContext) :
    txWave c (m + n) l t = txWave c m l t ++ txWave c n ((txWave c m l t).getLastD l) (txAfter c m t) := by
  induction m generalizing t l with
  | zero => simp [txWave, txAfter]
  | succ m ih =>
    rw [Nat.succ_add, txWave, ih, txWave, txAfter, List.cons_append]
    congr 3
    simp only [List.getLastD_cons]

end Sys2Proof.Machine
end

