-- ==== Sys2Proof/Laws/Dispatching.lean ====
section
/-! SUPPORT. What one advance, and a whole dispatch pass, does to every part of the state (R252, R253). -/

namespace Sys2Proof.Machine

variable (s : State) (h : Handle)

/-! One advance. -/

theorem txAdvance_txAt (k : Handle) :
    (txAdvance s h).txAt k = if k = h then (txTick s.cfg (s.txAt h)).1 else s.txAt k := by
  simp [txAdvance, State.setTx_txAt]

@[simp] theorem txAdvance_rxAt (k : Handle) : (txAdvance s h).rxAt k = s.rxAt k := by simp [txAdvance]
@[simp] theorem txAdvance_cfg : (txAdvance s h).cfg = s.cfg := by simp [txAdvance]
@[simp] theorem txAdvance_tickRunning : (txAdvance s h).tickRunning = s.tickRunning := by simp [txAdvance]
@[simp] theorem txAdvance_txReg : (txAdvance s h).txReg = s.txReg := by simp [txAdvance]
@[simp] theorem txAdvance_rxReg : (txAdvance s h).rxReg = s.rxReg := by simp [txAdvance]
@[simp] theorem txAdvance_rx : (txAdvance s h).rx = s.rx := by simp [txAdvance]
@[simp] theorem txAdvance_payloadPort : (txAdvance s h).payloadPort = s.payloadPort := by simp [txAdvance]
@[simp] theorem txAdvance_inputs : (txAdvance s h).inputs = s.inputs := by simp [txAdvance]
@[simp] theorem txAdvance_response : (txAdvance s h).out.response = s.out.response := by
  simp [txAdvance, State.pinWrites_out]

/-- The events of an advance are writes of the transmitter's pin (R68). -/
theorem txAdvance_events : (txAdvance s h).out.events =
    s.out.events ++ (txTick s.cfg (s.txAt h)).2.map (Event.pinWrite (s.txAt h).pin) := by
  simp [txAdvance, State.pinWrites_out]

/-- An advance of a `Sending` transmitter leaves its line at the level of the half it was in; no other line changes. -/
theorem txAdvance_lineAt (p : Pin) : (txAdvance s h).lineAt p =
    if p = (s.txAt h).pin ∧ (s.txAt h).phase = .sending then (s.txAt h).half else s.lineAt p := by
  simp only [txAdvance, State.pinWrites_lineAt, State.setTx_lineAt]
  rcases txTick_cases s.cfg (s.txAt h) with
      ⟨hp, ho⟩ | ⟨hp, -, ho⟩ | ⟨hp, hh, -, ho⟩ | ⟨hp, hh, -, -, ho⟩ | ⟨hp, hh, -, -, ho⟩ <;>
    rw [ho] <;> by_cases hq : p = (s.txAt h).pin <;> simp_all

theorem rxAdvance_rxAt (k : Handle) : (rxAdvance s h).rxAt k =
    if k = h then rxTick s.cfg (s.lineAt (s.rxAt h).pin) (s.rxAt h) else s.rxAt k := by
  simp [rxAdvance, State.setRx_rxAt]

/-- An advance of a receiver writes nothing but its context (R233). -/
theorem rxAdvance_eq : rxAdvance s h = s.setRx h (rxTick s.cfg (s.lineAt (s.rxAt h).pin) (s.rxAt h)) := rfl

@[simp] theorem rxAdvance_txAt (k : Handle) : (rxAdvance s h).txAt k = s.txAt k := rfl
@[simp] theorem rxAdvance_lineAt (p : Pin) : (rxAdvance s h).lineAt p = s.lineAt p := rfl
@[simp] theorem rxAdvance_cfg : (rxAdvance s h).cfg = s.cfg := rfl

/-! A pass over a list of handles. -/

/-- What a pass over transmitters never touches. -/
theorem foldl_txAdvance_frame (l : List Handle) :
    let t := l.foldl txAdvance s
    t.cfg = s.cfg ∧ t.tickRunning = s.tickRunning ∧ t.txReg = s.txReg ∧ t.rxReg = s.rxReg ∧ t.rx = s.rx ∧
      t.payloadPort = s.payloadPort ∧ t.inputs = s.inputs ∧ t.out.response = s.out.response := by
  induction l generalizing s with
  | nil => simp
  | cons k l ih =>
    have := ih (txAdvance s k)
    simpa using this

/-- Every transmitter of the list is advanced once, and no other context is touched. -/
theorem foldl_txAdvance_txAt (l : List Handle) (hd : l.Nodup) (k : Handle) :
    (l.foldl txAdvance s).txAt k = if k ∈ l then (txTick s.cfg (s.txAt k)).1 else s.txAt k := by
  induction l generalizing s with
  | nil => simp
  | cons x l ih =>
    obtain ⟨h1, h2⟩ := List.nodup_cons.1 hd
    rw [List.foldl_cons, ih _ h2, txAdvance_txAt, txAdvance_cfg]
    by_cases hk : k = x
    · subst hk; simp [h1]
    · simp [hk]

/-- A line that no `Sending` transmitter of the list is on keeps its level. -/
theorem foldl_txAdvance_line_kept (l : List Handle) (hd : l.Nodup) (p : Pin)
    (hp : ∀ k ∈ l, (s.txAt k).pin = p → (s.txAt k).phase ≠ .sending) :
    (l.foldl txAdvance s).lineAt p = s.lineAt p := by
  induction l generalizing s with
  | nil => rfl
  | cons x l ih =>
    obtain ⟨h1, h2⟩ := List.nodup_cons.1 hd
    rw [List.foldl_cons, ih _ h2, txAdvance_lineAt, if_neg]
    · rintro ⟨e, hs⟩
      exact hp x (by simp) e.symm hs
    · intro k hk
      have hne : k ≠ x := fun e => h1 (e ▸ hk)
      rw [txAdvance_txAt, if_neg hne]
      exact hp k (by simp [hk])

/-- The last `Sending` transmitter on a line sets its level (R70). -/
theorem foldl_txAdvance_line_last (before after : List Handle) (hd : (before ++ h :: after).Nodup)
    (hs : (s.txAt h).phase = .sending)
    (ha : ∀ k ∈ after, (s.txAt k).pin = (s.txAt h).pin → (s.txAt k).phase ≠ .sending) :
    ((before ++ h :: after).foldl txAdvance s).lineAt (s.txAt h).pin = (s.txAt h).half := by
  obtain ⟨hb, hc, hdis⟩ := List.nodup_append.1 hd
  obtain ⟨hna, hda⟩ := List.nodup_cons.1 hc
  rw [List.foldl_append, List.foldl_cons]
  have hu : ∀ k, k ∉ before → (before.foldl txAdvance s).txAt k = s.txAt k := fun k hk => by
    rw [foldl_txAdvance_txAt s before hb, if_neg hk]
  have hnb : h ∉ before := fun hm => hdis h hm h (by simp) rfl
  rw [foldl_txAdvance_line_kept _ _ hda]
  · rw [txAdvance_lineAt, hu h hnb, if_pos ⟨rfl, hs⟩]
  · intro k hk
    have hkh : k ≠ h := fun e => hna (e ▸ hk)
    have hkb : k ∉ before := fun hm => hdis k hm k (by simp [hk]) rfl
    rw [txAdvance_txAt, if_neg hkh, hu k hkb]
    exact ha k hk

/-- Every receiver of the list is advanced once with the level of its line, and nothing else is touched. -/
theorem foldl_rxAdvance_rxAt (l : List Handle) (hd : l.Nodup) (k : Handle) : (l.foldl rxAdvance s).rxAt k =
    if k ∈ l then rxTick s.cfg (s.lineAt (s.rxAt k).pin) (s.rxAt k) else s.rxAt k := by
  induction l generalizing s with
  | nil => simp
  | cons x l ih =>
    obtain ⟨h1, h2⟩ := List.nodup_cons.1 hd
    rw [List.foldl_cons, ih _ h2, rxAdvance_rxAt, rxAdvance_cfg, rxAdvance_lineAt]
    by_cases hk : k = x
    · subst hk; simp [h1]
    · simp [hk]

/-- A pass over receivers leaves a state that differs in receiver contexts only (R233). -/
theorem foldl_rxAdvance_frame (l : List Handle) : ∃ rx, l.foldl rxAdvance s = { s with rx := rx } := by
  induction l generalizing s with
  | nil => exact ⟨s.rx, rfl⟩
  | cons x l ih =>
    obtain ⟨rx, e⟩ := ih (rxAdvance s x)
    exact ⟨rx, by rw [List.foldl_cons, e]; rfl⟩

/-! The dispatch pass. -/

theorem execTick_stopped (hr : s.tickRunning = false) : execTick s = .next s.quiet := by simp [execTick, hr]

theorem execTick_running (hr : s.tickRunning = true) : execTick s = .next (dispatchPass s.quiet) := by
  simp [execTick, hr]

/-- The state after the transmitters of a pass, and then a change of the receiver contexts alone (R252). -/
theorem dispatchPass_eq : ∃ rx, dispatchPass s = { advanceTransmitters s with rx := rx } :=
  foldl_rxAdvance_frame _ _

theorem dispatchPass_frame :
    let t := dispatchPass s
    t.cfg = s.cfg ∧ t.tickRunning = s.tickRunning ∧ t.txReg = s.txReg ∧ t.rxReg = s.rxReg ∧
      t.payloadPort = s.payloadPort ∧ t.inputs = s.inputs ∧ t.out.response = s.out.response := by
  obtain ⟨rx, e⟩ := dispatchPass_eq s
  obtain ⟨h1, h2, h3, h4, -, h6, h7, h8⟩ := foldl_txAdvance_frame s s.txReg.live
  dsimp only
  rw [e]
  exact ⟨h1, h2, h3, h4, h6, h7, h8⟩

theorem dispatchPass_txAt (hd : s.txReg.live.Nodup) (k : Handle) :
    (dispatchPass s).txAt k = if k ∈ s.txReg.live then (txTick s.cfg (s.txAt k)).1 else s.txAt k := by
  obtain ⟨rx, e⟩ := dispatchPass_eq s
  rw [e]
  exact foldl_txAdvance_txAt s _ hd k

theorem dispatchPass_lineAt (p : Pin) : (dispatchPass s).lineAt p = (advanceTransmitters s).lineAt p := by
  obtain ⟨rx, e⟩ := dispatchPass_eq s
  rw [e]
  rfl

theorem dispatchPass_rxAt (hd : s.rxReg.live.Nodup) (k : Handle) : (dispatchPass s).rxAt k =
    if k ∈ s.rxReg.live then rxTick s.cfg ((dispatchPass s).lineAt (s.rxAt k).pin) (s.rxAt k) else s.rxAt k := by
  obtain ⟨h1, h2, h3, h4, h5, h6, h7, h8⟩ := foldl_txAdvance_frame s s.txReg.live
  have hr : ∀ j, (advanceTransmitters s).rxAt j = s.rxAt j := fun j => by
    simp only [State.rxAt, advanceTransmitters, h5]
  rw [dispatchPass_lineAt]
  unfold dispatchPass advanceReceivers
  rw [show (advanceTransmitters s).rxReg = s.rxReg from h4, foldl_rxAdvance_rxAt _ _ hd, hr,
    show (advanceTransmitters s).cfg = s.cfg from h1]

end Sys2Proof.Machine
end

