-- ==== Sys2Proof/Laws/Invariants.lean ====
section
/-! SUPPORT. How the invariant of R44 passes through the updates of the state: what it looks at, one context replaced, a
context admitted to or evicted from its registry, and the reset values. -/

namespace Sys2Proof.Machine

variable {s t : State}

/-- The invariant looks at the configuration, the registries, the contexts and the tick source only. -/
theorem StateOk.congr (hs : StateOk s) (h1 : t.cfg = s.cfg) (h2 : t.tickRunning = s.tickRunning) (h3 : t.txReg = s.txReg)
    (h4 : t.rxReg = s.rxReg) (h5 : ∀ k, t.txAt k = s.txAt k) (h6 : ∀ k, t.rxAt k = s.rxAt k) : StateOk t where
  cfg := h1 ▸ hs.cfg
  txCount := by rw [h1, h3]; exact hs.txCount
  rxCount := by rw [h1, h4]; exact hs.rxCount
  tx k := by rw [h1, h5]; exact hs.tx k
  rx k := by rw [h1, h6]; exact hs.rx k
  txDistinct := h3 ▸ hs.txDistinct
  txMember k := by rw [h3, h5]; exact hs.txMember k
  txExists k := by rw [h1, h5]; exact hs.txExists k
  rxDistinct := h4 ▸ hs.rxDistinct
  rxMember k := by rw [h4, h6]; exact hs.rxMember k
  rxExists k := by rw [h1, h6]; exact hs.rxExists k
  txStopped hr k := by rw [h5]; exact hs.txStopped (h2 ▸ hr) k
  rxStopped hr k := by rw [h6]; exact hs.rxStopped (h2 ▸ hr) k

/-- A command's answer does not touch the invariant. -/
theorem StateOk.respond (hs : StateOk s) (st : Status) (n : Nat) (d : List Byte) : StateOk (s.respond st n d) :=
  hs.congr rfl rfl rfl rfl (fun _ => rfl) (fun _ => rfl)

theorem StateOk.quiet (hs : StateOk s) : StateOk s.quiet := hs.congr rfl rfl rfl rfl (fun _ => rfl) (fun _ => rfl)

theorem StateOk.pinWrite (hs : StateOk s) (p : Pin) (v : Level) : StateOk (s.pinWrite p v) :=
  hs.congr rfl rfl rfl rfl (fun _ => rfl) (fun _ => rfl)

theorem StateOk.pinConfigure (hs : StateOk s) (p : Pin) (dir : Direction) : StateOk (s.pinConfigure p dir) :=
  hs.congr rfl rfl rfl rfl (fun _ => rfl) (fun _ => rfl)

/-- With the tick source running the two clauses about a stopped engine say nothing (R44 (8)). -/
theorem StateOk.startTick (hs : StateOk s) : StateOk s.startTick where
  cfg := by simpa using hs.cfg
  txCount := by simpa using hs.txCount
  rxCount := by simpa using hs.rxCount
  tx k := by simpa using hs.tx k
  rx k := by simpa using hs.rx k
  txDistinct := by simpa using hs.txDistinct
  txMember k := by simpa using hs.txMember k
  txExists k := by simpa using hs.txExists k
  rxDistinct := by simpa using hs.rxDistinct
  rxMember k := by simpa using hs.rxMember k
  rxExists k := by simpa using hs.rxExists k
  txStopped hr := by simp at hr
  rxStopped hr := by simp at hr

/-- A transmitter context replaced by one of the same `life`. -/
theorem StateOk.setTx (hs : StateOk s) {h : Handle} {x : TxContext} (ok : TxOk s.cfg x) (hl : x.life = (s.txAt h).life)
    (hr : s.tickRunning = false → x.phase ≠ .sending) : StateOk (s.setTx h x) where
  cfg := hs.cfg
  txCount := hs.txCount
  rxCount := hs.rxCount
  tx k := by
    rw [State.setTx_txAt]
    split
    · exact ok
    · exact hs.tx k
  rx k := hs.rx k
  txDistinct := hs.txDistinct
  txMember k := by
    rw [State.setTx_txAt]
    split
    · rename_i e
      rw [hl, e]
      exact hs.txMember h
    · exact hs.txMember k
  txExists k := by
    rw [State.setTx_txAt]
    split
    · rename_i e
      rw [hl, e]
      exact hs.txExists h
    · exact hs.txExists k
  rxDistinct := hs.rxDistinct
  rxMember k := hs.rxMember k
  rxExists k := hs.rxExists k
  txStopped h0 k := by
    rw [State.setTx_txAt]
    split
    · exact hr h0
    · exact hs.txStopped h0 k
  rxStopped h0 k := hs.rxStopped h0 k

/-- A receiver context replaced by one of the same `life`. -/
theorem StateOk.setRx (hs : StateOk s) {h : Handle} {x : RxContext} (ok : RxOk s.cfg x) (hl : x.life = (s.rxAt h).life)
    (hr : s.tickRunning = false → x.phase ≠ .listening ∧ x.phase ≠ .messageReady) : StateOk (s.setRx h x) where
  cfg := hs.cfg
  txCount := hs.txCount
  rxCount := hs.rxCount
  tx k := hs.tx k
  rx k := by
    rw [State.setRx_rxAt]
    split
    · exact ok
    · exact hs.rx k
  txDistinct := hs.txDistinct
  txMember k := hs.txMember k
  txExists k := hs.txExists k
  rxDistinct := hs.rxDistinct
  rxMember k := by
    rw [State.setRx_rxAt]
    split
    · rename_i e
      rw [hl, e]
      exact hs.rxMember h
    · exact hs.rxMember k
  rxExists k := by
    rw [State.setRx_rxAt]
    split
    · rename_i e
      rw [hl, e]
      exact hs.rxExists h
    · exact hs.rxExists k
  txStopped h0 k := hs.txStopped h0 k
  rxStopped h0 k := by
    rw [State.setRx_rxAt]
    split
    · exact hr h0
    · exact hs.rxStopped h0 k

/-- A transmitter context replaced and the tick source started: the context may be `Sending` (R44 (8), R160). -/
theorem StateOk.setTxStarted (hs : StateOk s) {h : Handle} {x : TxContext} (ok : TxOk s.cfg x)
    (hl : x.life = (s.txAt h).life) : StateOk (s.setTx h x).startTick := by
  have h1 := (hs.startTick).setTx (h := h) (x := x) (by simpa using ok) (by simpa using hl) (by simp)
  refine h1.congr (by simp) (by simp) (by simp) (by simp) (fun k => ?_) (fun k => by simp)
  simp [State.setTx_txAt]

/-- A receiver context replaced and the tick source started: the context may be `Listening` (R44 (8), R180). -/
theorem StateOk.setRxStarted (hs : StateOk s) {h : Handle} {x : RxContext} (ok : RxOk s.cfg x)
    (hl : x.life = (s.rxAt h).life) : StateOk (s.setRx h x).startTick := by
  have h1 := (hs.startTick).setRx (h := h) (x := x) (by simpa using ok) (by simpa using hl) (by simp)
  refine h1.congr (by simp) (by simp) (by simp) (by simp) (fun k => by simp) (fun k => ?_)
  simp [State.setRx_rxAt]

/-- A transmitter context replaced together with the registry, which lists the handle exactly if the new context is
`Active` and every other handle as before. -/
theorem StateOk.changeTx (hs : StateOk s) {h : Handle} {x : TxContext} {g : Registry}
    (ok : TxOk s.cfg x) (hc : g.count.val ≤ s.cfg.maxTransmitters) (hd : g.live.Nodup) (hm : h ∈ g.live ↔ x.life = .active)
    (ho : ∀ k, k ≠ h → (k ∈ g.live ↔ k ∈ s.txReg.live)) (he : x.life ≠ .free → h.toNat < s.cfg.nTxCtx)
    (hr : x.phase ≠ .sending) : StateOk ({ s with txReg := g }.setTx h x) where
  cfg := hs.cfg
  txCount := hc
  rxCount := hs.rxCount
  tx k := by
    rw [State.setTx_txAt]
    split
    · exact ok
    · exact hs.tx k
  rx k := hs.rx k
  txDistinct := hd
  txMember k := by
    rw [State.setTx_txAt]
    split
    · rename_i e
      rw [e]
      exact hm
    · rename_i e
      exact (ho k e).trans (hs.txMember k)
  txExists k := by
    rw [State.setTx_txAt]
    split
    · rename_i e
      rw [e]
      exact he
    · exact hs.txExists k
  rxDistinct := hs.rxDistinct
  rxMember k := hs.rxMember k
  rxExists k := hs.rxExists k
  txStopped h0 k := by
    rw [State.setTx_txAt]
    split
    · exact hr
    · exact hs.txStopped h0 k
  rxStopped h0 k := hs.rxStopped h0 k

/-- A receiver context replaced together with the registry, which lists the handle exactly if the new context is
`Active` and every other handle as before. -/
theorem StateOk.changeRx (hs : StateOk s) {h : Handle} {x : RxContext} {g : Registry}
    (ok : RxOk s.cfg x) (hc : g.count.val ≤ s.cfg.maxReceivers) (hd : g.live.Nodup) (hm : h ∈ g.live ↔ x.life = .active)
    (ho : ∀ k, k ≠ h → (k ∈ g.live ↔ k ∈ s.rxReg.live)) (he : x.life ≠ .free → h.toNat < s.cfg.nRxCtx)
    (hr : x.phase ≠ .listening ∧ x.phase ≠ .messageReady) : StateOk ({ s with rxReg := g }.setRx h x) where
  cfg := hs.cfg
  txCount := hs.txCount
  rxCount := hc
  tx k := hs.tx k
  rx k := by
    rw [State.setRx_rxAt]
    split
    · exact ok
    · exact hs.rx k
  txDistinct := hs.txDistinct
  txMember k := hs.txMember k
  txExists k := hs.txExists k
  rxDistinct := hd
  rxMember k := by
    rw [State.setRx_rxAt]
    split
    · rename_i e
      rw [e]
      exact hm
    · rename_i e
      exact (ho k e).trans (hs.rxMember k)
  rxExists k := by
    rw [State.setRx_rxAt]
    split
    · rename_i e
      rw [e]
      exact he
    · exact hs.rxExists k
  txStopped h0 k := hs.txStopped h0 k
  rxStopped h0 k := by
    rw [State.setRx_rxAt]
    split
    · exact hr
    · exact hs.rxStopped h0 k

/-! The reset values. -/

variable {c : Cfg}

/-- The default profile is in range (R11 (4)). -/
theorem Profile.default_inRange (hc : validCfg c) : (Profile.default c).InRange c := by
  obtain ⟨_, _, _, _, _, _, _, h1, h2, h3, h4, h5, h6, h7, h8, _⟩ := hc
  exact ⟨⟨h1, h2⟩, ⟨h3, h4⟩, ⟨h5, h6⟩, ⟨h7, h8⟩⟩

/-- The default profile is separated (R11 (5)). -/
theorem Profile.default_separated (hc : validCfg c) : separated c (Profile.default c) = true := by
  obtain ⟨_, _, _, _, _, _, _, _, _, _, _, _, _, _, _, h, _⟩ := hc
  simp [separated, Profile.default, h]

/-- A fresh transmitter context, with any pin and any `life`, is as R44 says (R46). -/
theorem TxOk.fresh (hc : validCfg c) (life : Life) (pin : Pin) :
    TxOk c { attachedTx c pin with life := life } := by
  have hs := Profile.default_separated hc
  exact
    { profile := Profile.default_inRange hc
      buffer := Memory.wf_nil
      length := .inl rfl
      cursor := Nat.le_refl _
      sending := by simp [attachedTx, restTx, hs]
      elapsed := fun _ => Nat.zero_le _
      definitions := by simp [attachedTx, restTx, TxContext.fresh, hs]
      inert := by simp [attachedTx, restTx, hs] }

/-- A fresh receiver context, with any pin, any address but 0 and any `life`, is as R44 says (R46). -/
theorem RxOk.fresh (hc : validCfg c) (life : Life) (pin : Pin) {address : Nibble}
    (ha : life ≠ .free → address ≠ 0) : RxOk c { attachedRx c pin address with life := life } := by
  have hs := Profile.default_separated hc
  have h0 : 0 < c.elapsedMax := by have := hc.2.2.2.2.2.2.1; omega
  exact
    { profile := Profile.default_inRange hc
      buffer := Memory.wf_nil
      length := Nat.zero_le _
      settled := by simp [attachedRx, restRx, hs]
      message := by simp [attachedRx, restRx, hs]
      pending := by simp [attachedRx, RxContext.fresh]
      elapsed := h0
      samples := ⟨h0, h0⟩
      definitions := by simp [attachedRx, restRx, RxContext.fresh, hs]
      inert := by simp [attachedRx, restRx, hs]
      address := ha }

/-- A context that was never attached is the fresh one (R46). -/
theorem attachedTx_free (hc : validCfg c) : { attachedTx c 0 with life := .free } = TxContext.fresh c := by
  simp [attachedTx, restTx, Profile.default_separated hc, TxContext.fresh]

theorem attachedRx_free (hc : validCfg c) : { attachedRx c 0 0 with life := .free } = RxContext.fresh c := by
  simp [attachedRx, restRx, Profile.default_separated hc, RxContext.fresh]

/-- The buffers of the state after reset are in canonical form. -/
theorem reset_buffers_wf (h : Handle) :
    (State.reset.txAt h).buf.wf State.reset.cfg ∧ (State.reset.rxAt h).buf.wf State.reset.cfg := by
  unfold State.reset
  rw [State.resetWith_txAt, State.resetWith_rxAt]
  exact ⟨Memory.wf_nil, Memory.wf_nil⟩

/-! Contexts the commands write. -/

/-- A profile in range replaced, and the context at rest (R132). -/
theorem TxOk.rested {x : TxContext} {p : Profile} (h : TxOk c x) (hp : p.InRange c) :
    TxOk c { x with profile := p, phase := restTx c p } :=
  { h with
    profile := hp
    sending := fun e => absurd e restTx_ne_sending
    elapsed := fun e => absurd e restTx_ne_sending
    definitions := restTx_definitions
    inert := fun _ => restTx_ne_sending }

/-- The stop of a transmitter (R152). -/
theorem TxOk.stopped {x : TxContext} (h : TxOk c x) : TxOk c { x with phase := stoppedTxPhase x.phase } := by
  have hp := stoppedTxPhase_cases x.phase
  exact
    { h with
      sending := by rcases hp with ⟨-, e⟩ | ⟨-, e⟩ <;> simp [e]
      elapsed := by rcases hp with ⟨-, e⟩ | ⟨-, e⟩ <;> simp [e]
      definitions := by
        have := h.definitions
        rcases hp with ⟨e1, e⟩ | ⟨e1, e⟩ <;> simp_all
      inert := fun _ => by rcases hp with ⟨-, e⟩ | ⟨-, e⟩ <;> simp [e] }

/-- A profile in range stored in a receiver, and the receiver at rest unless it overflowed (R135, R138). -/
theorem RxOk.rested {x : RxContext} {p : Profile} (h : RxOk c x) (hl : x.life = .active) (hp : p.InRange c) :
    RxOk c { x with profile := p, phase := if x.phase = .errorOverflow then x.phase else restRx c p } := by
  by_cases ho : x.phase = .errorOverflow
  · rw [if_pos ho]
    exact { h with profile := hp, definitions := fun e => absurd ho e }
  · rw [if_neg ho]
    have := restRx_cases c p
    exact
      { h with
        profile := hp
        settled := by rcases this with e | e <;> simp [e]
        message := by rcases this with e | e <;> simp [e]
        definitions := fun _ => restRx_definitions
        inert := fun e => by simp [hl] at e }

/-- The stop of a receiver (R189). -/
theorem RxOk.stopped {x : RxContext} (h : RxOk c x) : RxOk c { x with phase := stoppedRxPhase x.phase } := by
  have hp := stoppedRxPhase_cases x.phase
  exact
    { h with
      settled := by rcases hp with ⟨-, e⟩ | ⟨-, e⟩ | ⟨-, -, e⟩ <;> simp [e]
      message := by rcases hp with ⟨-, e⟩ | ⟨-, e⟩ | ⟨-, -, e⟩ <;> simp [e]
      definitions := by
        have := h.definitions
        rcases hp with ⟨e1, e⟩ | ⟨e1, e⟩ | ⟨e1, e2, e⟩ <;> simp_all
      inert := fun hi => by
        have := h.inert hi
        rcases hp with ⟨e1, e⟩ | ⟨e1, e⟩ | ⟨e1, e2, e⟩ <;> simp_all }

/-- An accepted `RX_LISTEN` (R180). -/
theorem RxOk.listening {x : RxContext} (h : RxOk c x) (hc : 1 ≤ c.elapsedMax) (hl : x.life = .active)
    (ho : x.phase ≠ .errorOverflow) (hp : x.phase ≠ .errorDefinitions) : RxOk c (startListening x) := by
  have hs : separated c x.profile = true := by
    cases hs : separated c x.profile with
    | true => rfl
    | false => exact absurd ((h.definitions ho).2 hs) hp
  have h0 := h.tracker (e := 0) (x := 0) (y := 0) (f := false) (p := false) (l := .low) hc hc hc (by simp)
  exact
    { h0 with
      length := Nat.zero_le _
      settled := by simp [startListening]
      message := by simp [startListening]
      definitions := fun _ => by simp [startListening, clearTracker, hs]
      inert := fun hi => by simp [startListening, clearTracker, hl] at hi }

theorem setIntervalCore_inRange (hc : validCfg c) (high low : Nat) :
    (c.minInterval ≤ (setIntervalCore c high low).1 ∧ (setIntervalCore c high low).1 ≤ c.maxTime) ∧
    (c.minInterval ≤ (setIntervalCore c high low).2 ∧ (setIntervalCore c high low).2 ≤ c.maxTime) := by
  have h1 := clamp_range (v := high) hc.2.1
  have h2 := clamp_range (v := low) hc.2.1
  unfold setIntervalCore
  dsimp only
  split
  · split
    · constructor <;> constructor <;> dsimp only <;> omega
    · split <;> constructor <;> constructor <;> dsimp only <;> omega
  · exact ⟨h1, h2⟩

theorem Profile.InRange.interval {p : Profile} (hc : validCfg c) (hp : p.InRange c) (high low : Nat) :
    (p.withInterval (setIntervalCore c high low)).InRange c :=
  ⟨hp.startHigh, hp.startLow, (setIntervalCore_inRange hc high low).1, (setIntervalCore_inRange hc high low).2⟩

theorem Profile.InRange.start {p : Profile} (hc : validCfg c) (hp : p.InRange c) (high low : Nat) :
    (p.withStart (setStartCore c high low)).InRange c :=
  ⟨clamp_range hc.2.2.2.1, clamp_range hc.2.2.2.2.1, hp.high, hp.low⟩

end Sys2Proof.Machine
end

