-- ==== Sys2Proof/Laws/PerInstr.lean ====
section
/-! SUPPORT. Facts stated of every instruction, one lemma per constructor. -/

namespace Sys2Proof.Laws

open Sys2Proof.Machine

/-- The opcode column of the opcode table (R101). -/
def EncodedOpcode.tableOpcode : Instr → Byte
  | .tick => 0x01
  | .txAttach _ _ => 0x10
  | .txDetach _ => 0x11
  | .txSend _ _ => 0x12
  | .txStop _ => 0x13
  | .txSetInterval _ _ _ => 0x14
  | .txSetStart _ _ _ => 0x15
  | .txSetChannel _ _ => 0x16
  | .txSetId _ _ => 0x17
  | .txGetState _ => 0x18
  | .rxAttach _ _ _ => 0x20
  | .rxDetach _ => 0x21
  | .rxListen _ => 0x22
  | .rxStop _ => 0x23
  | .rxSetInterval _ _ _ => 0x24
  | .rxSetStart _ _ _ => 0x25
  | .rxSetChannel _ _ => 0x26
  | .rxReset _ => 0x27
  | .rxGetState _ => 0x28
  | .rxGetMessage _ => 0x29
  | .rxGetMessageLength _ => 0x2A
  | .rxClearBuffer _ => 0x2B

/-- The word of a command carries the opcode its table row names, and its handle in bits [39:32]; a command to a
transmitter is no command to a receiver (R100, R101). -/
def EncodedOpcode.Statement (i : Instr) : Prop :=
  opcodeField (encode i) = EncodedOpcode.tableOpcode i ∧
  (∀ h, txTarget i = some h → handleField (encode i) = h ∧ rxTarget i = none) ∧
  ∀ h, rxTarget i = some h → handleField (encode i) = h ∧ txTarget i = none

namespace EncodedOpcode

theorem tick : Statement .tick := by simp [Statement, encode, tableOpcode, txTarget, rxTarget]
theorem txAttach (h : Handle) (pin : Pin) : Statement (.txAttach h pin) := by
  simp [Statement, encode, tableOpcode, txTarget, rxTarget]
theorem txDetach (h : Handle) : Statement (.txDetach h) := by simp [Statement, encode, tableOpcode, txTarget, rxTarget]
theorem txSend (h : Handle) (length : Nat) : Statement (.txSend h length) := by
  simp [Statement, encode, tableOpcode, txTarget, rxTarget]
theorem txStop (h : Handle) : Statement (.txStop h) := by simp [Statement, encode, tableOpcode, txTarget, rxTarget]
theorem txSetInterval (h : Handle) (high low : Nat) : Statement (.txSetInterval h high low) := by
  simp [Statement, encode, tableOpcode, txTarget, rxTarget]
theorem txSetStart (h : Handle) (high low : Nat) : Statement (.txSetStart h high low) := by
  simp [Statement, encode, tableOpcode, txTarget, rxTarget]
theorem txSetChannel (h : Handle) (channel : Byte) : Statement (.txSetChannel h channel) := by
  simp [Statement, encode, tableOpcode, txTarget, rxTarget]
theorem txSetId (h : Handle) (id : Byte) : Statement (.txSetId h id) := by
  simp [Statement, encode, tableOpcode, txTarget, rxTarget]
theorem txGetState (h : Handle) : Statement (.txGetState h) := by
  simp [Statement, encode, tableOpcode, txTarget, rxTarget]
theorem rxAttach (h : Handle) (pin : Pin) (address : Byte) : Statement (.rxAttach h pin address) := by
  simp [Statement, encode, tableOpcode, txTarget, rxTarget]
theorem rxDetach (h : Handle) : Statement (.rxDetach h) := by simp [Statement, encode, tableOpcode, txTarget, rxTarget]
theorem rxListen (h : Handle) : Statement (.rxListen h) := by simp [Statement, encode, tableOpcode, txTarget, rxTarget]
theorem rxStop (h : Handle) : Statement (.rxStop h) := by simp [Statement, encode, tableOpcode, txTarget, rxTarget]
theorem rxSetInterval (h : Handle) (high low : Nat) : Statement (.rxSetInterval h high low) := by
  simp [Statement, encode, tableOpcode, txTarget, rxTarget]
theorem rxSetStart (h : Handle) (high low : Nat) : Statement (.rxSetStart h high low) := by
  simp [Statement, encode, tableOpcode, txTarget, rxTarget]
theorem rxSetChannel (h : Handle) (channel : Byte) : Statement (.rxSetChannel h channel) := by
  simp [Statement, encode, tableOpcode, txTarget, rxTarget]
theorem rxReset (h : Handle) : Statement (.rxReset h) := by simp [Statement, encode, tableOpcode, txTarget, rxTarget]
theorem rxGetState (h : Handle) : Statement (.rxGetState h) := by
  simp [Statement, encode, tableOpcode, txTarget, rxTarget]
theorem rxGetMessage (h : Handle) : Statement (.rxGetMessage h) := by
  simp [Statement, encode, tableOpcode, txTarget, rxTarget]
theorem rxGetMessageLength (h : Handle) : Statement (.rxGetMessageLength h) := by
  simp [Statement, encode, tableOpcode, txTarget, rxTarget]
theorem rxClearBuffer (h : Handle) : Statement (.rxClearBuffer h) := by
  simp [Statement, encode, tableOpcode, txTarget, rxTarget]

end EncodedOpcode

end Sys2Proof.Laws
end

