-- ==== Sys2Proof/Laws/Steps.lean ====
section
/-! SUPPORT. What a step can do, case by case of the input it takes, and what no command can touch. -/

namespace Sys2Proof.Machine

variable {s t : State}

theorem step_valid (hc : validCfg s.cfg) : step s = takeNext s := if_pos hc

/-- Everything a step can do (R11, R16). -/
theorem step_cases (h : step s = .next t) :
    validCfg s.cfg ∧
    ((s.inputs = [] ∧ t = s) ∨
    (∃ w payload rest i, s.inputs = .word w payload :: rest ∧ decode w = .instr i ∧
      exec i ((s.advanceInputs rest).presentPayload payload) = .next t) ∨
    (∃ w payload rest op, s.inputs = .word w payload :: rest ∧ decode w = .undefinedOpcode op ∧
      t = (((s.advanceInputs rest).presentPayload payload).quiet).respond .rejected 0 []) ∨
    (∃ p v rest, s.inputs = .drive p v :: rest ∧ t = envDrive p v (s.advanceInputs rest)) ∨
    (∃ rest, s.inputs = .hardwareReset :: rest ∧ t = hardwareReset (s.advanceInputs rest))) := by
  by_cases hc : validCfg s.cfg
  · refine ⟨hc, ?_⟩
    rw [step_valid hc] at h
    unfold takeNext at h
    split at h
    · rename_i hi
      cases h
      exact .inl ⟨hi, rfl⟩
    · rename_i i rest hi
      cases i with
      | word w payload =>
        simp only [takeInput, runWord] at h
        split at h
        · rename_i i hd
          exact .inr (.inl ⟨w, payload, rest, i, hi, hd, h⟩)
        · rename_i op hd
          cases h
          exact .inr (.inr (.inl ⟨w, payload, rest, op, hi, hd, rfl⟩))
      | drive p v =>
        cases h
        exact .inr (.inr (.inr (.inl ⟨p, v, rest, hi, rfl⟩)))
      | hardwareReset =>
        cases h
        exact .inr (.inr (.inr (.inr ⟨rest, hi, rfl⟩)))
  · rw [step, if_neg hc] at h
    cases h

/-- A command of a transmitter answers a next state if its body does (R265). -/
theorem onTx_next {h : Handle} {body : TxContext → State → Result} (hb : ∀ x u, ∃ t, body x u = .next t) :
    ∃ t, onTx h s body = .next t := by
  unfold onTx answer
  split
  · exact hb _ _
  · exact ⟨_, rfl⟩

/-- A command of a receiver answers a next state if its body does (R265). -/
theorem onRx_next {h : Handle} {body : RxContext → State → Result} (hb : ∀ x u, ∃ t, body x u = .next t) :
    ∃ t, onRx h s body = .next t := by
  unfold onRx answer
  split
  · exact hb _ _
  · exact ⟨_, rfl⟩

/-- What a command to a transmitter leaves, when its body is one that leaves it. -/
theorem onTx_cases {h : Handle} {body : TxContext → State → Result} (he : onTx h s body = .next t) :
    (s.txActive h ∧ body (s.txAt h) s.quiet = .next t) ∨
    (¬s.txActive h ∧ t = s.replied .notInitialized 0 [] []) := by
  by_cases ha : s.txActive h
  · exact .inl ⟨ha, by rwa [onTx_active ha] at he⟩
  · rw [onTx_inactive ha] at he
    cases he
    exact .inr ⟨ha, rfl⟩

/-- What a command to a receiver leaves, when its body is one that leaves it. -/
theorem onRx_cases {h : Handle} {body : RxContext → State → Result} (he : onRx h s body = .next t) :
    (s.rxActive h ∧ body (s.rxAt h) s.quiet = .next t) ∨
    (¬s.rxActive h ∧ t = s.replied .notInitialized 0 [] []) := by
  by_cases ha : s.rxActive h
  · exact .inl ⟨ha, by rwa [onRx_active ha] at he⟩
  · rw [onRx_inactive ha] at he
    cases he
    exact .inr ⟨ha, rfl⟩

/-- A pass over transmitters that need not be distinct: `life`, `pin`, `id`, `channel`, profile and buffer of every
context are kept (R252). -/
theorem foldl_txAdvance_kept (l : List Handle) (s : State) (k : Handle) :
    let x := (l.foldl txAdvance s).txAt k
    x.life = (s.txAt k).life ∧ x.pin = (s.txAt k).pin ∧ x.id = (s.txAt k).id ∧ x.channel = (s.txAt k).channel ∧
      x.profile = (s.txAt k).profile ∧ x.buf = (s.txAt k).buf ∧ x.bufLen = (s.txAt k).bufLen := by
  induction l generalizing s with
  | nil => exact ⟨rfl, rfl, rfl, rfl, rfl, rfl, rfl⟩
  | cons h l ih =>
    obtain ⟨a1, a2, a3, a4, a5, a6, a7⟩ := ih (txAdvance s h)
    rw [List.foldl_cons]
    rw [txAdvance_txAt] at a1 a2 a3 a4 a5 a6 a7
    by_cases hk : k = h
    · subst hk
      obtain ⟨b1, b2, b3, b4, b5, b6, b7⟩ := txTick_frame s.cfg (s.txAt k)
      simp only [if_true] at a1 a2 a3 a4 a5 a6 a7
      exact ⟨a1.trans b1, a2.trans b2, a3.trans b3, a4.trans b4, a5.trans b5, a6.trans b6, a7.trans b7⟩
    · rw [if_neg hk] at a1 a2 a3 a4 a5 a6 a7
      exact ⟨a1, a2, a3, a4, a5, a6, a7⟩

/-- A pass over receivers that need not be distinct: `life`, `pin`, `address`, `channel` and profile of every context
are kept (R252). -/
theorem foldl_rxAdvance_kept (l : List Handle) (s : State) (k : Handle) :
    let x := (l.foldl rxAdvance s).rxAt k
    x.life = (s.rxAt k).life ∧ x.pin = (s.rxAt k).pin ∧ x.address = (s.rxAt k).address ∧
      x.channel = (s.rxAt k).channel ∧ x.profile = (s.rxAt k).profile := by
  induction l generalizing s with
  | nil => exact ⟨rfl, rfl, rfl, rfl, rfl⟩
  | cons h l ih =>
    obtain ⟨a1, a2, a3, a4, a5⟩ := ih (rxAdvance s h)
    rw [List.foldl_cons]
    rw [rxAdvance_rxAt] at a1 a2 a3 a4 a5
    by_cases hk : k = h
    · subst hk
      obtain ⟨b1, b2, b3, b4, b5⟩ := rxTick_frame s.cfg (s.lineAt (s.rxAt k).pin) (s.rxAt k)
      simp only [if_true] at a1 a2 a3 a4 a5
      exact ⟨a1.trans b1, a2.trans b2, a3.trans b3, a4.trans b4, a5.trans b5⟩
    · rw [if_neg hk] at a1 a2 a3 a4 a5
      exact ⟨a1, a2, a3, a4, a5⟩

/-- A pass over receivers leaves a context that does not track its line as it is. -/
theorem foldl_rxAdvance_idle (l : List Handle) (s : State) (k : Handle) (hk : tracks (s.rxAt k) = false) :
    (l.foldl rxAdvance s).rxAt k = s.rxAt k := by
  induction l generalizing s with
  | nil => rfl
  | cons h l ih =>
    have hh : (rxAdvance s h).rxAt k = s.rxAt k := by
      rw [rxAdvance_rxAt]
      split
      · rename_i e
        rw [← e, rxTick_idle hk]
      · rfl
    rw [List.foldl_cons, ih _ (by rw [hh]; exact hk), hh]

/-- A pass over transmitters leaves a context that is not `Sending` as it is. -/
theorem foldl_txAdvance_idle (l : List Handle) (s : State) (k : Handle) (hk : (s.txAt k).phase ≠ .sending) :
    (l.foldl txAdvance s).txAt k = s.txAt k := by
  induction l generalizing s with
  | nil => rfl
  | cons h l ih =>
    have hh : (txAdvance s h).txAt k = s.txAt k := by
      rw [txAdvance_txAt]
      split
      · rename_i e
        rw [← e, txTick_idle hk]
      · rfl
    rw [List.foldl_cons, ih _ (by rw [hh]; exact hk), hh]

/-- The events of a tick are pin writes: a tick starts no tick source (R251, R252). -/
theorem foldl_txAdvance_events (l : List Handle) (s : State) (n : Nat)
    (h : Event.tickStart n ∈ (l.foldl txAdvance s).out.events) : Event.tickStart n ∈ s.out.events := by
  induction l generalizing s with
  | nil => exact h
  | cons k l ih =>
    have := ih _ h
    rw [txAdvance_events] at this
    simpa using this

end Sys2Proof.Machine
end

