-- ==== Sys2Proof/Tests/Slice0.lean ====
section
/-! SUPPORT. Tests: the checks of `WellFormed`, every constructor decoded from a word, single steps, and for every
statement with hypotheses a state and operands that meet them. Expected results are the spec's: the table 3.3 and the
vectors `V-…` of its file 95, or the rule named. -/

namespace Sys2Proof.Tests

open Sys2Proof.Machine

/-! WellFormed: each check refuses a term no word can carry (R24, R102, R103). -/

theorem test_refuse_wide_length : (Instr.txSend 0 256).wellFormed = false := by decide
theorem test_refuse_wide_txInterval_high : (Instr.txSetInterval 0 65536 0).wellFormed = false := by decide
theorem test_refuse_wide_txInterval_low : (Instr.txSetInterval 0 0 65536).wellFormed = false := by decide
theorem test_refuse_wide_txStart_high : (Instr.txSetStart 0 65536 0).wellFormed = false := by decide
theorem test_refuse_wide_txStart_low : (Instr.txSetStart 0 0 65536).wellFormed = false := by decide
theorem test_refuse_wide_rxInterval_high : (Instr.rxSetInterval 0 65536 0).wellFormed = false := by decide
theorem test_refuse_wide_rxInterval_low : (Instr.rxSetInterval 0 0 65536).wellFormed = false := by decide
theorem test_refuse_wide_rxStart_high : (Instr.rxSetStart 0 65536 0).wellFormed = false := by decide
theorem test_refuse_wide_rxStart_low : (Instr.rxSetStart 0 0 65536).wellFormed = false := by decide

/-! Decoding: the words of table 3.3, and words with every field different (R100, R101). -/

theorem test_word_tick : decode 0x010000000000 = .instr .tick := by decide
theorem test_word_txAttach : decode 0x100000020000 = .instr (.txAttach 0 2) := by decide
theorem test_word_txDetach : decode 0x110000000000 = .instr (.txDetach 0) := by decide
theorem test_word_txSend : decode 0x1201001E0000 = .instr (.txSend 1 30) := by decide
theorem test_word_txStop : decode 0x130000000000 = .instr (.txStop 0) := by decide
theorem test_word_txSetInterval : decode 0x140001F401C2 = .instr (.txSetInterval 0 500 450) := by decide
theorem test_word_txSetStart : decode 0x150005DC05DC = .instr (.txSetStart 0 1500 1500) := by decide
theorem test_word_txSetChannel : decode 0x160000010000 = .instr (.txSetChannel 0 1) := by decide
theorem test_word_txSetId : decode 0x170000030000 = .instr (.txSetId 0 3) := by decide
theorem test_word_txGetState : decode 0x180000000000 = .instr (.txGetState 0) := by decide
theorem test_word_rxAttach : decode 0x2005000F0006 = .instr (.rxAttach 5 15 6) := by decide
theorem test_word_rxDetach : decode 0x210100000000 = .instr (.rxDetach 1) := by decide
theorem test_word_rxListen : decode 0x220000000000 = .instr (.rxListen 0) := by decide
theorem test_word_rxStop : decode 0x230000000000 = .instr (.rxStop 0) := by decide
theorem test_word_rxSetInterval : decode 0x240003200190 = .instr (.rxSetInterval 0 800 400) := by decide
theorem test_word_rxSetStart : decode 0x250005DC05DC = .instr (.rxSetStart 0 1500 1500) := by decide
theorem test_word_rxSetChannel : decode 0x260000010000 = .instr (.rxSetChannel 0 1) := by decide
theorem test_word_rxReset : decode 0x270000000000 = .instr (.rxReset 0) := by decide
theorem test_word_rxGetState : decode 0x280000000000 = .instr (.rxGetState 0) := by decide
theorem test_word_rxGetMessage : decode 0x290000000000 = .instr (.rxGetMessage 0) := by decide
theorem test_word_rxGetMessageLength : decode 0x2A0000000000 = .instr (.rxGetMessageLength 0) := by decide
theorem test_word_rxClearBuffer : decode 0x2B0000000000 = .instr (.rxClearBuffer 0) := by decide
/-- V-ENC-4: unused bits set. -/
theorem test_word_unused_bits : decode 0x1700FF03FFFF = .instr (.txSetId 0 3) := by decide
/-- R101's opcode in bits [47:40], a handle in [39:32], `A[7:0]` in [23:16] and `B[7:0]` in [7:0], written bit by bit. -/
theorem test_word_fields :
    decode 0b001000001010010111111111000110000000000011010001#48 = .instr (.rxAttach 0xA5 0x18 0xD1) := by decide
/-- V-ENC-1 to V-ENC-3. -/
theorem test_word_undefined :
    decode 0x000000000000 = .undefinedOpcode 0x00 ∧ decode 0x190000000000 = .undefinedOpcode 0x19 ∧
    decode 0xFFFFFFFFFFFF = .undefinedOpcode 0xFF := by decide
theorem test_table_word : decodeTableWord 48 0x240003200190 = some (.rxSetInterval 0 800 400) := by decide

/-! Small states: a transmitter 0 on pin 2 and a receiver 0 on pin 4, both registered, under TC1. -/

/-- The configuration TC2 of file 95. -/
def tc2 : Cfg :=
  { Config.standard with
    maxTime := 350, elapsedMax := 350, defaultStartHigh := 350, defaultStartLow := 350, defaultHigh := 350,
    defaultLow := 100 }

/-- The next state, or the reset state where there is none. -/
def after (r : Result) : State :=
  match r with
  | .next t => t
  | .fault _ => State.reset
  | .refused _ => State.reset

/-- The response of a step. -/
def reply (r : Result) : Option Response := (after r).out.response

/-- A response without data. -/
def plain (status : Status) (value : BitVec 16) : Option Response := some ⟨status, value, []⟩

/-- A transmitter as `TX_ATTACH 0, 2`, `TX_SET_ID 0, 3` and `TX_SET_CHANNEL 0, 1` leave it. -/
def sender : TxContext := { attachedTx Config.standard 2 with life := .active, id := 3, channel := 1 }

/-- A receiver as `RX_ATTACH 0, 4, 3` and `RX_SET_CHANNEL 0, 1` leave it. -/
def hearer : RxContext := { attachedRx Config.standard 4 3 with life := .active, channel := 1 }

/-- The registry that lists these handles in this order, capacity 5. -/
def listing (handles : List Handle) : Registry := handles.foldl (fun g h => (g.add 5 h).1) Registry.empty

/-- The reset state with a transmitter and a receiver attached as handle 0. -/
def both (t : TxContext) (r : RxContext) : State :=
  ({ State.reset with
    txReg := listing [0]
    rxReg := listing [0] }.setTx 0 t).setRx 0 r

/-- Both attached, nothing going on. -/
def calm : State := both sender hearer

/-- `calm` with the tick source running. -/
def running : State := { calm with tickRunning := true }

/-- The transmitter as `TX_SEND 0, 3, [1, 2, 3]` leaves it. -/
def sending : TxContext := startFrame sender [1, 2, 3]

/-- The receiver in `MessageReady` with the message [0x55] (V-RX-27). -/
def ready : RxContext :=
  { hearer with phase := .messageReady, buf := [(0, 0x31), (1, 0x01), (2, 0x55), (3, 0x55)], bufLen := 4 }

/-- The receiver in `ErrorOverflow`. -/
def overflowed : RxContext := { hearer with phase := .errorOverflow, bufLen := 33 }

/-- A state with five receivers registered, [0, 1, 2, 3, 4] (V-REG-1). -/
def full : State :=
  { ((((State.reset.setRx 0 hearer).setRx 1 hearer).setRx 2 hearer).setRx 3 hearer).setRx 4 hearer with rxReg := listing [0, 1, 2, 3, 4] }

/-- A state with five transmitters registered. -/
def fullTx : State :=
  { ((((State.reset.setTx 0 sender).setTx 1 sender).setTx 2 sender).setTx 3 sender).setTx 4 sender with txReg := listing [0, 1, 2, 3, 4] }

/-! Single steps. -/

/-- V-SCH-1: a tick before the tick source was started changes no line, and has no response. -/
theorem test_tick_stopped : (after (exec .tick (both sending hearer))).lineAt 2 = .low := by decide
/-- V-SCH-5 and the trace of V-TX-1, tick 1: the line is `HIGH` and a receiver on it has seen its first edge. -/
theorem test_tick_first :
    let s := { both sending { startListening hearer with pin := 2 } with tickRunning := true }
    (after (exec .tick s)).lineAt 2 = .high ∧ ((after (exec .tick s)).rxAt 0).found = true ∧
    ((after (exec .tick s)).txAt 0).elapsed = 100 := by decide

/-- V-TX-16. -/
theorem test_txAttach :
    reply (exec (.txAttach 0 2) State.reset) = plain .ok 1 ∧
    (after (exec (.txAttach 0 2) State.reset)).out.events = [.pinConfigure 2 .output, .pinWrite 2 .low] := by decide
/-- R231: the sixth transmitter is `Inert`. -/
theorem test_txAttach_full :
    reply (exec (.txAttach 5 9) fullTx) = plain .rejected 0 ∧
    ((after (exec (.txAttach 5 9) fullTx)).txAt 5).life = .inert := by decide

/-- V-REG-9, with one transmitter registered. -/
theorem test_txDetach :
    let s := (both sending hearer).setLine 2 .high
    reply (exec (.txDetach 0) s) = plain .ok 1 ∧ (after (exec (.txDetach 0) s)).lineAt 2 = .low ∧
    (after (exec (.txDetach 0) s)).txReg.live = [] := by decide
theorem test_txDetach_free : reply (exec (.txDetach 3) calm) = plain .notInitialized 0 := by decide

/-- V-TX-1: the bytes of the frame. -/
theorem test_txSend :
    let s := { calm with payloadPort := (((Vector.replicate Config.portBytes 0).set 0 1).set 1 2).set 2 3 }
    bufSlice Config.standard ((after (exec (.txSend 0 3) s)).txAt 0).buf 0 6 = [0x31, 0x03, 0x01, 0x02, 0x03, 0x06] ∧
    (after (exec (.txSend 0 3) s)).out.events = [.tickStart 100] := by decide
/-- V-TX-12: the first failing check wins. -/
theorem test_txSend_order :
    reply (exec (.txSend 0 31) (both { sender with id := 0, channel := 0 } hearer)) = plain .invalidAddress 0 := by decide

/-- V-TX-13: a stop drives the line `LOW` and keeps `elapsed`. -/
theorem test_txStop :
    let s := (both { sending with elapsed := 500 } hearer).setLine 2 .high
    (after (exec (.txStop 0) s)).lineAt 2 = .low ∧ ((after (exec (.txStop 0) s)).txAt 0).phase = .idle ∧
    ((after (exec (.txStop 0) s)).txAt 0).elapsed = 500 := by decide

/-- V-PROF-2. -/
theorem test_txSetInterval :
    ((after (exec (.txSetInterval 0 500 450) calm)).txAt 0).profile = ⟨1500, 1500, 500, 300⟩ := by decide
/-- V-PROF-13, under TC2. -/
theorem test_txSetInterval_tc2 :
    let s := { calm with cfg := tc2 }
    reply (exec (.txSetInterval 0 250 250) s) = plain .rejected 0 ∧
    ((after (exec (.txSetInterval 0 250 250) s)).txAt 0).phase = .errorDefinitions := by decide
/-- V-PROF-20. -/
theorem test_txSetStart :
    ((after (exec (.txSetStart 0 50 9999) calm)).txAt 0).profile = ⟨100, 5000, 800, 400⟩ := by decide
/-- V-ENC-6. -/
theorem test_txSetChannel : ((after (exec (.txSetChannel 0 0x2A) calm)).txAt 0).channel = 10 := by decide
/-- V-ENC-5. -/
theorem test_txSetId :
    ((after (exec (.txSetId 0 0x13) calm)).txAt 0).id = 3 ∧ reply (exec (.txSetId 0 0x13) calm) = plain .ok 0 := by decide
/-- V-TX-15. -/
theorem test_txGetState :
    reply (exec (.txGetState 0) (both sending hearer)) = plain .ok 1 ∧
    reply (exec (.txGetState 0) (both { sender with phase := .errorDefinitions } hearer)) = plain .ok 5 := by decide

/-- V-REG-1. -/
theorem test_rxAttach_full :
    reply (exec (.rxAttach 5 15 6) full) = plain .rejected 0 ∧
    ((after (exec (.rxAttach 5 15 6) full)).rxAt 5).life = .inert ∧
    (after (exec (.rxAttach 5 15 6) full)).out.events = [] := by decide
/-- V-REG-6 and the address of V-REG-7. -/
theorem test_rxAttach_address :
    reply (exec (.rxAttach 6 16 0x10) calm) = plain .invalidAddress 0 ∧
    ((after (exec (.rxAttach 6 16 0x1F) calm)).rxAt 6).address = 15 := by decide
/-- V-REG-3, its first command. -/
theorem test_rxDetach : (after (exec (.rxDetach 1) full)).rxReg.live = [0, 4, 2, 3] := by decide
/-- V-REG-5. -/
theorem test_rxDetach_inert :
    reply (exec (.rxDetach 5) (full.setRx 5 { hearer with life := .inert })) = plain .ok 0 := by decide
/-- V-RX-30. -/
theorem test_rxListen_channel :
    reply (exec (.rxListen 0) (both sender { hearer with channel := 0 })) = plain .invalidChannel 0 := by decide
/-- V-RX-35: the bytes stay. -/
theorem test_rxListen :
    let s := both sender { ready with phase := .idle }
    reply (exec (.rxListen 0) s) = plain .ok 1 ∧ ((after (exec (.rxListen 0) s)).rxAt 0).bufLen = 0 ∧
    bufSlice Config.standard ((after (exec (.rxListen 0) s)).rxAt 0).buf 0 4 = [0x31, 0x01, 0x55, 0x55] := by decide
/-- V-RX-34. -/
theorem test_rxStop :
    let s := both sender ready
    ((after (exec (.rxStop 0) s)).rxAt 0).phase = .idle ∧ ((after (exec (.rxStop 0) s)).rxAt 0).bufLen = 4 := by decide
/-- V-PROF-24. -/
theorem test_rxSetInterval :
    let s := both sender overflowed
    reply (exec (.rxSetInterval 0 800 400) s) = plain .ok 1 ∧
    ((after (exec (.rxSetInterval 0 800 400) s)).rxAt 0).phase = .errorOverflow := by decide
/-- V-PROF-23. -/
theorem test_rxSetStart :
    let s := both sender ready
    reply (exec (.rxSetStart 0 1500 1500) s) = plain .ok 1 ∧
    ((after (exec (.rxSetStart 0 1500 1500) s)).rxAt 0).phase = .idle := by decide
/-- V-RX-33: reception is undisturbed. -/
theorem test_rxSetChannel :
    let s := both sender { hearer with phase := .listening, bufLen := 2 }
    (after (exec (.rxSetChannel 0 1) s)).rxAt 0 = s.rxAt 0 := by decide
/-- V-RX-37. -/
theorem test_rxReset :
    let s := both sender ready
    ((after (exec (.rxReset 0) s)).rxAt 0).phase = .idle ∧ ((after (exec (.rxReset 0) s)).rxAt 0).bufLen = 0 := by decide
/-- V-RX-38. -/
theorem test_rxGetState : reply (exec (.rxGetState 0) (both sender ready)) = plain .ok 3 := by decide
/-- V-RX-27: the message read out. -/
theorem test_rxGetMessage : reply (exec (.rxGetMessage 0) (both sender ready)) = some ⟨.ok, 1, [0x55]⟩ := by decide
/-- V-RX-32. -/
theorem test_rxGetMessage_listening :
    reply (exec (.rxGetMessage 0) (both sender (startListening hearer))) = plain .rejected 0 := by decide
theorem test_rxGetMessageLength : reply (exec (.rxGetMessageLength 0) (both sender ready)) = plain .ok 1 := by decide
/-- Program P1: `RX_CLEAR_BUFFER` of a ready message. -/
theorem test_rxClearBuffer :
    let s := both sender ready
    reply (exec (.rxClearBuffer 0) s) = plain .ok 1 ∧ ((after (exec (.rxClearBuffer 0) s)).rxAt 0).buf = [] ∧
    ((after (exec (.rxClearBuffer 0) s)).rxAt 0).phase = .listening := by decide
/-- V-RX-31. -/
theorem test_rxClearBuffer_listening :
    reply (exec (.rxClearBuffer 0) (both sender (startListening hearer))) = plain .rejected 0 := by decide

/-- V-ENC-2, through a step. -/
theorem test_step_undefined : reply (step (calm.withFetchWord 48 0x190000000000)) = plain .rejected 0 := by decide
/-- A word placed by `withFetchWord` is what the next step from reset runs (V-TX-16). -/
theorem test_step_fetched : reply (step (State.reset.withFetchWord 48 0x100000020000)) = plain .ok 1 := by decide
/-- V-RST-1: the line keeps its level, the context is `Free`. -/
theorem test_step_reset :
    let s := { (both sending hearer).setLine 2 .high with inputs := [.hardwareReset] }
    (after (step s)).lineAt 2 = .high ∧ ((after (step s)).txAt 0).life = .free := by decide

/-- A configuration of other capacities than R8's values: one instance of each kind, payloads of one byte (R19). -/
def small : Cfg := { Config.standard with maxTransmitters := 1, maxReceivers := 1, maxPayload := 1, bufCap := 4 }

/-- R19, R160: the limits of `TX_SEND` and of the registry are those of the configuration. -/
theorem test_capacities_configured :
    validCfg small ∧ reply (exec (.txSend 0 2) { calm with cfg := small }) = plain .payloadTooLarge 0 ∧
    reply (exec (.txSend 0 1) { calm with cfg := small }) = plain .ok 1 ∧
    reply (exec (.txAttach 1 9) { calm with cfg := small }) = plain .rejected 0 ∧
    (storeBit small { hearer with bufLen := 4 } true).phase = .errorOverflow := by decide
/-- R165, R253: the events of a tick are the writes of the transmitters in registry order. -/
theorem test_tick_events :
    let s := { (fullTx.setTx 1 sending).setTx 3 { sending with pin := 7 } with tickRunning := true }
    (after (exec .tick s)).out.events = [.pinWrite 2 .high, .pinWrite 7 .high] := by decide
/-- R183 against R98 (1): with channel 0 stored while listening, a header whose low nibble is 0 passes check (2). -/
theorem test_stored_channel_zero :
    frameOk Config.standard { ready with channel := 0, buf := [(0, 0x30), (1, 0x01), (2, 0x55), (3, 0x55)] } = true ∧
    frameOk Config.standard { ready with buf := [(0, 0x30), (1, 0x01), (2, 0x55), (3, 0x55)] } = false := by decide

/-! Operations. -/

/-- V-CHK-4, V-CHK-6, V-CHK-8. -/
theorem test_checksum :
    checksum [0xFF, 0x01] = 0x00 ∧ checksum (List.replicate 30 0xFF) = 0xE2 ∧ checksum [0xDE, 0xAD] = 0x8B := by decide
/-- V-PROF-4, V-PROF-5, V-PROF-9, V-PROF-11. -/
theorem test_setIntervalCore :
    setIntervalCore Config.standard 450 500 = (450, 250) ∧ setIntervalCore Config.standard 250 200 = (400, 200) ∧
    setIntervalCore Config.standard 9999 9999 = (5000, 4800) ∧ setIntervalCore Config.standard 299 100 = (300, 100) := by
  decide
/-- V-CLS-2 and V-CLS-3: the bounds of START are inclusive. -/
theorem test_classify_start :
    (classifyPair Config.standard { ready with sampleHigh := 1400, sampleLow := 1600 }).bufLen = 0 ∧
    classifyPair Config.standard { ready with sampleHigh := 1399, sampleLow := 1500 } =
      { ready with sampleHigh := 1399, sampleLow := 1500 } := by decide
/-- V-CLS-16: ONE is tested before ZERO. -/
theorem test_classify_one_first :
    let r := { startListening hearer with profile := ⟨1500, 1500, 600, 400⟩, sampleHigh := 500, sampleLow := 500 }
    bufByte Config.standard (classifyPair Config.standard r).buf 0 = 0x80 := by decide
/-- V-CLS-19: a lone HIGH sample at a time-out. -/
theorem test_timeout_lone :
    let r := { startListening hearer with found := true, pending := true, sampleHigh := 700, elapsed := 4900 }
    let q := rxTick Config.standard .low r
    bufByte Config.standard q.buf 0 = 0x80 ∧ q.bufLen = 0 ∧ q.bitCursor = 7 ∧ q.phase = .listening ∧ q.found = false := by decide
/-- V-RX-1 and V-RX-2. -/
theorem test_timeout_idle :
    (rxTick Config.standard .low { startListening hearer with elapsed := 4800 }).elapsed = 4900 ∧
    (rxTick Config.standard .low { startListening hearer with elapsed := 4900 }).elapsed = 0 := by decide
/-- V-TX-1: the second symbol of the frame, a ZERO (trace of file 95, tick 30). -/
theorem test_next_symbol :
    let t := (txTick Config.standard { sending with half := .low, elapsed := 1400 }).1
    t.sym = .zero ∧ t.half = .high ∧ t.elapsed = 0 ∧ t.byteIndex = 0 ∧ t.bitIndex = 6 := by decide

/-! Witnesses: for every statement with hypotheses, states and operands that meet them, clause by clause. -/

/-- A receiver waiting on the transmitter's line. -/
def waiting : RxContext := startListening { hearer with pin := 2 }

/-- A frame on its way from transmitter 0 to receiver 0. -/
def looped : State := { both sending waiting with tickRunning := true }

/-- `looped` with an input. -/
def loopedWith (i : Input) : State := { looped with inputs := [i] }

/-- An empty payload port. -/
def noPayload : Vector Byte Config.portBytes := Vector.replicate Config.portBytes 0

theorem standard_valid : validCfg Config.standard := by decide

theorem looped_txAt (k : Handle) : looped.txAt k = if k = 0 then sending else TxContext.fresh Config.standard := by
  show State.txAt (State.setTx _ 0 sending) k = _
  rw [State.setTx_txAt]
  simp only [State.reset, State.resetWith, State.txAt, Vector.getElem_replicate]

theorem looped_rxAt (k : Handle) : looped.rxAt k = if k = 0 then waiting else RxContext.fresh Config.standard := by
  show State.rxAt (State.setRx _ 0 waiting) k = _
  rw [State.setRx_rxAt]
  simp only [State.reset, State.resetWith, State.rxAt, State.setTx, Vector.getElem_replicate]

/-- The invariant holds of a state with a frame on its way, which is not the reset state. -/
theorem looped_ok : StateOk looped where
  cfg := standard_valid
  txCount := by decide
  rxCount := by decide
  tx k := by
    rw [looped_txAt]
    split
    · have h : TxOk Config.standard { attachedTx Config.standard 2 with life := .active } := .fresh standard_valid _ _
      exact TxOk.framed (t := sender) { h with } standard_valid rfl (by decide) (by decide)
    · rw [← attachedTx_free standard_valid]
      exact .fresh standard_valid _ _
  rx k := by
    rw [looped_rxAt]
    split
    · have h : RxOk Config.standard { attachedRx Config.standard 2 3 with life := .active } :=
        .fresh standard_valid _ _ (by decide)
      exact RxOk.listening (x := { hearer with pin := 2 }) { h with } (by decide) rfl (by decide) (by decide)
    · rw [← attachedRx_free standard_valid]
      exact .fresh standard_valid _ _ (by decide)
  txDistinct := by decide
  txMember k := by
    rw [looped_txAt, show looped.txReg.live = [0] from by decide]
    split <;> simp_all [sending, startFrame, sender, TxContext.fresh]
  txExists k := by
    rw [looped_txAt]
    split
    · rename_i e
      subst e
      decide
    · simp [TxContext.fresh]
  rxDistinct := by decide
  rxMember k := by
    rw [looped_rxAt, show looped.rxReg.live = [0] from by decide]
    split <;> simp_all [waiting, startListening, clearTracker, hearer, RxContext.fresh]
  rxExists k := by
    rw [looped_rxAt]
    split
    · rename_i e
      subst e
      decide
    · simp [RxContext.fresh]
  txStopped h := by simp [looped] at h
  rxStopped h := by simp [looped] at h

theorem loopedWith_ok (i : Input) : StateOk (loopedWith i) :=
  looped_ok.congr rfl rfl rfl rfl (fun _ => rfl) (fun _ => rfl)

/-- `Decodable` holds of the default profile under TC1. -/
theorem default_decodable : Decodable Config.standard (Profile.default Config.standard) :=
  ⟨by decide, by decide, by decide, by decide, by decide, .inl (by decide), .inl (by decide)⟩

theorem witness_DecodeOfEncode :
    (Instr.txSetInterval 255 65535 65535).wellFormed = true ∧ (Instr.txSend 0 255).wellFormed = true := by decide
theorem witness_DecodeKeepsUsedBits : decode 0x1700FF03FFFF = .instr (.txSetId 0 3) := by decide
theorem witness_UnusedFieldsIgnored :
    decode 0x170000030000 = .instr (.txSetId 0 3) ∧
    (0x1700FF03FFFF#48 &&& usedBits (.txSetId 0 3)) = 0x170000030000#48 &&& usedBits (.txSetId 0 3) := by decide
/-- Both ends of every range of R106. -/
theorem witness_UndefinedOpcodesRejected :
    undefinedOpcodes 0x00 ∧ undefinedOpcodes 0x02 ∧ undefinedOpcodes 0x0F ∧ undefinedOpcodes 0x19 ∧
    undefinedOpcodes 0x1F ∧ undefinedOpcodes 0x2C ∧ undefinedOpcodes 0xFF ∧ validCfg looped.cfg ∧
    (loopedWith (.word 0x2C0000000000 noPayload)).inputs = .word 0x2C0000000000 noPayload :: [] ∧
    opcodeField 0x2C0000000000 = 0x2C := by
  refine ⟨by decide, by decide, by decide, by decide, by decide, by decide, by decide, standard_valid, rfl, by decide⟩
theorem witness_StepRunsDecodedCommand :
    validCfg looped.cfg ∧
    (loopedWith (.word 0x130000000000 noPayload)).inputs = .word 0x130000000000 noPayload :: [] ∧
    decode 0x130000000000 = .instr (.txStop 0) := ⟨standard_valid, rfl, by decide⟩
theorem witness_EveryStepAnswers : validCfg looped.cfg := by decide
/-- R11 (2), at its boundary. -/
theorem witness_InvalidConfigurationRefused :
    ¬validCfg (State.resetWith { Config.standard with tick := 0 } (Vector.replicate 256 .low)).cfg := by decide
theorem witness_EnvironmentDrivesLine :
    validCfg looped.cfg ∧ (loopedWith (.drive 255 .high)).inputs = .drive 255 .high :: [] := ⟨standard_valid, rfl⟩
theorem witness_HardwareResetValues :
    validCfg looped.cfg ∧ (loopedWith .hardwareReset).inputs = .hardwareReset :: [] := by decide
theorem witness_HardwareResetKeepsLines :
    validCfg looped.cfg ∧ (loopedWith .hardwareReset).inputs = .hardwareReset :: [] := by decide
theorem witness_StepKeepsConfiguration : ∃ t, step (loopedWith .hardwareReset) = .next t :=
  ⟨_, (step_valid (s := loopedWith .hardwareReset) standard_valid).trans rfl⟩
theorem witness_ResetMeetsInvariant : validCfg Config.standard ∧ validCfg tc2 := by decide
/-- A tick, a drive and a reset from a state with a frame on its way. -/
theorem witness_StepKeepsInvariant :
    StateOk (loopedWith (.word 0x010000000000 noPayload)) ∧
    (∃ t, step (loopedWith (.word 0x010000000000 noPayload)) = .next t) ∧
    StateOk (loopedWith (.drive 2 .high)) ∧ ∃ t, step (loopedWith (.drive 2 .high)) = .next t :=
  ⟨loopedWith_ok _, ⟨_, (step_valid (s := loopedWith _) standard_valid).trans rfl⟩,
    loopedWith_ok _, ⟨_, (step_valid (s := loopedWith _) standard_valid).trans rfl⟩⟩
theorem witness_ChecksumOrderAndSingleByte : [1, 2, 3].Perm ([3, 2, 1] : List Byte) ∧ (0x01 : Byte) ≠ 0x81 := by decide
/-- The full buffer, and the shortest frame; a header of address 0, and one of channel 0. -/
theorem witness_FrameCheckAcceptsExactlyFrames :
    validCfg Config.standard ∧ ready.address ≠ 0 ∧ ready.channel ≠ 0 ∧
    (bufByte Config.standard [(0, 0x01)] 0).toNat / 16 = 0 ∧ (bufByte Config.standard [(0, 0x30)] 0).toNat % 16 = 0 ∧
    overflowed.bufLen ≤ Config.standard.bufCap ∧ ready.bufLen ≤ Config.standard.bufCap ∧ frameOk Config.standard ready = true ∧
    frameOk Config.standard overflowed = false := by decide

/-- V-PROF-11, V-PROF-2, V-PROF-5 and V-PROF-13: every clause, each at its boundary. -/
theorem witness_SetIntervalWidensGap :
    validCfg Config.standard ∧ 2 * Config.standard.deviation ≤ absDiff (clamp 300 100 5000) (clamp 100 100 5000) ∧
    absDiff (clamp 300 100 5000) (clamp 101 100 5000) < 2 * Config.standard.deviation ∧
    Config.standard.minInterval + 2 * Config.standard.deviation ≤ clamp 300 100 5000 ∧
    absDiff (clamp 299 100 5000) (clamp 100 100 5000) < 2 * Config.standard.deviation ∧
    clamp 299 100 5000 < Config.standard.minInterval + 2 * Config.standard.deviation ∧
    clamp 100 100 5000 + 2 * Config.standard.deviation ≤ Config.standard.maxTime ∧
    validCfg tc2 ∧ absDiff (clamp 250 100 350) (clamp 151 100 350) < 2 * tc2.deviation ∧
    clamp 250 100 350 < tc2.minInterval + 2 * tc2.deviation ∧ tc2.maxTime < clamp 151 100 350 + 2 * tc2.deviation ∧
    absDiff (setIntervalCore tc2 250 250).1 (setIntervalCore tc2 250 250).2 < 2 * tc2.deviation := by decide

/-- A word of each opcode, unused bits set (R101). -/
theorem witness_Encodes :
    opcodeField 0x10FFFFFFFFFF = 0x10 ∧ opcodeField 0x18FFFFFFFFFF = 0x18 ∧ opcodeField 0x20FFFFFFFFFF = 0x20 ∧
    opcodeField 0x2BFFFFFFFFFF = 0x2B := by decide

/-- Handle 0 names an `Active` transmitter; 1 names a `Free` one; 8 names none under TC1. -/
theorem witness_transmitter_handles : calm.txActive 0 ∧ ¬calm.txActive 1 ∧ ¬calm.txActive 8 := by decide
/-- Handle 0 names an `Active` receiver; 1 names a `Free` one; 8 names none under TC1. -/
theorem witness_receiver_handles : calm.rxActive 0 ∧ ¬calm.rxActive 1 ∧ ¬calm.rxActive 8 := by decide
theorem witness_TxSetIntervalRule : calm.txActive 0 ∧ ¬calm.txActive 8 := by decide
theorem witness_TxSetStartRule : calm.txActive 0 ∧ ¬calm.txActive 8 := by decide
theorem witness_RxSetIntervalRule : calm.rxActive 0 ∧ ¬calm.rxActive 8 := by decide
theorem witness_RxSetStartRule : calm.rxActive 0 ∧ ¬calm.rxActive 8 := by decide
theorem witness_TxStopRule : calm.txActive 0 ∧ ¬calm.txActive 8 := by decide
theorem witness_TxSetChannelRule :
    calm.txActive 0 ∧ ¬calm.txActive 8 ∧ (calm.txAt 0).phase ≠ .errorDefinitions ∧ (calm.txAt 0).id ≠ 0 ∧
    (0x20 : Byte).toNat % 16 = 0 := by decide
theorem witness_TxSetIdRule :
    calm.txActive 0 ∧ ¬calm.txActive 8 ∧ (calm.txAt 0).phase ≠ .errorDefinitions ∧ (0xF0 : Byte).toNat % 16 = 0 := by decide
theorem witness_TxGetStateRule : calm.txActive 0 ∧ ¬calm.txActive 8 := by decide
theorem witness_RxStopRule : calm.rxActive 0 ∧ ¬calm.rxActive 8 := by decide
theorem witness_RxResetRule : calm.rxActive 0 ∧ ¬calm.rxActive 8 := by decide
theorem witness_RxSetChannelRule :
    calm.rxActive 0 ∧ ¬calm.rxActive 8 ∧ (calm.rxAt 0).phase ≠ .errorOverflow ∧
    (calm.rxAt 0).phase ≠ .errorDefinitions ∧ (calm.rxAt 0).address ≠ 0 ∧ (0x20 : Byte).toNat % 16 = 0 := by decide
theorem witness_RxGetStateRule : calm.rxActive 0 ∧ ¬calm.rxActive 8 ∧ StateOk looped :=
  ⟨by decide, by decide, looped_ok⟩

/-- The six clauses; the lengths 30 and 31 are the two sides of the last one's bound. -/
theorem witness_TxSendRule :
    ¬calm.txActive 8 ∧
    (both { sender with phase := .errorDefinitions } hearer).txActive 0 ∧
    (both { sender with id := 0 } hearer).txActive 0 ∧ (both { sender with channel := 0 } hearer).txActive 0 ∧
    calm.txActive 0 ∧ (calm.txAt 0).phase ≠ .errorDefinitions ∧ (calm.txAt 0).id ≠ 0 ∧ (calm.txAt 0).channel ≠ 0 ∧
    calm.cfg.maxPayload < 31 ∧ validCfg calm.cfg ∧ 30 ≤ calm.cfg.maxPayload := by decide

/-- A half of three ticks, and one of a duration of 0. -/
theorem witness_HalfLastsCeilTicks :
    sender.phase ≠ .sending ∧
    1 ≤ Config.standard.tick ∧ sending.phase = .sending ∧ sending.elapsed = 0 ∧
    { sending with half := .low, bufLen := 0 }.byteIndex = { sending with half := .low, bufLen := 0 }.bufLen ∧
    { sending with half := .low }.byteIndex ≠ { sending with half := .low }.bufLen ∧
    halfTicks Config.standard 250 = 3 ∧ halfTicks Config.standard 0 = 1 := by decide

theorem sending_loaded : FrameLoaded Config.standard sending (frameBytes 3 1 [1, 2, 3]) :=
  ⟨by decide, by decide, by decide, by decide, by decide, by decide, by decide, by decide, by decide⟩

theorem witness_FrameWaveform :
    1 ≤ Config.standard.tick ∧ FrameLoaded Config.standard sending (frameBytes 3 1 [1, 2, 3]) := ⟨by decide, sending_loaded⟩

theorem witness_RxListenRule :
    ¬calm.rxActive 8 ∧ (both sender overflowed).rxActive 0 ∧ overflowed.phase = .errorOverflow ∧
    (both sender { hearer with address := 0 }).rxActive 0 ∧ (both sender { hearer with channel := 0 }).rxActive 0 ∧
    calm.rxActive 0 ∧ hearer.phase = .idle ∧ hearer.address ≠ 0 ∧ hearer.channel ≠ 0 := by decide
theorem ready_ok : RxOk Config.standard ready := by
  have h : RxOk Config.standard { attachedRx Config.standard 4 3 with life := .active } :=
    .fresh standard_valid _ _ (by decide)
  exact
    { h with
      buffer := by decide
      length := by decide
      settled := by decide
      message := fun _ => by decide
      definitions := fun _ => by decide
      inert := fun hi => by simp [ready, hearer] at hi
      address := fun _ => by decide }

theorem witness_RxReadOutRule :
    (both sender ready).rxActive 0 ∧ ((both sender ready).rxAt 0).phase = .messageReady ∧ calm.rxActive 0 ∧
    (calm.rxAt 0).phase ≠ .messageReady ∧ ¬calm.rxActive 8 ∧ StateOk (looped.setRx 0 ready) ∧
    ((looped.setRx 0 ready).rxAt 0).phase = .messageReady :=
  ⟨by decide, by decide, by decide, by decide, by decide,
    looped_ok.setRx ready_ok rfl (fun h => by simp [looped] at h), by decide⟩
theorem witness_RxClearBufferRule :
    (both sender ready).rxActive 0 ∧ ((both sender ready).rxAt 0).phase = .messageReady ∧ calm.rxActive 0 ∧
    (calm.rxAt 0).phase ≠ .messageReady ∧ ¬calm.rxActive 8 := by decide

/-- The last free bit of the buffer, and the full buffer. -/
theorem witness_StoreBitRule :
    Config.standard.bufCap ≤ overflowed.bufLen ∧
    { overflowed with bufLen := 32, bitCursor := 0 }.bufLen < Config.standard.bufCap ∧
    { overflowed with bufLen := 32, bitCursor := 0 }.bitCursor = 0 ∧ { overflowed with bufLen := 32 }.bitCursor ≠ 0 := by
  decide
/-- V-CLS-2, V-CLS-6, V-CLS-10 and V-CLS-3. -/
theorem witness_ClassifyPairRule :
    (absDiff 1400 1500 ≤ 100 ∧ absDiff 1600 1500 ≤ 100) ∧
    (¬(absDiff 700 1500 ≤ 100) ∧ absDiff 700 800 ≤ 100 ∧ absDiff 500 400 ≤ 100) ∧
    (¬(absDiff 500 800 ≤ 100) ∧ absDiff 500 400 ≤ 100 ∧ absDiff 700 800 ≤ 100) ∧
    ¬(absDiff 1399 1500 ≤ 100) ∧ ¬(absDiff 1399 800 ≤ 100) ∧ ¬(absDiff 1399 400 ≤ 100) := by decide
/-- Nothing pending; a pending bit that does not fit, and one behind a message; one that completes a frame; one that
does not. -/
theorem witness_TimeoutRule :
    let last : RxContext :=
      { startListening hearer with
        buf := [(0, 0x31), (1, 0x01), (2, 0x55), (3, 0x54)], bufLen := 3, bitCursor := 0, found := true, pending := true,
        sampleHigh := 800 }
    (startListening hearer).pending = false ∧ last.pending = true ∧ absDiff last.sampleHigh last.profile.high ≤ 100 ∧
    (storeBit Config.standard last true).phase = .listening ∧ frameOk Config.standard (storeBit Config.standard last true) = true ∧
    frameOk Config.standard (storeBit Config.standard { last with bufLen := 2 } true) = false ∧
    (storeBit Config.standard { last with bufLen := 33 } true).phase ≠ .listening ∧
    (storeBit Config.standard { ready with pending := true, sampleHigh := 800 } true).phase ≠ .listening := by decide
theorem witness_EdgeDetectionRule :
    let idle := startListening hearer
    let up : RxContext := { idle with found := true, prevLevel := .high }
    let down : RxContext := { idle with found := true, prevLevel := .low }
    Level.low = idle.prevLevel ∧ (Level.high ≠ idle.prevLevel ∧ idle.found = false) ∧
    (Level.low ≠ up.prevLevel ∧ up.found = true) ∧ (Level.high ≠ down.prevLevel ∧ down.pending = false) ∧
    Level.high ≠ { down with pending := true }.prevLevel := by decide
/-- Off; one time unit before the time-out; at the time-out without and with an overflow. -/
theorem witness_ReceiverTickOrder :
    let c := Config.standard
    let on : RxContext := startListening hearer
    ¬(hearer.phase = .listening ∨ hearer.phase = .messageReady) ∧ on.phase = .listening ∧
    { on with elapsed := 4899 }.elapsed + c.tick < c.elapsedMax ∧
    c.elapsedMax ≤ { on with elapsed := 4900 }.elapsed + c.tick ∧
    (timeout c { on with elapsed := 5000 }).phase = .listening ∧
    (timeout c { on with elapsed := 5000, found := true, pending := true, sampleHigh := 800, bufLen := 33 }).phase =
      .errorOverflow := by decide

/-- A ready message behind which `n` bytes in all have come, with a HIGH sample pending (R209). -/
def readyPending (n sample elapsed : Nat) : RxContext :=
  { ready with found := true, pending := true, sampleHigh := sample, elapsed := elapsed, bufLen := n }

theorem readyPending_ok {n sample elapsed : Nat} (h1 : 4 ≤ n) (h2 : n ≤ 33) (h3 : sample < 5000) (h4 : elapsed < 5000) :
    RxOk Config.standard (readyPending n sample elapsed) :=
  { ready_ok with
    length := h2
    message := fun _ => ⟨by show (bufByte Config.standard ready.buf 1).toNat ≤ 30; decide, h1⟩
    pending := fun _ => ⟨rfl, rfl⟩
    elapsed := h4
    samples := ⟨h3, show 0 < 5000 by decide⟩ }

/-- A START at the bounds of its windows; a full buffer and a pair, or a lone pulse at the time-out; and neither: a bit
with room for it, a time-out with nothing pending. -/
theorem witness_ReadyMessageStable :
    RxOk Config.standard (readyPending 4 1400 1500) ∧ (readyPending 4 1400 1500).phase = .messageReady ∧
    (absDiff 1400 1500 ≤ 100 ∧ absDiff (1500 + 100) 1500 ≤ 100 ∧ 1500 + 100 < 5000) ∧
    RxOk Config.standard (readyPending 33 800 300) ∧ (absDiff 800 800 ≤ 100 ∧ absDiff (300 + 100) 400 ≤ 100) ∧
    RxOk Config.standard (readyPending 33 500 4900) ∧ (5000 ≤ 4900 + 100 ∧ absDiff 500 400 ≤ 100) ∧
    RxOk Config.standard (readyPending 32 800 300) ∧ RxOk Config.standard ready ∧ ready.pending = false :=
  ⟨readyPending_ok (by decide) (by decide) (by decide) (by decide), rfl, by decide,
    readyPending_ok (by decide) (by decide) (by decide) (by decide), by decide,
    readyPending_ok (by decide) (by decide) (by decide) (by decide), by decide,
    readyPending_ok (by decide) (by decide) (by decide) (by decide), ready_ok, rfl⟩
/-- R209, R197 (c): the START ends the ready message, the full buffer overflows on a pair and on a lone pulse, and a
lone pulse at a time-out with room is stored without a validation. -/
theorem test_ready_ends :
    (rxTick Config.standard .high (readyPending 4 1400 1500)).phase = .listening ∧
    (rxTick Config.standard .high (readyPending 33 800 300)).phase = .errorOverflow ∧
    (rxTick Config.standard .low (readyPending 33 500 4900)).phase = .errorOverflow ∧
    (rxTick Config.standard .low (readyPending 32 500 4900)).phase = .messageReady := by decide

/-- A symbol off by the whole tolerance in both halves (V-CLS-6, V-CLS-10 the other way): a ONE of 900 and 300 time
units, a ZERO of 500 and 700. -/
def offSymbol (b : Bool) : Nat × Nat := if b then (9, 3) else (5, 7)

theorem offSymbol_measured (b : Bool) : MeasuredBit Config.standard waiting.profile b (offSymbol b) := by
  cases b
  · exact ⟨⟨by decide, by decide, by decide⟩, by decide, by decide⟩
  · exact ⟨⟨by decide, by decide, by decide⟩, by decide, by decide⟩

/-- The shortest frame for this receiver and the same for another (V-RX-21), the longest frame's length, every half off
by the whole tolerance, and the time-out of 50 ticks. The last bit of both is a ZERO. -/
theorem witness_FrameReception :
    validCfg Config.standard ∧ Waiting waiting ∧ 3 ≤ (frameBytes 3 1 []).length ∧
    (frameBytes 3 1 (List.replicate 30 0xFF)).length ≤ Config.standard.bufCap ∧ timeoutTicks Config.standard ≤ 50 ∧
    Measured Config.standard waiting.profile.startHigh waiting.profile.startLow (14, 16) ∧
    (∀ address ∈ [(3 : Nibble), 4], List.Forall₂ (MeasuredBit Config.standard waiting.profile)
      (wireBits (frameBytes address 1 []))
      ((wireBits (frameBytes address 1 [])).dropLast.map offSymbol ++ [offSymbol false])) ∧
    Config.standard.deviation < absDiff ((offSymbol false).1 * Config.standard.tick) waiting.profile.high ∧
    (∃ payload : List Byte, payload.length ≤ Config.standard.maxPayload ∧
      frameBytes 3 1 [] = frameBytes waiting.address waiting.channel payload) ∧
    ¬∃ payload : List Byte, payload.length ≤ Config.standard.maxPayload ∧
      frameBytes 4 1 [] = frameBytes waiting.address waiting.channel payload := by
  refine ⟨standard_valid, ⟨by decide, by decide, by decide, by decide⟩, by decide, by decide, by decide,
    ⟨by decide, by decide, by decide⟩, fun address ha => ?_, by decide, ⟨[], by decide, by decide⟩, ?_⟩
  · have hs : (wireBits (frameBytes address 1 [])).dropLast.map offSymbol ++ [offSymbol false] =
        (wireBits (frameBytes address 1 [])).map offSymbol := by
      revert address
      decide
    rw [hs, List.forall₂_map_right_iff, List.forall₂_same]
    exact fun b _ => offSymbol_measured b
  rintro ⟨payload, -, h⟩
  have := congrArg List.head? h
  simp only [frameBytes, List.head?_cons, Option.some.injEq] at this
  revert this
  decide

theorem witness_LoopbackDelivers :
    StateOk looped ∧ looped.txActive 0 ∧ looped.rxActive 0 ∧
    (looped.rxAt 0).pin = (looped.txAt 0).pin ∧ (looped.rxAt 0).profile = (looped.txAt 0).profile ∧
    (looped.rxAt 0).address = (looped.txAt 0).id ∧ (looped.rxAt 0).channel = (looped.txAt 0).channel ∧
    (looped.txAt 0).channel ≠ 0 ∧
    (∀ k ∈ looped.txReg.live, k ≠ 0 → (looped.txAt k).pin = (looped.txAt 0).pin → (looped.txAt k).phase ≠ .sending) ∧
    30 ≤ looped.cfg.maxPayload ∧ Waiting (looped.rxAt 0) ∧ Decodable looped.cfg (looped.txAt 0).profile := by
  have h1 := looped_txAt 0
  have h2 := looped_rxAt 0
  simp only [if_true] at h1 h2
  refine ⟨looped_ok, by decide, by decide, by decide, by decide, by decide, by decide, by decide, by decide,
    by decide, ?_, ?_⟩
  · rw [h2]
    exact ⟨by decide, by decide, by decide, by decide⟩
  · rw [h1]
    exact default_decodable

/-- No such context; one in use; a full registry; the last free slot. -/
theorem witness_TxAttachRule :
    State.reset.cfg.nTxCtx ≤ (8 : Handle).toNat ∧ (7 : Handle).toNat < State.reset.cfg.nTxCtx ∧
    (calm.txAt 0).life ≠ .free ∧ (fullTx.txAt 7).life = .free ∧ fullTx.cfg.maxTransmitters ≤ fullTx.txReg.count.val ∧
    validCfg State.reset.cfg ∧ (State.reset.txAt 7).life = .free ∧
    (fullTx.txReg.remove 4).1.count.val + 1 = fullTx.cfg.maxTransmitters := by decide
/-- As for transmitters, and the address nibble 0 of V-REG-6. -/
theorem witness_RxAttachRule :
    State.reset.cfg.nRxCtx ≤ (8 : Handle).toNat ∧ (7 : Handle).toNat < State.reset.cfg.nRxCtx ∧
    (calm.rxAt 0).life ≠ .free ∧ (full.rxAt 7).life = .free ∧ full.cfg.maxReceivers ≤ full.rxReg.count.val ∧
    validCfg State.reset.cfg ∧ (State.reset.rxAt 7).life = .free ∧
    (full.rxReg.remove 4).1.count.val + 1 = full.cfg.maxReceivers ∧
    BitVec.ofNat 4 ((0x10 : Byte).toNat % 16) = 0#4 ∧ BitVec.ofNat 4 ((0x1F : Byte).toNat % 16) ≠ 0#4 := by decide
theorem witness_TxDetachRule :
    calm.cfg.nTxCtx ≤ (8 : Handle).toNat ∧ (calm.txAt 1).life = .free ∧ calm.txActive 0 ∧
    (both { sender with life := .inert } hearer).cfg.nTxCtx = 8 ∧
    ((both { sender with life := .inert } hearer).txAt 0).life = .inert := by decide
theorem witness_RxDetachRule :
    calm.cfg.nRxCtx ≤ (8 : Handle).toNat ∧ (calm.rxAt 1).life = .free ∧ calm.rxActive 0 ∧
    (both sender { hearer with life := .inert }).cfg.nRxCtx = 8 ∧
    ((both sender { hearer with life := .inert }).rxAt 0).life = .inert := by decide
/-- One slot left, and none. -/
theorem witness_RegistryAdmission :
    5 ≤ Config.registrySlots ∧ (full.rxReg.remove 4).1.count.val < 5 ∧ 5 ≤ full.rxReg.count.val := by decide
/-- V-REG-3: a handle in the middle, the last one, and one that is not registered. -/
theorem witness_RegistryEviction :
    full.rxReg.live = [0] ++ 1 :: ([2, 3] ++ [4]) ∧ (1 : Handle) ∉ [0] ∧
    full.rxReg.live = [0, 1, 2, 3] ++ [4] ∧ (4 : Handle) ∉ [0, 1, 2, 3] ∧ 9 ∉ full.rxReg.live := by decide
theorem witness_TickIgnoredBeforeStart : calm.tickRunning = false := by decide
theorem witness_TickAdvancesEachOnce :
    looped.tickRunning = true ∧ looped.txReg.live.Nodup ∧ looped.rxReg.live.Nodup ∧ 0 ∈ looped.txReg.live ∧
    0 ∈ looped.rxReg.live ∧ 1 ∉ looped.txReg.live ∧ 1 ∉ looped.rxReg.live ∧
    ∀ h ∈ looped.txReg.live, (looped.txAt h).pin = 3 → (looped.txAt h).phase ≠ .sending := by decide
/-- Two transmitters that send on one line (V-SCH-4), the second one last. -/
theorem witness_LastWriterHoldsLine :
    let s := { (fullTx.setTx 0 sending).setTx 1 sending with tickRunning := true }
    s.tickRunning = true ∧ s.txReg.live.Nodup ∧ s.txReg.live = [0] ++ 1 :: [2, 3, 4] ∧ (s.txAt 1).phase = .sending ∧
    ∀ k ∈ [2, 3, (4 : Handle)], (s.txAt k).pin = (s.txAt 1).pin → (s.txAt k).phase ≠ .sending := by decide
theorem witness_ReceiverOrderUnobservable :
    full.rxReg.live.Nodup ∧ (listing [4, 3, 2, 1, 0]).live.Perm full.rxReg.live := by decide
theorem witness_TickSourceStartedOnce : ∃ t, exec (.rxListen 0) calm = .next t := ⟨_, rfl⟩
theorem witness_OverflowLeftOnlyByReset :
    (∃ t, exec (.rxReset 0) (both sender overflowed) = .next t) ∧
    ((both sender overflowed).rxAt 0).life = .active ∧ ((both sender overflowed).rxAt 0).phase = .errorOverflow ∧
    ((after (exec (.rxReset 0) (both sender overflowed))).rxAt 0).phase ≠ .errorOverflow :=
  ⟨⟨_, rfl⟩, by decide, by decide, by decide⟩

/-- A transmitter whose profile is not separated. -/
def unseparated : TxContext :=
  { sender with profile := ⟨1500, 1500, 400, 400⟩, phase := .errorDefinitions }

/-- A receiver whose profile is not separated. -/
def unseparatedRx : RxContext :=
  { hearer with profile := ⟨1500, 1500, 400, 400⟩, phase := .errorDefinitions }

/-- `looped` with both contexts in `ErrorDefinitions`. -/
def undefined : State := (looped.setTx 0 unseparated).setRx 0 unseparatedRx

theorem undefined_ok : StateOk undefined := by
  have h1 := looped_ok.tx 0
  have h2 := looped_ok.rx 0
  rw [looped_txAt, if_pos rfl] at h1
  rw [looped_rxAt, if_pos rfl] at h2
  have hp : Profile.InRange Config.standard ⟨1500, 1500, 400, 400⟩ :=
    ⟨by decide, by decide, by decide, by decide⟩
  have t0 : TxOk Config.standard { attachedTx Config.standard 2 with life := .active } := .fresh standard_valid _ _
  have r0 : RxOk Config.standard { attachedRx Config.standard 4 3 with life := .active } :=
    .fresh standard_valid _ _ (by decide)
  refine (looped_ok.setTx (h := 0) (x := unseparated) ?_ rfl (by decide)).setRx (h := 0) (x := unseparatedRx) ?_ rfl
    (by decide)
  · exact
      { t0 with
        profile := hp
        sending := by decide
        elapsed := by decide
        definitions := by decide
        inert := by decide }
  · exact
      { r0 with
        profile := hp
        settled := by decide
        message := by decide
        definitions := by decide
        inert := by decide
        address := by decide }

theorem witness_DefinitionsLeftOnlyBySetInterval :
    StateOk undefined ∧ (∃ t, exec (.txSetInterval 0 800 400) undefined = .next t) ∧
    (undefined.txAt 0).life = .active ∧ (undefined.txAt 0).phase = .errorDefinitions ∧
    ((after (exec (.txSetInterval 0 800 400) undefined)).txAt 0).phase ≠ .errorDefinitions ∧
    (undefined.rxAt 0).life = .active ∧ (undefined.rxAt 0).phase = .errorDefinitions ∧
    ((after (exec (.rxSetInterval 0 800 400) undefined)).rxAt 0).phase ≠ .errorDefinitions :=
  ⟨undefined_ok, ⟨_, by rfl⟩, by decide, by decide, by decide, by decide, by decide, by decide⟩
theorem witness_PinAndAddressImmutable :
    (∃ t, exec (.rxAttach 0 9 3) calm = .next t) ∧ (calm.txAt 0).life ≠ .free ∧ (calm.rxAt 0).life ≠ .free :=
  ⟨⟨_, rfl⟩, by decide, by decide⟩
theorem witness_CommandTouchesOnlyItsContext :
    (∃ t, exec (.txDetach 0) calm = .next t) ∧ Instr.txDetach 0 ≠ .tick ∧ txTarget (.txDetach 0) ≠ some 1 ∧
    rxTarget (.txDetach 0) ≠ some 0 ∧
    (after (exec (.txDetach 0) ((both sending hearer).setLine 2 .high))).lineAt 2 ≠
      ((both sending hearer).setLine 2 .high).lineAt 2 :=
  ⟨⟨_, by rfl⟩, by decide, by decide, by decide, by decide⟩
theorem witness_ReadsHaveNoSideEffects : Instr.rxGetMessage 0 = .rxGetMessage 0 := rfl

end Sys2Proof.Tests
end

/-! # The scope of the model: the step and the configuration (R8, R11, R16, R20) -/

namespace Sys2Proof.Machine

section StepEquations

variable {s : State}

/-- The counterpart of `step_valid`: the one stop of the machine (R11). -/
theorem step_invalid (hc : ¬validCfg s.cfg) : step s = .refused .invalidConfiguration := if_neg hc

/-- The oldest pending input is the one taken (R16). -/
theorem takeNext_cons {i : Input} {rest : List Input} (hi : s.inputs = i :: rest) :
    takeNext s = takeInput i (s.advanceInputs rest) := by
  rw [takeNext, hi]

/-- A word of the opcode map runs as its command (R101). -/
theorem runWord_instr {w : CmdWord} {i : Instr} (hd : decode w = .instr i) : runWord w s = exec i s := by
  rw [runWord, hd]

end StepEquations

/-- Every next state this result can give has configuration `c`. -/
def LeavesConfig (c : Cfg) (r : Result) : Prop := ∀ t, r = .next t → t.cfg = c

/-! One rule per way a command is put together; a command's proof then follows the branches of its definition. -/

namespace LeavesConfig

variable {c : Cfg} {s : State} {h : Handle}

theorem next (hs : s.cfg = c) : LeavesConfig c (.next s) := fun t ht => by
  cases ht
  exact hs

theorem answer {status : Status} {value : Nat} (hs : s.cfg = c) : LeavesConfig c (answer s status value) := next hs

theorem ite {p : Prop} [Decidable p] {a b : Result} (ha : LeavesConfig c a) (hb : LeavesConfig c b) :
    LeavesConfig c (if p then a else b) := by
  split
  · exact ha
  · exact hb

theorem onTx {body : TxContext → State → Result} (hb : LeavesConfig s.cfg (body (s.txAt h) s.quiet)) :
    LeavesConfig s.cfg (onTx h s body) := ite hb (answer rfl)

theorem onRx {body : RxContext → State → Result} (hb : LeavesConfig s.cfg (body (s.rxAt h) s.quiet)) :
    LeavesConfig s.cfg (onRx h s body) := ite hb (answer rfl)

theorem storeTxProfile (t : TxContext) (p : Profile) : LeavesConfig s.cfg (storeTxProfile h t p s) :=
  ite (answer rfl) (answer rfl)

theorem storeRxProfile (r : RxContext) (p : Profile) : LeavesConfig s.cfg (storeRxProfile h r p s) :=
  ite (answer rfl) (answer rfl)

end LeavesConfig

theorem execTick_leavesConfig (s : State) : LeavesConfig s.cfg (execTick s) := by
  cases hr : s.tickRunning with
  | false =>
    rw [execTick_stopped s hr]
    exact .next rfl
  | true =>
    obtain ⟨hcfg, -⟩ := dispatchPass_frame s.quiet
    rw [execTick_running s hr]
    exact .next hcfg

/-- No command and no tick writes the configuration (R43). -/
theorem exec_leavesConfig (i : Instr) (s : State) : LeavesConfig s.cfg (exec i s) := by
  unfold exec
  cases i with
  | tick => exact execTick_leavesConfig s
  | txAttach => exact .ite (.answer rfl) (.ite (.answer rfl) (.ite (.answer rfl) (.answer rfl)))
  | txDetach => exact .ite (.answer rfl) (.ite (.answer rfl) (.answer rfl))
  | txSend =>
    exact .onTx (.ite (.answer rfl) (.ite (.answer rfl) (.ite (.answer rfl) (.ite (.answer rfl)
      (.answer (State.startTick_cfg _))))))
  | txSetInterval | txSetStart => exact .onTx (.storeTxProfile _ _)
  | txStop | txSetChannel | txSetId | txGetState => exact .onTx (.answer rfl)
  | rxAttach => exact .ite (.answer rfl) (.ite (.answer rfl) (.ite (.answer rfl) (.ite (.answer rfl) (.answer rfl))))
  | rxDetach => exact .ite (.answer rfl) (.ite (.answer rfl) (.answer rfl))
  | rxListen =>
    exact .onRx (.ite (.answer rfl) (.ite (.answer rfl) (.ite (.answer rfl) (.answer (State.startTick_cfg _)))))
  | rxSetInterval | rxSetStart => exact .onRx (.storeRxProfile _ _)
  | rxStop | rxReset | rxSetChannel | rxGetState => exact .onRx (.answer rfl)
  | rxGetMessage => exact .onRx (.ite (.next rfl) (.answer rfl))
  | rxGetMessageLength | rxClearBuffer => exact .onRx (.ite (.answer rfl) (.answer rfl))

/-- A step leaves the configuration as it is, whichever input it takes (R8, R43). -/
theorem step_cfg {s t : State} (h : step s = .next t) : t.cfg = s.cfg := by
  obtain ⟨-, hcases⟩ := step_cases h
  rcases hcases with ⟨-, hidle⟩ | ⟨w, payload, rest, i, -, -, hexec⟩ | ⟨w, payload, rest, op, -, -, hrejected⟩ |
    ⟨p, v, rest, -, hdrive⟩ | ⟨rest, -, hreset⟩
  · rw [hidle]
  · have hcfg := exec_leavesConfig i _ t hexec
    simpa using hcfg
  · simp [hrejected]
  · simp [hdrive, envDrive]
  · rw [hreset]
    rfl

/-- Settles O12: by the cases of a step; a command by `exec_leavesConfig`. -/
theorem stepKeepsConfiguration : Obligations.StepKeepsConfiguration := fun _ _ => step_cfg

/-- Settles O6, by following the word through the step: the input taken, the payload presented, the word decoded. -/
theorem stepRunsDecodedCommand : Obligations.StepRunsDecodedCommand := by
  intro s w payload rest i hc hi hd
  calc step s = takeNext s := step_valid hc
    _ = takeInput (.word w payload) (s.advanceInputs rest) := takeNext_cons hi
    _ = exec i ((s.advanceInputs rest).presentPayload payload) := runWord_instr hd

/-- Settles O8: the configuration is tested before any input is taken. -/
theorem invalidConfigurationRefused : Obligations.InvalidConfigurationRefused := fun _ => step_invalid

end Sys2Proof.Machine

/-! # The invariant of the machine (R44), and what is fixed from attach on (R25, R26) -/

namespace Sys2Proof.Machine

/-- Every next state this result can give meets `P`. -/
def Leaves (P : State → Prop) (r : Result) : Prop := ∀ t, r = .next t → P t

/-! One rule per way a command is put together, with what each branch knows. -/

namespace Leaves

variable {P : State → Prop} {s : State} {h : Handle}

theorem next (hs : P s) : Leaves P (.next s) := fun t ht => by
  cases ht
  exact hs

theorem answer {status : Status} {value : Nat} (hs : P (s.respond status value [])) :
    Leaves P (answer s status value) := next hs

theorem ite {p : Prop} [Decidable p] {a b : Result} (ha : p → Leaves P a) (hb : ¬p → Leaves P b) :
    Leaves P (if p then a else b) := by
  split
  · exact ha ‹_›
  · exact hb ‹_›

theorem onTx {body : TxContext → State → Result} (hi : P (s.quiet.respond .notInitialized 0 []))
    (hb : s.txActive h → Leaves P (body (s.txAt h) s.quiet)) : Leaves P (onTx h s body) :=
  ite hb fun _ => answer hi

theorem onRx {body : RxContext → State → Result} (hi : P (s.quiet.respond .notInitialized 0 []))
    (hb : s.rxActive h → Leaves P (body (s.rxAt h) s.quiet)) : Leaves P (onRx h s body) :=
  ite hb fun _ => answer hi

end Leaves

/-! ## The invariant

Each part of a command keeps `StateOk`; a command's proof then follows the branches of its definition. -/

section Contexts

variable {c : Cfg}

/-- A stopped transmitter does not send (R152). -/
theorem stoppedTxPhase_ne_sending (p : TxPhase) : stoppedTxPhase p ≠ .sending := by
  rcases stoppedTxPhase_cases p with ⟨-, e⟩ | ⟨-, e⟩ <;> simp [e]

/-- A stopped receiver does not track its line (R189). -/
theorem stoppedRxPhase_untracked (p : RxPhase) :
    stoppedRxPhase p ≠ .listening ∧ stoppedRxPhase p ≠ .messageReady := by
  rcases stoppedRxPhase_cases p with ⟨-, e⟩ | ⟨-, e⟩ | ⟨-, -, e⟩ <;> simp [e]

/-- A receiver at rest does not track its line (R132). -/
theorem restRx_untracked (c : Cfg) (p : Profile) : restRx c p ≠ .listening ∧ restRx c p ≠ .messageReady := by
  rcases restRx_cases c p with e | e <;> simp [e]

theorem TxOk.withChannel {x : TxContext} (hx : TxOk c x) (channel : Nibble) :
    TxOk c { x with channel := channel } := { hx with }

theorem TxOk.withId {x : TxContext} (hx : TxOk c x) (id : Nibble) : TxOk c { x with id := id } := { hx with }

/-- A detached transmitter keeps its other fields, which are don't-care from then on (R46, R232). -/
theorem TxOk.freed {x : TxContext} (hx : TxOk c x) : TxOk c { x with life := .free } :=
  { hx with inert := by simp }

theorem RxOk.withChannel {x : RxContext} (hx : RxOk c x) (channel : Nibble) :
    RxOk c { x with channel := channel } := { hx with }

/-- A detached receiver keeps its other fields, which are don't-care from then on (R46, R236). -/
theorem RxOk.freed {x : RxContext} (hx : RxOk c x) : RxOk c { x with life := .free } :=
  { hx with
    inert := by simp
    address := by simp }

/-- `RX_RESET` of an `Active` receiver, out of whatever phase (R182). -/
theorem RxOk.reset {x : RxContext} (hx : RxOk c x) (hl : x.life = .active) :
    RxOk c { x with bufLen := 0, phase := restRx c x.profile } := by
  have hrest := restRx_cases c x.profile
  exact
    { hx with
      length := Nat.zero_le _
      settled := by rcases hrest with e | e <;> simp [e]
      message := by rcases hrest with e | e <;> simp [e]
      definitions := fun _ => restRx_definitions
      inert := by simp [hl] }

/-- `RX_CLEAR_BUFFER` of a receiver that holds a message, which has a separated profile (R187). -/
theorem RxOk.bufferCleared {x : RxContext} (hx : RxOk c x) (hm : x.phase = .messageReady) :
    RxOk c (clearBuffer x) := by
  have ht : tracks x = true := (tracks_iff x).2 (.inr hm)
  have hsep := hx.separated_of_tracks ht
  exact
    { hx with
      buffer := Memory.wf_nil
      length := Nat.zero_le _
      settled := by simp [clearBuffer]
      message := by simp [clearBuffer]
      definitions := by simp [clearBuffer, hsep]
      inert := fun hi => absurd hi (hx.not_inert ht) }

end Contexts

/-- Admission either finds the registry full and leaves it, or appends the handle; the answer tells which (R237). -/
theorem Registry.add_cases (r : Registry) (h : Handle) {cap : Nat} (hcap : cap ≤ Config.registrySlots) :
    ((r.add cap h).2 = 0 ∧ (r.add cap h).1 = r) ∨
    ((r.add cap h).2 ≠ 0 ∧ (r.add cap h).1.live = r.live ++ [h]) := by
  by_cases hfull : cap ≤ r.count.val
  · rw [r.add_full h hfull]
    exact .inl ⟨rfl, rfl⟩
  · obtain ⟨hlive, hcount⟩ := r.add_live h hcap (by omega)
    exact .inr ⟨by omega, hlive⟩

namespace StateOk

variable {s : State} {h : Handle}

/-! What the reset state, a tick and the shared parts of the commands leave. -/

/-- The base case of R44: the reset state, under any configuration of R11 and any levels of the lines. -/
theorem resetWith {c : Cfg} (hc : validCfg c) (line : Vector Level 256) : StateOk (State.resetWith c line) where
  cfg := hc
  txCount := Nat.zero_le _
  rxCount := Nat.zero_le _
  tx k := by
    rw [State.resetWith_txAt, ← attachedTx_free hc]
    exact TxOk.fresh hc .free 0
  rx k := by
    rw [State.resetWith_rxAt, ← attachedRx_free hc]
    exact RxOk.fresh hc .free 0 (absurd rfl)
  txDistinct := by simp [State.resetWith]
  txMember k := by
    rw [State.resetWith_txAt]
    simp [State.resetWith, TxContext.fresh]
  txExists k := by simp [TxContext.fresh]
  rxDistinct := by simp [State.resetWith]
  rxMember k := by
    rw [State.resetWith_rxAt]
    simp [State.resetWith, RxContext.fresh]
  rxExists k := by simp [RxContext.fresh]
  txStopped _ k := by simp [TxContext.fresh]
  rxStopped _ k := by simp [RxContext.fresh]

theorem pinWrites (hs : StateOk s) (p : Pin) (vs : List Level) : StateOk (s.pinWrites p vs) :=
  hs.congr (by simp) (by simp) (by simp) (by simp) (by simp) (by simp)

/-- One transmitter advanced while the tick source runs, so that it may be `Sending` (R44 (8), R165). -/
theorem txAdvance (hs : StateOk s) (hr : s.tickRunning = true) : StateOk (txAdvance s h) := by
  obtain ⟨hlife, -⟩ := txTick_frame s.cfg (s.txAt h)
  exact (hs.setTx (hs.tx h).ticked hlife (by simp [hr])).pinWrites _ _

/-- One receiver advanced while the tick source runs (R44 (8), R196). -/
theorem rxAdvance (hs : StateOk s) (hr : s.tickRunning = true) : StateOk (rxAdvance s h) := by
  obtain ⟨hlife, -⟩ := rxTick_frame s.cfg (s.lineAt (s.rxAt h).pin) (s.rxAt h)
  exact hs.setRx ((hs.rx h).ticked hs.cfg _) hlife (by simp [hr])

/-- A pass over a list of handles, each of whose advances keeps the invariant and the running tick source. -/
theorem foldl {f : State → Handle → State} (l : List Handle) (hs : StateOk s) (hr : s.tickRunning = true)
    (hf : ∀ u k, StateOk u → u.tickRunning = true → StateOk (f u k) ∧ (f u k).tickRunning = true) :
    StateOk (l.foldl f s) ∧ (l.foldl f s).tickRunning = true :=
  List.foldlRecOn (motive := fun u => StateOk u ∧ u.tickRunning = true) l f ⟨hs, hr⟩
    fun u ⟨hu, hur⟩ k _ => hf u k hu hur

theorem dispatchPass (hs : StateOk s) (hr : s.tickRunning = true) : StateOk (dispatchPass s) := by
  obtain ⟨htx, htxr⟩ := hs.foldl s.txReg.live hr fun _ _ hu hur => ⟨hu.txAdvance hur, by simp [hur]⟩
  exact (htx.foldl _ htxr fun _ _ hu hur => ⟨hu.rxAdvance hur, hur⟩).1

theorem txStop (hs : StateOk s) : StateOk (txStop h s) :=
  (hs.setTx (hs.tx h).stopped rfl fun _ => stoppedTxPhase_ne_sending _).pinWrite _ _

theorem rxStop (hs : StateOk s) : StateOk (rxStop h s) :=
  hs.setRx (hs.rx h).stopped rfl fun _ => stoppedRxPhase_untracked _

/-! Attach and detach: the registry lists a handle exactly if its context is `Active` (R44 (1), (2)). -/

theorem not_mem_txReg (hs : StateOk s) (hl : (s.txAt h).life ≠ .active) : h ∉ s.txReg.live :=
  fun hm => hl ((hs.txMember h).1 hm)

theorem not_mem_rxReg (hs : StateOk s) (hl : (s.rxAt h).life ≠ .active) : h ∉ s.rxReg.live :=
  fun hm => hl ((hs.rxMember h).1 hm)

/-- A handle whose admission failed: the registry as it was, the context `Inert` (R231). -/
theorem attachTxInert (hs : StateOk s) (he : h.toNat < s.cfg.nTxCtx) (hl : (s.txAt h).life ≠ .active) (pin : Pin) :
    StateOk (s.setTx h { attachedTx s.cfg pin with life := .inert }) :=
  hs.changeTx (g := s.txReg) (TxOk.fresh hs.cfg .inert pin) hs.txCount hs.txDistinct
    (by simp [hs.not_mem_txReg hl]) (fun _ _ => Iff.rfl) (fun _ => he) restTx_ne_sending

/-- A handle admitted to a registry that did not list it: the context `Active` (R231). -/
theorem attachTxActive (hs : StateOk s) (he : h.toNat < s.cfg.nTxCtx) (hl : (s.txAt h).life ≠ .active) (pin : Pin)
    (hadd : (s.txReg.add s.cfg.maxTransmitters h).1.live = s.txReg.live ++ [h]) :
    StateOk (({ s with txReg := (s.txReg.add s.cfg.maxTransmitters h).1 }).setTx h
      { attachedTx s.cfg pin with life := .active }) := by
  have hnew := hs.not_mem_txReg hl
  refine hs.changeTx (TxOk.fresh hs.cfg .active pin) (Registry.add_count_le _ _ hs.txCount) ?_ ?_ ?_ (fun _ => he)
    restTx_ne_sending
  · rw [hadd]
    exact hs.txDistinct.append (List.nodup_singleton h) (by simpa using hnew)
  · simp [hadd]
  · intro k hk
    simp [hadd, hk]

/-- A transmitter at rest evicted and its context `Free`; a handle that was not registered has nothing to evict (R232,
R238). -/
theorem detachTx (hs : StateOk s) (hp : (s.txAt h).phase ≠ .sending) :
    StateOk (({ s with txReg := (s.txReg.remove h).1 }).setTx h { s.txAt h with life := .free }) := by
  have hmem := s.txReg.remove_mem h hs.txDistinct
  refine hs.changeTx (hs.tx h).freed (Nat.le_trans (s.txReg.remove_count_le h) hs.txCount)
    (s.txReg.remove_nodup h hs.txDistinct) ?_ ?_ (absurd rfl) hp
  · simp [hmem]
  · intro k hk
    simp [hmem, hk]

theorem detachTxInert (hs : StateOk s) (hl : (s.txAt h).life = .inert) :
    StateOk (s.setTx h { s.txAt h with life := .free }) := by
  have hdetach := hs.detachTx ((hs.tx h).inert hl)
  rwa [s.txReg.remove_absent h (hs.not_mem_txReg (by simp [hl]))] at hdetach

/-- A handle whose admission failed: the registry as it was, the context `Inert` (R235). -/
theorem attachRxInert (hs : StateOk s) (he : h.toNat < s.cfg.nRxCtx) (hl : (s.rxAt h).life ≠ .active) (pin : Pin)
    {address : Nibble} (ha : address ≠ 0) :
    StateOk (s.setRx h { attachedRx s.cfg pin address with life := .inert }) :=
  hs.changeRx (g := s.rxReg) (RxOk.fresh hs.cfg .inert pin fun _ => ha) hs.rxCount hs.rxDistinct
    (by simp [hs.not_mem_rxReg hl]) (fun _ _ => Iff.rfl) (fun _ => he) (restRx_untracked _ _)

/-- A handle admitted to a registry that did not list it: the context `Active` (R235). -/
theorem attachRxActive (hs : StateOk s) (he : h.toNat < s.cfg.nRxCtx) (hl : (s.rxAt h).life ≠ .active) (pin : Pin)
    {address : Nibble} (ha : address ≠ 0) (hadd : (s.rxReg.add s.cfg.maxReceivers h).1.live = s.rxReg.live ++ [h]) :
    StateOk (({ s with rxReg := (s.rxReg.add s.cfg.maxReceivers h).1 }).setRx h
      { attachedRx s.cfg pin address with life := .active }) := by
  have hnew := hs.not_mem_rxReg hl
  refine hs.changeRx (RxOk.fresh hs.cfg .active pin fun _ => ha) (Registry.add_count_le _ _ hs.rxCount) ?_ ?_ ?_
    (fun _ => he) (restRx_untracked _ _)
  · rw [hadd]
    exact hs.rxDistinct.append (List.nodup_singleton h) (by simpa using hnew)
  · simp [hadd]
  · intro k hk
    simp [hadd, hk]

/-- A receiver at rest evicted and its context `Free`; a handle that was not registered has nothing to evict (R236,
R238). -/
theorem detachRx (hs : StateOk s) (hp : (s.rxAt h).phase ≠ .listening ∧ (s.rxAt h).phase ≠ .messageReady) :
    StateOk (({ s with rxReg := (s.rxReg.remove h).1 }).setRx h { s.rxAt h with life := .free }) := by
  have hmem := s.rxReg.remove_mem h hs.rxDistinct
  refine hs.changeRx (hs.rx h).freed (Nat.le_trans (s.rxReg.remove_count_le h) hs.rxCount)
    (s.rxReg.remove_nodup h hs.rxDistinct) ?_ ?_ (absurd rfl) hp
  · simp [hmem]
  · intro k hk
    simp [hmem, hk]

theorem detachRxInert (hs : StateOk s) (hl : (s.rxAt h).life = .inert) :
    StateOk (s.setRx h { s.rxAt h with life := .free }) := by
  have hdetach := hs.detachRx (h := h) (by rcases (hs.rx h).inert hl with e | e <;> simp [e])
  rwa [s.rxReg.remove_absent h (hs.not_mem_rxReg (by simp [hl]))] at hdetach

/-! The commands. -/

theorem answers (hs : StateOk s) (status : Status) (value : Nat) : Leaves StateOk (answer s status value) :=
  .answer (hs.respond status value [])

theorem onTx {body : TxContext → State → Result} (hs : StateOk s)
    (hb : ∀ u, StateOk u → u.txActive h → Leaves StateOk (body (u.txAt h) u)) : Leaves StateOk (onTx h s body) :=
  .onTx (hs.quiet.respond _ _ _) (hb s.quiet hs.quiet)

theorem onRx {body : RxContext → State → Result} (hs : StateOk s)
    (hb : ∀ u, StateOk u → u.rxActive h → Leaves StateOk (body (u.rxAt h) u)) : Leaves StateOk (onRx h s body) :=
  .onRx (hs.quiet.respond _ _ _) (hb s.quiet hs.quiet)

theorem execTick (hs : StateOk s) : Leaves StateOk (execTick s) := by
  cases hr : s.tickRunning with
  | false =>
    rw [execTick_stopped s hr]
    exact .next hs.quiet
  | true =>
    rw [execTick_running s hr]
    exact .next (hs.quiet.dispatchPass hr)

theorem execTxAttach (hs : StateOk s) (h : Handle) (pin : Pin) : Leaves StateOk (execTxAttach h pin s) := by
  have hq := hs.quiet
  refine .ite (fun _ => hq.answers _ _) fun hexists => .ite (fun _ => hq.answers _ _) fun hfree => ?_
  have he : h.toNat < s.cfg.nTxCtx := Nat.lt_of_not_le hexists
  have hl : (s.quiet.txAt h).life ≠ .active := by simp_all
  rcases s.txReg.add_cases h hs.cfg.registries.1 with ⟨hfull, -⟩ | ⟨hadmitted, hlive⟩
  · exact .ite (fun _ => (hq.attachTxInert he hl pin).answers _ _) fun hn => absurd hfull hn
  · exact .ite (fun hf => absurd hf hadmitted) fun _ =>
      (((hq.attachTxActive he hl pin hlive).pinConfigure _ _).pinWrite _ _).answers _ _

theorem execTxDetach (hs : StateOk s) (h : Handle) : Leaves StateOk (execTxDetach h s) := by
  have hq := hs.quiet
  refine .ite (fun _ => hq.answers _ _) fun hused => .ite (fun _ => ?_) fun hnot => ?_
  · have hp : ((Machine.txStop h s.quiet).txAt h).phase ≠ .sending := by
      simpa [Machine.txStop] using stoppedTxPhase_ne_sending _
    exact (hq.txStop.detachTx hp).answers _ _
  · have hinert : (s.quiet.txAt h).life = .inert := by cases hl : (s.quiet.txAt h).life <;> simp_all
    exact (hq.detachTxInert hinert).answers _ _

theorem execTxSend (hs : StateOk s) (h : Handle) (length : Nat) : Leaves StateOk (execTxSend h length s) :=
  hs.onTx fun u hu ha =>
    .ite (fun _ => hu.answers _ _) fun hphase => .ite (fun _ => hu.answers _ _) fun _ =>
    .ite (fun _ => hu.answers _ _) fun _ => .ite (fun _ => hu.answers _ _) fun hfits => by
      have hlen : (u.payloadBytes length).length ≤ u.cfg.maxPayload := by
        have := List.length_take_le length u.payloadPort.toList
        simp only [State.payloadBytes]
        omega
      exact (hu.setTxStarted ((hu.tx h).framed hu.cfg ha.2 hphase hlen) rfl).answers _ _

theorem execTxStop (hs : StateOk s) (h : Handle) : Leaves StateOk (execTxStop h s) :=
  hs.onTx fun _ hu _ => hu.txStop.answers _ _

theorem execTxSetChannel (hs : StateOk s) (h : Handle) (channel : Byte) :
    Leaves StateOk (execTxSetChannel h channel s) :=
  hs.onTx fun _ hu _ =>
    (hu.setTx ((hu.tx h).withChannel (keptNibble channel)) rfl fun hr => hu.txStopped hr h).answers _ _

theorem execTxSetId (hs : StateOk s) (h : Handle) (id : Byte) : Leaves StateOk (execTxSetId h id s) :=
  hs.onTx fun _ hu _ => (hu.setTx ((hu.tx h).withId (keptNibble id)) rfl fun hr => hu.txStopped hr h).answers _ _

theorem storeTxProfile (hs : StateOk s) {p : Profile} (hp : p.InRange s.cfg) :
    Leaves StateOk (storeTxProfile h (s.txAt h) p s) :=
  have hstored := (hs.setTx ((hs.tx h).rested hp) rfl fun _ => restTx_ne_sending).pinWrite (s.txAt h).pin .low
  .ite (fun _ => hstored.answers _ _) fun _ => hstored.answers _ _

theorem execRxAttach (hs : StateOk s) (h : Handle) (pin : Pin) (address : Byte) :
    Leaves StateOk (execRxAttach h pin address s) := by
  have hq := hs.quiet
  refine .ite (fun _ => hq.answers _ _) fun hexists => .ite (fun _ => hq.answers _ _) fun hfree =>
    .ite (fun _ => hq.answers _ _) fun ha => ?_
  have he : h.toNat < s.cfg.nRxCtx := Nat.lt_of_not_le hexists
  have hl : (s.quiet.rxAt h).life ≠ .active := by simp_all
  rcases s.rxReg.add_cases h hs.cfg.registries.2 with ⟨hfull, -⟩ | ⟨hadmitted, hlive⟩
  · exact .ite (fun _ => (hq.attachRxInert he hl pin ha).answers _ _) fun hn => absurd hfull hn
  · exact .ite (fun hf => absurd hf hadmitted) fun _ =>
      ((hq.attachRxActive he hl pin ha hlive).pinConfigure _ _).answers _ _

theorem execRxDetach (hs : StateOk s) (h : Handle) : Leaves StateOk (execRxDetach h s) := by
  have hq := hs.quiet
  refine .ite (fun _ => hq.answers _ _) fun hused => .ite (fun _ => ?_) fun hnot => ?_
  · have hp : ((Machine.rxStop h s.quiet).rxAt h).phase ≠ .listening ∧
        ((Machine.rxStop h s.quiet).rxAt h).phase ≠ .messageReady := by
      simpa [Machine.rxStop] using stoppedRxPhase_untracked _
    exact (hq.rxStop.detachRx hp).answers _ _
  · have hinert : (s.quiet.rxAt h).life = .inert := by cases hl : (s.quiet.rxAt h).life <;> simp_all
    exact (hq.detachRxInert hinert).answers _ _

theorem execRxListen (hs : StateOk s) (h : Handle) : Leaves StateOk (execRxListen h s) :=
  hs.onRx fun u hu ha =>
    .ite (fun _ => hu.answers _ _) fun hfatal => .ite (fun _ => hu.answers _ _) fun _ =>
    .ite (fun _ => hu.answers _ _) fun _ => by
      obtain ⟨hoverflow, hdefinitions⟩ := not_or.1 hfatal
      have hx := (hu.rx h).listening hu.cfg.elapsedMax_pos ha.2 hoverflow hdefinitions
      exact (hu.setRxStarted hx rfl).answers _ _

theorem execRxStop (hs : StateOk s) (h : Handle) : Leaves StateOk (execRxStop h s) :=
  hs.onRx fun _ hu _ => hu.rxStop.answers _ _

theorem storeRxProfile (hs : StateOk s) (hl : (s.rxAt h).life = .active) {p : Profile} (hp : p.InRange s.cfg) :
    Leaves StateOk (storeRxProfile h (s.rxAt h) p s) := by
  have hstored := hs.setRx ((hs.rx h).rested hl hp) rfl fun _ => by
    by_cases ho : (s.rxAt h).phase = .errorOverflow
    · simp [ho]
    · simpa only [if_neg ho] using restRx_untracked s.cfg p
  exact .ite (fun _ => hstored.answers _ _) fun _ => hstored.answers _ _

theorem execRxSetChannel (hs : StateOk s) (h : Handle) (channel : Byte) :
    Leaves StateOk (execRxSetChannel h channel s) :=
  hs.onRx fun _ hu _ =>
    (hu.setRx ((hu.rx h).withChannel (keptNibble channel)) rfl fun hr => hu.rxStopped hr h).answers _ _

theorem execRxReset (hs : StateOk s) (h : Handle) : Leaves StateOk (execRxReset h s) :=
  hs.onRx fun _ hu ha => (hu.setRx ((hu.rx h).reset ha.2) rfl fun _ => restRx_untracked _ _).answers _ _

/-- A receiver that holds a message shows that the tick source runs, so it may listen again (R44 (8), R187). -/
theorem execRxClearBuffer (hs : StateOk s) (h : Handle) : Leaves StateOk (execRxClearBuffer h s) :=
  hs.onRx fun _ hu _ => .ite
    (fun hm => (hu.setRx ((hu.rx h).bufferCleared hm) rfl fun hr => absurd hm (hu.rxStopped hr h).2).answers _ _)
    fun _ => hu.answers _ _

/-- Every command and the tick keep the invariant. -/
theorem exec (hs : StateOk s) (i : Instr) : Leaves StateOk (exec i s) := by
  unfold Machine.exec
  cases i with
  | tick => exact hs.execTick
  | txAttach h pin => exact hs.execTxAttach h pin
  | txDetach h => exact hs.execTxDetach h
  | txSend h length => exact hs.execTxSend h length
  | txStop h => exact hs.execTxStop h
  | txSetInterval h high low =>
    exact hs.onTx fun _ hu _ => hu.storeTxProfile ((hu.tx h).profile.interval hu.cfg high low)
  | txSetStart h high low =>
    exact hs.onTx fun _ hu _ => hu.storeTxProfile ((hu.tx h).profile.start hu.cfg high low)
  | txSetChannel h channel => exact hs.execTxSetChannel h channel
  | txSetId h id => exact hs.execTxSetId h id
  | txGetState h => exact hs.onTx fun _ hu _ => hu.answers _ _
  | rxAttach h pin address => exact hs.execRxAttach h pin address
  | rxDetach h => exact hs.execRxDetach h
  | rxListen h => exact hs.execRxListen h
  | rxStop h => exact hs.execRxStop h
  | rxSetInterval h high low =>
    exact hs.onRx fun _ hu ha => hu.storeRxProfile ha.2 ((hu.rx h).profile.interval hu.cfg high low)
  | rxSetStart h high low =>
    exact hs.onRx fun _ hu ha => hu.storeRxProfile ha.2 ((hu.rx h).profile.start hu.cfg high low)
  | rxSetChannel h channel => exact hs.execRxSetChannel h channel
  | rxReset h => exact hs.execRxReset h
  | rxGetState h => exact hs.onRx fun _ hu _ => hu.answers _ _
  | rxGetMessage h =>
    exact hs.onRx fun _ hu _ => .ite (fun _ => .next (hu.respond _ _ _)) fun _ => hu.answers _ _
  | rxGetMessageLength h =>
    exact hs.onRx fun _ hu _ => .ite (fun _ => hu.answers _ _) fun _ => hu.answers _ _
  | rxClearBuffer h => exact hs.execRxClearBuffer h

/-! The other inputs. -/

theorem advanceInputs (hs : StateOk s) (rest : List Input) : StateOk (s.advanceInputs rest) :=
  hs.congr rfl rfl rfl rfl (fun _ => rfl) fun _ => rfl

theorem presentPayload (hs : StateOk s) (payload : Vector Byte Config.portBytes) : StateOk (s.presentPayload payload) :=
  hs.congr rfl rfl rfl rfl (fun _ => rfl) fun _ => rfl

theorem envDrive (hs : StateOk s) (p : Pin) (v : Level) : StateOk (envDrive p v s) :=
  hs.congr rfl rfl rfl rfl (fun _ => rfl) fun _ => rfl

theorem hardwareReset (hc : validCfg s.cfg) : StateOk (hardwareReset s) :=
  (resetWith hc s.line).congr rfl rfl rfl rfl (fun _ => rfl) fun _ => rfl

/-- The induction step of R44, by the input a step takes. -/
theorem step {t : State} (hs : StateOk s) (ht : step s = .next t) : StateOk t := by
  obtain ⟨-, hcases⟩ := step_cases ht
  rcases hcases with ⟨-, hidle⟩ | ⟨w, payload, rest, i, -, -, hexec⟩ | ⟨w, payload, rest, op, -, -, hrejected⟩ |
    ⟨p, v, rest, -, hdrive⟩ | ⟨rest, -, hreset⟩
  · exact hidle ▸ hs
  · exact ((hs.advanceInputs rest).presentPayload payload).exec i t hexec
  · exact hrejected ▸ ((hs.advanceInputs rest).presentPayload payload).quiet.respond _ _ _
  · exact hdrive ▸ (hs.advanceInputs rest).envDrive p v
  · exact hreset ▸ hardwareReset (hs.advanceInputs rest).cfg

end StateOk

/-- Settles O13: every context is the fresh one and both registries are empty. -/
theorem resetMeetsInvariant : Obligations.ResetMeetsInvariant := fun _ line hc => StateOk.resetWith hc line

/-- Settles O14, by the cases of a step; a command by `StateOk.exec`. -/
theorem stepKeepsInvariant : Obligations.StepKeepsInvariant := fun _ _ hs ht => hs.step ht

/-! ## What is fixed from attach on -/

/-- From `s` to `t` no context in use changes its pin, and no receiver in use its address (R25, R26). -/
structure KeepsIdentity (s t : State) : Prop where
  txPin : ∀ k, (s.txAt k).life ≠ .free → (t.txAt k).pin = (s.txAt k).pin
  rxPin : ∀ k, (s.rxAt k).life ≠ .free → (t.rxAt k).pin = (s.rxAt k).pin
  rxAddress : ∀ k, (s.rxAt k).life ≠ .free → (t.rxAt k).address = (s.rxAt k).address

namespace KeepsIdentity

variable {s t u : State} {h : Handle}

theorem refl (s : State) : KeepsIdentity s s := ⟨fun _ _ => rfl, fun _ _ => rfl, fun _ _ => rfl⟩

/-- Only what is no context is written. -/
theorem congr (hu : KeepsIdentity s u) (htx : t.tx = u.tx) (hrx : t.rx = u.rx) : KeepsIdentity s t where
  txPin k hk := by simpa only [State.txAt, htx] using hu.txPin k hk
  rxPin k hk := by simpa only [State.rxAt, hrx] using hu.rxPin k hk
  rxAddress k hk := by simpa only [State.rxAt, hrx] using hu.rxAddress k hk

/-- One transmitter context is written too, with the pin it had if it was in use at the start. -/
theorem setTx {x : TxContext} (hu : KeepsIdentity s u) (htx : t.tx = u.tx.set h.toNat x) (hrx : t.rx = u.rx)
    (hx : (s.txAt h).life ≠ .free → x.pin = (u.txAt h).pin) : KeepsIdentity s t := by
  refine congr (u := u.setTx h x) ⟨fun k hk => ?_, hu.rxPin, hu.rxAddress⟩ htx hrx
  rw [State.setTx_txAt]
  split
  · subst k
    exact (hx hk).trans (hu.txPin h hk)
  · exact hu.txPin k hk

/-- One receiver context is written too, with the pin and the address it had if it was in use at the start. -/
theorem setRx {x : RxContext} (hu : KeepsIdentity s u) (htx : t.tx = u.tx) (hrx : t.rx = u.rx.set h.toNat x)
    (hx : (s.rxAt h).life ≠ .free → x.pin = (u.rxAt h).pin ∧ x.address = (u.rxAt h).address) :
    KeepsIdentity s t := by
  refine congr (u := u.setRx h x) ⟨hu.txPin, fun k hk => ?_, fun k hk => ?_⟩ htx hrx <;>
    rw [State.setRx_rxAt] <;> split
  · subst k
    exact (hx hk).1.trans (hu.rxPin h hk)
  · exact hu.rxPin k hk
  · subst k
    exact (hx hk).2.trans (hu.rxAddress h hk)
  · exact hu.rxAddress k hk

/-! The tick and the commands. -/

/-- A command that writes no context. -/
theorem answers (status : Status) (value : Nat) : Leaves (KeepsIdentity s) (answer s.quiet status value) :=
  .answer ((refl s).congr rfl rfl)

theorem txAdvance (hu : KeepsIdentity s u) : KeepsIdentity s (txAdvance u h) := by
  obtain ⟨-, hpin, -⟩ := txTick_frame u.cfg (u.txAt h)
  exact hu.setTx (by simp [Machine.txAdvance]) (by simp) fun _ => hpin

theorem rxAdvance (hu : KeepsIdentity s u) : KeepsIdentity s (rxAdvance u h) := by
  obtain ⟨-, hpin, haddress, -⟩ := rxTick_frame u.cfg (u.lineAt (u.rxAt h).pin) (u.rxAt h)
  exact hu.setRx rfl rfl fun _ => ⟨hpin, haddress⟩

theorem dispatchPass (hu : KeepsIdentity s u) : KeepsIdentity s (dispatchPass u) := by
  have htx : KeepsIdentity s (advanceTransmitters u) :=
    List.foldlRecOn (motive := KeepsIdentity s) _ _ hu fun _ hv _ _ => hv.txAdvance
  exact List.foldlRecOn (motive := KeepsIdentity s) _ _ htx fun _ hv _ _ => hv.rxAdvance

theorem execTick (s : State) : Leaves (KeepsIdentity s) (execTick s) := by
  have hq : KeepsIdentity s s.quiet := (refl s).congr rfl rfl
  cases hr : s.tickRunning with
  | false =>
    rw [execTick_stopped s hr]
    exact .next hq
  | true =>
    rw [execTick_running s hr]
    exact .next hq.dispatchPass

theorem onTx {body : TxContext → State → Result} (hb : Leaves (KeepsIdentity s) (body (s.txAt h) s.quiet)) :
    Leaves (KeepsIdentity s) (onTx h s body) := .onTx ((refl s).congr rfl rfl) fun _ => hb

theorem onRx {body : RxContext → State → Result} (hb : Leaves (KeepsIdentity s) (body (s.rxAt h) s.quiet)) :
    Leaves (KeepsIdentity s) (onRx h s body) := .onRx ((refl s).congr rfl rfl) fun _ => hb

/-- An attach writes the pin of a context that is `Free` (R231). -/
theorem execTxAttach (h : Handle) (pin : Pin) (s : State) : Leaves (KeepsIdentity s) (execTxAttach h pin s) :=
  .ite (fun _ => answers _ _) fun _ => .ite (fun _ => answers _ _) fun hfree =>
    .ite (fun _ => .answer ((refl s).setTx rfl rfl fun hl => absurd hl hfree)) fun _ =>
      .answer ((refl s).setTx rfl rfl fun hl => absurd hl hfree)

theorem execTxDetach (h : Handle) (s : State) : Leaves (KeepsIdentity s) (execTxDetach h s) := by
  have hstopped : KeepsIdentity s (txStop h s.quiet) := (refl s).setTx rfl rfl fun _ => rfl
  exact .ite (fun _ => answers _ _) fun _ => .ite (fun _ => .answer (hstopped.setTx rfl rfl fun _ => rfl)) fun _ =>
    .answer ((refl s).setTx rfl rfl fun _ => rfl)

theorem execTxSend (h : Handle) (length : Nat) (s : State) : Leaves (KeepsIdentity s) (execTxSend h length s) :=
  onTx <| .ite (fun _ => answers _ _) fun _ => .ite (fun _ => answers _ _) fun _ => .ite (fun _ => answers _ _) fun _ =>
    .ite (fun _ => answers _ _) fun _ =>
      .answer ((refl s).setTx (State.startTick_tx _) (State.startTick_rx _) fun _ => rfl)

theorem storeTxProfile (p : Profile) : Leaves (KeepsIdentity s) (storeTxProfile h (s.txAt h) p s.quiet) :=
  .ite (fun _ => .answer ((refl s).setTx rfl rfl fun _ => rfl)) fun _ =>
    .answer ((refl s).setTx rfl rfl fun _ => rfl)

/-- An attach writes the pin and the address of a context that is `Free` (R235). -/
theorem execRxAttach (h : Handle) (pin : Pin) (address : Byte) (s : State) :
    Leaves (KeepsIdentity s) (execRxAttach h pin address s) :=
  .ite (fun _ => answers _ _) fun _ => .ite (fun _ => answers _ _) fun hfree => .ite (fun _ => answers _ _) fun _ =>
    .ite (fun _ => .answer ((refl s).setRx rfl rfl fun hl => absurd hl hfree)) fun _ =>
      .answer ((refl s).setRx rfl rfl fun hl => absurd hl hfree)

theorem execRxDetach (h : Handle) (s : State) : Leaves (KeepsIdentity s) (execRxDetach h s) := by
  have hstopped : KeepsIdentity s (rxStop h s.quiet) := (refl s).setRx rfl rfl fun _ => ⟨rfl, rfl⟩
  exact .ite (fun _ => answers _ _) fun _ =>
    .ite (fun _ => .answer (hstopped.setRx rfl rfl fun _ => ⟨rfl, rfl⟩)) fun _ =>
      .answer ((refl s).setRx rfl rfl fun _ => ⟨rfl, rfl⟩)

theorem execRxListen (h : Handle) (s : State) : Leaves (KeepsIdentity s) (execRxListen h s) :=
  onRx <| .ite (fun _ => answers _ _) fun _ => .ite (fun _ => answers _ _) fun _ => .ite (fun _ => answers _ _) fun _ =>
    .answer ((refl s).setRx (State.startTick_tx _) (State.startTick_rx _) fun _ => ⟨rfl, rfl⟩)

theorem storeRxProfile (p : Profile) : Leaves (KeepsIdentity s) (storeRxProfile h (s.rxAt h) p s.quiet) :=
  .ite (fun _ => .answer ((refl s).setRx rfl rfl fun _ => ⟨rfl, rfl⟩)) fun _ =>
    .answer ((refl s).setRx rfl rfl fun _ => ⟨rfl, rfl⟩)

/-- No command and no tick changes what an attach fixed. -/
theorem exec (i : Instr) (s : State) : Leaves (KeepsIdentity s) (exec i s) := by
  unfold Machine.exec
  cases i with
  | tick => exact execTick s
  | txAttach h pin => exact execTxAttach h pin s
  | txDetach h => exact execTxDetach h s
  | txSend h length => exact execTxSend h length s
  | txSetInterval | txSetStart => exact onTx (storeTxProfile _)
  | txStop | txSetChannel | txSetId => exact onTx (.answer ((refl s).setTx rfl rfl fun _ => rfl))
  | txGetState => exact onTx (answers _ _)
  | rxAttach h pin address => exact execRxAttach h pin address s
  | rxDetach h => exact execRxDetach h s
  | rxListen h => exact execRxListen h s
  | rxSetInterval | rxSetStart => exact onRx (storeRxProfile _)
  | rxStop | rxReset | rxSetChannel => exact onRx (.answer ((refl s).setRx rfl rfl fun _ => ⟨rfl, rfl⟩))
  | rxGetState => exact onRx (answers _ _)
  | rxGetMessage => exact onRx (.ite (fun _ => .next ((refl s).congr rfl rfl)) fun _ => answers _ _)
  | rxGetMessageLength => exact onRx (.ite (fun _ => answers _ _) fun _ => answers _ _)
  | rxClearBuffer =>
    exact onRx (.ite (fun _ => .answer ((refl s).setRx rfl rfl fun _ => ⟨rfl, rfl⟩)) fun _ => answers _ _)

end KeepsIdentity

/-- Settles O58, by the branches of each command: only an attach writes a pin or an address, and only of a context that
is `Free`. -/
theorem pinAndAddressImmutable : Obligations.PinAndAddressImmutable := by
  intro i s t h ht
  obtain ⟨htx, hrx, haddress⟩ := KeepsIdentity.exec i s t ht
  exact ⟨htx h, fun hl => ⟨hrx h hl, haddress h hl⟩⟩

end Sys2Proof.Machine

/-! # The lines and the reads of the engine (R67, R68, R70) -/

namespace Sys2Proof.Machine

variable {s : State} {h : Handle}

/-! ## Lines -/

/-- An accepted tick carries out the dispatch pass on quiet outputs (R252). -/
theorem exec_tick_running (hr : s.tickRunning = true) : exec .tick s = .next (dispatchPass s.quiet) :=
  execTick_running s hr

/-- Of the transmitters that send on one line in a pass, the last one in registry order sets its level (R70, R252). -/
theorem dispatchPass_line_last {before after : List Handle} (hd : s.txReg.live.Nodup)
    (hl : s.txReg.live = before ++ h :: after) (hs : (s.txAt h).phase = .sending)
    (ha : ∀ k ∈ after, (s.txAt k).pin = (s.txAt h).pin → (s.txAt k).phase ≠ .sending) :
    (dispatchPass s).lineAt (s.txAt h).pin = (s.txAt h).half := by
  rw [dispatchPass_lineAt, advanceTransmitters, hl]
  exact foldl_txAdvance_line_last s h before after (hl ▸ hd) hs ha

/-- Settles O53: the receivers of a pass write no line, so the line is as the last transmitter on it left it. -/
theorem lastWriterHoldsLine : Obligations.LastWriterHoldsLine := fun _ _ _ _ hr hd hl hs ha =>
  ⟨_, exec_tick_running hr, dispatchPass_line_last hd hl hs ha⟩

/-- A drive at the head of the stream is what the step carries out (R16, R68). -/
theorem step_drive {p : Pin} {v : Level} {rest : List Input} (hc : validCfg s.cfg)
    (hi : s.inputs = .drive p v :: rest) : step s = .next (envDrive p v (s.advanceInputs rest)) :=
  (step_valid hc).trans (takeNext_cons hi)

/-- A drive writes its own line and no other (R68). -/
theorem envDrive_lineAt (p q : Pin) (v : Level) : (envDrive p v s).lineAt q = if q = p then v else s.lineAt q :=
  s.quiet.setLine_lineAt p q v

/-- Settles O9: a drive is one `setLine` on quiet outputs, which leaves every other piece of the state. -/
theorem environmentDrivesLine : Obligations.EnvironmentDrivesLine := by
  intro s p v rest hc hi
  exact ⟨_, step_drive hc hi, fun q => envDrive_lineAt p q v, rfl, rfl, rfl, rfl, rfl, rfl, rfl, rfl, rfl⟩

/-! ## Reads -/

/-- The four read commands of the context `h` names (R67). -/
def Reads (h : Handle) (i : Instr) : Prop :=
  i = .txGetState h ∨ i = .rxGetState h ∨ i = .rxGetMessage h ∨ i = .rxGetMessageLength h

/-- The command ends with a response, emits nothing and leaves the state otherwise as it was. -/
def OnlyReplies (s : State) (r : Result) : Prop :=
  ∃ status value data, r = .next (s.replied status value data [])

namespace OnlyReplies

theorem respond (status : Status) (value : Nat) (data : List Byte) :
    OnlyReplies s (.next (s.quiet.respond status value data)) := ⟨status, value, data, rfl⟩

theorem answer (status : Status) (value : Nat) : OnlyReplies s (answer s.quiet status value) := respond status value []

theorem ite {p : Prop} [Decidable p] {a b : Result} (ha : OnlyReplies s a) (hb : OnlyReplies s b) :
    OnlyReplies s (if p then a else b) := by
  split
  · exact ha
  · exact hb

theorem onTx {body : TxContext → State → Result} (hb : OnlyReplies s (body (s.txAt h) s.quiet)) :
    OnlyReplies s (onTx h s body) := ite hb (answer _ _)

theorem onRx {body : RxContext → State → Result} (hb : OnlyReplies s (body (s.rxAt h) s.quiet)) :
    OnlyReplies s (onRx h s body) := ite hb (answer _ _)

/-- Each branch of a read command ends with a response (R164, R184 to R186). -/
theorem exec_read {i : Instr} (hi : Reads h i) (s : State) : OnlyReplies s (exec i s) := by
  unfold exec
  rcases hi with rfl | rfl | rfl | rfl
  · exact onTx (answer _ _)
  · exact onRx (answer _ _)
  · exact onRx (ite (respond _ _ _) (answer _ _))
  · exact onRx (ite (answer _ _) (answer _ _))

end OnlyReplies

/-- A read does not see the outputs of the step before: it begins with quiet ones (R14, R67). -/
theorem exec_read_out {i : Instr} (hi : Reads h i) (s : State) (o : Output) :
    exec i { s with out := o } = exec i s := by
  rcases hi with rfl | rfl | rfl | rfl <;> rfl

/-- Settles O60: a read only places its response, and what it answers does not depend on the outputs it finds. -/
theorem readsHaveNoSideEffects : Obligations.ReadsHaveNoSideEffects := by
  intro i h s hi
  obtain ⟨status, value, data, hreply⟩ := OnlyReplies.exec_read hi s
  exact ⟨_, rfl, hreply, (exec_read_out hi s _).trans hreply⟩

end Sys2Proof.Machine

/-! # Command words (R100 to R106) -/

namespace Sys2Proof.Machine

/-! ## Packing and masking

A word is its four fields, and masking it masks each of them. Every command's used bits are one of five masks. -/

section Masks

variable (w : CmdWord)

/-- A word is packed from its own fields (R100). -/
theorem packWord_fields :
    packWord (opcodeField w) (handleField w) (w.extractLsb' 16 16) (w.extractLsb' 0 16) = w := by
  apply BitVec.eq_of_toNat_eq
  have hw := w.isLt
  simp only [packWord_toNat, opcodeField, handleField, BitVec.extractLsb'_toNat, Nat.shiftRight_eq_div_pow]
  omega

theorem packWord_and (op op' : Byte) (h h' : Handle) (a a' b b' : BitVec 16) :
    packWord op h a b &&& packWord op' h' a' b' = packWord (op &&& op') (h &&& h') (a &&& a') (b &&& b') := by
  have happend : (op ++ h ++ a ++ b) &&& (op' ++ h' ++ a' ++ b') =
      (op &&& op') ++ (h &&& h') ++ (a &&& a') ++ (b &&& b') := by simp only [BitVec.and_append]
  exact happend

theorem and_packWord (op : Byte) (h : Handle) (a b : BitVec 16) :
    w &&& packWord op h a b =
      packWord (opcodeField w &&& op) (handleField w &&& h) (w.extractLsb' 16 16 &&& a) (w.extractLsb' 0 16 &&& b) := by
  conv_lhs => rw [← packWord_fields w, packWord_and]

theorem byte_and_ones (b : Byte) : b &&& 0xFF#8 = b := BitVec.and_allOnes

/-- The low byte of a 16-bit field is its 8-bit operand (R102). -/
theorem field_and_lowByte (start : Nat) :
    w.extractLsb' start 16 &&& 0x00FF#16 = byteField (w.extractLsb' start 8) := by
  have hmask : ∀ i < 16, (0x00FF#16).getLsbD i = decide (i < 8) := by decide
  apply BitVec.eq_of_getLsbD_eq
  intro i hi
  rw [BitVec.getLsbD_and, hmask i hi]
  simp [byteField, hi, Bool.and_comm]

@[simp] theorem and_opcodeMask : w &&& 0xFF0000000000#48 = packWord (opcodeField w) 0#8 0#16 0#16 := by
  have hmask : 0xFF0000000000#48 = packWord 0xFF#8 0#8 0#16 0#16 := by decide
  simp only [hmask, and_packWord, byte_and_ones, BitVec.and_zero]

@[simp] theorem and_handleMask :
    w &&& 0xFFFF00000000#48 = packWord (opcodeField w) (handleField w) 0#16 0#16 := by
  have hmask : 0xFFFF00000000#48 = packWord 0xFF#8 0xFF#8 0#16 0#16 := by decide
  simp only [hmask, and_packWord, byte_and_ones, BitVec.and_zero]

@[simp] theorem and_byteMask :
    w &&& 0xFFFF00FF0000#48 = packWord (opcodeField w) (handleField w) (byteField (lowA w)) 0#16 := by
  have hmask : 0xFFFF00FF0000#48 = packWord 0xFF#8 0xFF#8 0x00FF#16 0#16 := by decide
  simp only [hmask, and_packWord, byte_and_ones, field_and_lowByte, BitVec.and_zero, lowA]

@[simp] theorem and_twoByteMask : w &&& 0xFFFF00FF00FF#48 =
    packWord (opcodeField w) (handleField w) (byteField (lowA w)) (byteField (lowB w)) := by
  have hmask : 0xFFFF00FF00FF#48 = packWord 0xFF#8 0xFF#8 0x00FF#16 0x00FF#16 := by decide
  simp only [hmask, and_packWord, byte_and_ones, field_and_lowByte, lowA, lowB]

@[simp] theorem and_fullMask : w &&& 0xFFFFFFFFFFFF#48 =
    packWord (opcodeField w) (handleField w) (BitVec.ofNat 16 (fieldA w)) (BitVec.ofNat 16 (fieldB w)) := by
  have hmask : 0xFFFFFFFFFFFF#48 = BitVec.allOnes 48 := by decide
  simp only [hmask, BitVec.and_allOnes, fieldA, fieldB, BitVec.ofNat_toNat, BitVec.setWidth_eq, packWord_fields]

/-! A number read from a field fits it, and a number that fits its field is read back from it (R102, R103). -/

theorem fitsDuration_fieldA : fitsDuration (fieldA w) = true := decide_eq_true (BitVec.isLt _)

theorem fitsDuration_fieldB : fitsDuration (fieldB w) = true := decide_eq_true (BitVec.isLt _)

theorem fitsLength_lowA : fitsLength (lowA w).toNat = true := decide_eq_true (BitVec.isLt _)

theorem toNat_ofNat_duration {d : Nat} (hd : fitsDuration d = true) : (BitVec.ofNat 16 d).toNat = d :=
  (BitVec.toNat_ofNat d 16).trans (Nat.mod_eq_of_lt (of_decide_eq_true hd))

theorem toNat_ofNat_length {n : Nat} (hn : fitsLength n = true) : (BitVec.ofNat 8 n).toNat = n :=
  (BitVec.toNat_ofNat n 8).trans (Nat.mod_eq_of_lt (of_decide_eq_true hn))

end Masks

/-! ## The opcode map -/

section OpcodeMap

variable {w v : CmdWord} {i j : Instr}

/-- The decoder's opcodes are numbers, the encoder's are bytes (R101). -/
theorem opcodeField_eq {n : Nat} (h : (opcodeField w).toNat = n) : opcodeField w = BitVec.ofNat 8 n := by
  rw [← h, BitVec.ofNat_toNat, BitVec.setWidth_eq]

/-- The fields of the packed word are the command's operands; a number among them is one that fits its field. -/
theorem decode_encode (hi : i.wellFormed = true) : decode (encode i) = .instr i := by
  cases i with
  | txSend h length => simp [encode, decode, toNat_ofNat_length hi]
  | txSetInterval h high low | txSetStart h high low | rxSetInterval h high low | rxSetStart h high low =>
    obtain ⟨hhigh, hlow⟩ := Bool.and_eq_true_iff.mp hi
    simp [encode, decode, toNat_ofNat_duration hhigh, toNat_ofNat_duration hlow, -BitVec.toNat_ofNat]
  | _ => simp [encode, decode]

/-- Every row of the opcode map reads operands that fit their fields. -/
theorem wellFormed_of_decode (hd : decode w = .instr i) : i.wellFormed = true := by
  unfold decode at hd
  split at hd <;> cases hd
  all_goals simp [Instr.wellFormed, fitsLength_lowA, fitsDuration_fieldA, fitsDuration_fieldB]

/-- Every row of the opcode map reads all the fields its mask keeps. -/
theorem encode_of_decode (hd : decode w = .instr i) : encode i = w &&& usedBits i := by
  unfold decode at hd
  split at hd <;> rename_i hop <;> cases hd
  all_goals simp [encode, usedBits, opcodeField_eq hop]

/-- Which bits a command uses is known from its opcode (R101). -/
theorem usedBits_eq_of_opcodeField (hw : decode w = .instr i) (hv : decode v = .instr j)
    (hop : opcodeField v = opcodeField w) : usedBits j = usedBits i := by
  unfold decode at hw hv
  rw [hop] at hv
  split at hw <;> rename_i hrow <;> cases hw
  all_goals
    rw [hrow] at hv
    cases hv
    rfl

/-- Every command uses its opcode. -/
theorem opcodeField_and_usedBits (w : CmdWord) (i : Instr) : opcodeField (w &&& usedBits i) = opcodeField w := by
  cases i <;> simp [usedBits]

/-- The opcode map has a row for every opcode that R106 does not list, and for no other. -/
theorem decode_cases (w : CmdWord) :
    ¬undefinedOpcodes (opcodeField w).toNat ∧ (∃ i, decode w = .instr i) ∨
    undefinedOpcodes (opcodeField w).toNat ∧ decode w = .undefinedOpcode (opcodeField w) := by
  have hbyte := (opcodeField w).isLt
  unfold decode
  split
  case h_23 =>
    refine .inr ⟨?_, rfl⟩
    simp only [imp_false] at *
    omega
  all_goals exact .inl ⟨by omega, _, rfl⟩

theorem decode_undefined (hu : undefinedOpcodes (opcodeField w).toNat) :
    decode w = .undefinedOpcode (opcodeField w) := by
  obtain ⟨hdefined, -⟩ | ⟨-, hd⟩ := decode_cases w
  · exact absurd hu hdefined
  · exact hd

theorem exists_decode_iff : (∃ i, decode w = .instr i) ↔ ¬undefinedOpcodes (opcodeField w).toNat := by
  obtain ⟨hdefined, hi⟩ | ⟨hu, hd⟩ := decode_cases w
  · exact iff_of_true hi hdefined
  · simp [hd, hu]

end OpcodeMap

/-- A word with an undefined opcode is answered (`Rejected`, 0) (R106). -/
theorem runWord_undefined {w : CmdWord} {s : State} (hu : undefinedOpcodes (opcodeField w).toNat) :
    runWord w s = .next (s.replied .rejected 0 [] []) := by
  rw [runWord, decode_undefined hu]
  rfl

/-! ## The statements -/

/-- Settles O1, by the rows of the encoder. -/
theorem decodeOfEncode : Obligations.DecodeOfEncode := fun _ => decode_encode

/-- Settles O2, by the rows of the decoder. -/
theorem decodeKeepsUsedBits : Obligations.DecodeKeepsUsedBits := fun _ _ hd =>
  ⟨wellFormed_of_decode hd, encode_of_decode hd⟩

/-- Settles O3: the two words have one opcode, so the second is a command that uses the same bits; both commands encode
to those bits, and the round trip makes them one. -/
theorem unusedFieldsIgnored : Obligations.UnusedFieldsIgnored := by
  intro w v i hw hbits
  have hop : opcodeField v = opcodeField w := by
    rw [← opcodeField_and_usedBits v i, hbits, opcodeField_and_usedBits]
  obtain ⟨j, hv⟩ : ∃ j, decode v = .instr j := by
    rw [exists_decode_iff, hop, ← exists_decode_iff]
    exact ⟨i, hw⟩
  have hencode : encode j = encode i :=
    calc encode j = v &&& usedBits j := encode_of_decode hv
      _ = v &&& usedBits i := by rw [usedBits_eq_of_opcodeField hw hv hop]
      _ = w &&& usedBits i := hbits
      _ = encode i := (encode_of_decode hw).symm
  calc decode v = .instr j := hv
    _ = decode (encode j) := (decode_encode (wellFormed_of_decode hv)).symm
    _ = decode (encode i) := by rw [hencode]
    _ = .instr i := decode_encode (wellFormed_of_decode hw)

/-- Settles O4: the decoder by its rows, the step by following the word through it. -/
theorem undefinedOpcodesRejected : Obligations.UndefinedOpcodesRejected := by
  refine ⟨fun w => ?_, fun s w payload rest hc hi hu => ?_⟩
  · rw [← not_exists, exists_decode_iff, not_not]
  · calc step s = takeNext s := step_valid hc
      _ = takeInput (.word w payload) (s.advanceInputs rest) := takeNext_cons hi
      _ = .next (((s.advanceInputs rest).presentPayload payload).replied .rejected 0 [] []) := runWord_undefined hu

/-- Settles O5: ten words, each decoded. -/
theorem tableWordsDecode : Obligations.TableWordsDecode := by
  unfold Obligations.TableWordsDecode
  decide

end Sys2Proof.Machine

/-! # The checksum and the frame check (R61, R98, R120 to R122) -/

namespace Sys2Proof.Machine

/-! ## The checksum -/

/-- The checksum is the sum in the ring of bytes, so the laws of sums are laws of the checksum (R120). -/
theorem checksum_eq_sum (bytes : List Byte) : checksum bytes = bytes.sum := by
  induction bytes with
  | nil => rfl
  | cons b bs ih => rw [checksum, ih, List.sum_cons]

theorem checksum_toNat (bytes : List Byte) : (checksum bytes).toNat = (bytes.map BitVec.toNat).sum % 256 := by
  induction bytes with
  | nil => rfl
  | cons b bs ih => rw [checksum, BitVec.toNat_add, ih, List.map_cons, List.sum_cons, Nat.add_mod_mod]

theorem checksum_perm {a b : List Byte} (h : a.Perm b) : checksum a = checksum b := by
  rw [checksum_eq_sum, checksum_eq_sum, h.sum_eq]

/-- With the bytes around it kept, the checksum determines a byte (R121). -/
theorem checksum_replace_inj {a b : List Byte} {x y : Byte} :
    checksum (a ++ x :: b) = checksum (a ++ y :: b) ↔ x = y := by
  rw [checksum_append, checksum_append, checksum, checksum, add_right_inj, add_left_inj]

/-! ## The header byte and the bytes of a frame -/

theorem highNibble_toNat (b : Byte) : (highNibble b).toNat = b.toNat / 16 := by
  revert b; decide

theorem lowNibble_toNat (b : Byte) : (lowNibble b).toNat = b.toNat % 16 := by
  revert b; decide

/-- The header's two checks are one comparison with the header byte of the frame (R91). -/
theorem eq_headerByte_iff {b : Byte} {id channel : Nibble} :
    b = headerByte id channel ↔ highNibble b = id ∧ lowNibble b = channel := by
  constructor
  · rintro rfl
    exact ⟨highNibble_headerByte id channel, lowNibble_headerByte id channel⟩
  · rintro ⟨rfl, rfl⟩
    exact (headerByte_nibbles b).symm

variable {c : Cfg} {r : RxContext}

/-- A buffer read as `{header, length, payload, checksum}` (R61). -/
theorem bufSlice_frame (c : Cfg) (m : Memory) (n : Nat) :
    bufSlice c m 0 (n + 3) = bufByte c m 0 :: bufByte c m 1 :: (bufSlice c m 2 n ++ [bufByte c m (n + 2)]) := by
  calc bufSlice c m 0 (n + 3) = bufSlice c m 0 (2 + n + 1) := by rw [Nat.add_comm 2 n]
    _ = bufSlice c m 0 2 ++ bufSlice c m 2 n ++ [bufByte c m (n + 2)] := by
      rw [bufSlice_succ, bufSlice_append, Nat.zero_add, Nat.zero_add, Nat.add_comm 2 n]
    _ = _ := rfl

/-- The first bytes of a buffer are the frame of a payload exactly when each of the four parts agrees (R61, R90). -/
theorem bufSlice_eq_frameBytes_iff {m : Memory} {n : Nat} {id channel : Nibble} {payload : List Byte} :
    bufSlice c m 0 (n + 3) = frameBytes id channel payload ↔
      bufByte c m 0 = headerByte id channel ∧ bufByte c m 1 = BitVec.ofNat 8 payload.length ∧
      bufSlice c m 2 n = payload ∧ bufByte c m (n + 2) = checksum payload := by
  rw [bufSlice_frame, frameBytes, List.cons.injEq, List.cons.injEq, List.append_singleton_inj]

/-! ## The frame check -/

/-- The frame check is the conjunction of its five checks (R122). -/
theorem frameOk_iff :
    frameOk c r = true ↔ 3 ≤ r.bufLen ∧ highNibble (bufByte c r.buf 0) = r.address ∧
      lowNibble (bufByte c r.buf 0) = r.channel ∧ (bufByte c r.buf 1).toNat = r.bufLen - 3 ∧
      checksum (bufSlice c r.buf 2 (r.bufLen - 3)) = bufByte c r.buf (r.bufLen - 1) := by
  unfold frameOk
  split_ifs with hlen haddress hchannel hlength
  · simp [Nat.not_le.2 hlen]
  · simp [haddress]
  · simp [hchannel]
  · simp [hlength]
  · simp [not_lt.1 hlen, not_not.1 haddress, not_not.1 hchannel, not_not.1 hlength]

/-- The received bytes, `n` of them the payload, pass the check exactly when they are the frame of those `n` bytes. The
payload must fit the length byte (R61, R122). -/
theorem frameOk_iff_frame {n : Nat} (hr : r.bufLen = n + 3) (hn : n < 256) :
    frameOk c r = true ↔
      bufSlice c r.buf 0 r.bufLen = frameBytes r.address r.channel (bufSlice c r.buf 2 n) := by
  have hlength : bufByte c r.buf 1 = BitVec.ofNat 8 n ↔ (bufByte c r.buf 1).toNat = n := by
    rw [← BitVec.toNat_inj, BitVec.toNat_ofNat, Nat.mod_eq_of_lt hn]
  rw [frameOk_iff, hr, bufSlice_eq_frameBytes_iff, eq_headerByte_iff, bufSlice_length, hlength, and_assoc,
    Nat.add_sub_cancel, show n + 3 - 1 = n + 2 from rfl]
  simp [eq_comm]

/-- A frame is long enough to be checked, and its payload is what stands between the length and the checksum. -/
theorem payload_of_frame {m : Memory} {k : Nat} {id channel : Nibble} {payload : List Byte}
    (h : bufSlice c m 0 k = frameBytes id channel payload) :
    k = payload.length + 3 ∧ bufSlice c m 2 payload.length = payload := by
  obtain rfl : k = payload.length + 3 := by simpa using congrArg List.length h
  obtain ⟨-, -, hpayload, -⟩ := bufSlice_eq_frameBytes_iff.1 h
  exact ⟨rfl, hpayload⟩

/-- R98 (1): a receiver of address and channel not 0 accepts no header with a nibble 0. -/
theorem frameOk_eq_false_of_header (ha : r.address ≠ 0) (hc : r.channel ≠ 0)
    (h : (bufByte c r.buf 0).toNat / 16 = 0 ∨ (bufByte c r.buf 0).toNat % 16 = 0) : frameOk c r = false := by
  rw [← highNibble_toNat, ← lowNibble_toNat] at h
  rw [← Bool.not_eq_true, frameOk_iff]
  rintro ⟨-, haddress, hchannel, -, -⟩
  rcases h with h | h
  · exact ha (haddress ▸ BitVec.eq_of_toNat_eq h)
  · exact hc (hchannel ▸ BitVec.eq_of_toNat_eq h)

/-! ## The statements -/

/-- Settles O15: the general part by the sum, the three examples by evaluation. -/
theorem checksumIsSumModulo256 : Obligations.ChecksumIsSumModulo256 :=
  ⟨checksum_toNat, by decide, by decide, by decide⟩

/-- Settles O16: a sum ignores order, and a summand is determined by the sum and the others. -/
theorem checksumOrderAndSingleByte : Obligations.ChecksumOrderAndSingleByte :=
  ⟨fun _ _ => checksum_perm, fun _ _ _ _ => mt checksum_replace_inj.1⟩

/-- Settles O17: the payload is what stands between the length byte and the checksum byte; a buffer that holds at most
255 bytes makes its length fit the length byte. -/
theorem frameCheckAcceptsExactlyFrames : Obligations.FrameCheckAcceptsExactlyFrames := by
  intro c r hc hlen
  have hcap : c.bufCap = c.maxPayload + 3 ∧ c.bufCap ≤ 255 := by omega
  refine ⟨⟨fun hok => ?_, ?_⟩, frameOk_eq_false_of_header⟩
  · obtain ⟨n, hn⟩ : ∃ n, r.bufLen = n + 3 := ⟨r.bufLen - 3, by have := (frameOk_iff.1 hok).1; omega⟩
    refine ⟨bufSlice c r.buf 2 n, ?_, (frameOk_iff_frame hn (by omega)).1 hok⟩
    rw [bufSlice_length]
    omega
  · rintro ⟨payload, hfits, hframe⟩
    obtain ⟨hn, hpayload⟩ := payload_of_frame hframe
    rw [frameOk_iff_frame hn (by omega), hpayload]
    exact hframe

end Sys2Proof.Machine

/-! # The Timing Profile (R131 to R138) -/

namespace Sys2Proof.Machine

/-! ## The pair of durations to store -/

theorem absDiff_sub_self {a k : Nat} (hk : k ≤ a) : absDiff a (a - k) = k :=
  (if_pos (Nat.sub_le a k)).trans (Nat.sub_sub_self hk)

theorem absDiff_add_self (a k : Nat) : absDiff (a + k) a = k :=
  (if_pos (Nat.le_add_right a k)).trans (Nat.add_sub_cancel_left a k)

section IntervalCore

variable {c : Cfg} {high low h l : Nat}

section Branches

variable (hh : clamp high c.minInterval c.maxTime = h) (hl : clamp low c.minInterval c.maxTime = l)

include hh hl

/-! One equation per branch of the rule, in the clamped requests `h` and `l` (R133). -/

theorem setIntervalCore_apart (hapart : 2 * c.deviation ≤ absDiff h l) : setIntervalCore c high low = (h, l) := by
  subst hh hl
  exact if_neg (Nat.not_lt.2 hapart)

theorem setIntervalCore_lowDown (hclose : absDiff h l < 2 * c.deviation)
    (hdown : c.minInterval + 2 * c.deviation ≤ h) : setIntervalCore c high low = (h, h - 2 * c.deviation) := by
  subst hh hl
  exact (if_pos hclose).trans (if_pos hdown)

theorem setIntervalCore_highUp (hclose : absDiff h l < 2 * c.deviation)
    (hdown : h < c.minInterval + 2 * c.deviation) (hup : l + 2 * c.deviation ≤ c.maxTime) :
    setIntervalCore c high low = (l + 2 * c.deviation, l) := by
  subst hh hl
  exact (if_pos hclose).trans ((if_neg (Nat.not_le.2 hdown)).trans (if_pos hup))

theorem setIntervalCore_neither (hclose : absDiff h l < 2 * c.deviation)
    (hdown : h < c.minInterval + 2 * c.deviation) (hup : c.maxTime < l + 2 * c.deviation) :
    setIntervalCore c high low = (h, l) := by
  subst hh hl
  exact (if_pos hclose).trans ((if_neg (Nat.not_le.2 hdown)).trans (if_neg (Nat.not_le.2 hup)))

end Branches

/-- Neither push fits only in a narrow range: its low end is close below `h`, its high end close above `l`, and the two
are close to each other (R133). -/
theorem range_le_of_neither (hclose : absDiff h l < 2 * c.deviation) (hdown : h < c.minInterval + 2 * c.deviation)
    (hup : c.maxTime < l + 2 * c.deviation) : c.maxTime - c.minInterval + 3 ≤ 6 * c.deviation := by
  unfold absDiff at hclose
  split at hclose <;> omega

/-- The stored pair is not separated only where neither push fits (R133). -/
theorem setIntervalCore_unseparated
    (hr : absDiff (setIntervalCore c high low).1 (setIntervalCore c high low).2 < 2 * c.deviation) :
    c.maxTime - c.minInterval + 3 ≤ 6 * c.deviation := by
  obtain ⟨h, hh⟩ : ∃ h, clamp high c.minInterval c.maxTime = h := ⟨_, rfl⟩
  obtain ⟨l, hl⟩ : ∃ l, clamp low c.minInterval c.maxTime = l := ⟨_, rfl⟩
  rcases Nat.lt_or_ge (absDiff h l) (2 * c.deviation) with hclose | hapart
  · rcases Nat.lt_or_ge h (c.minInterval + 2 * c.deviation) with hdown | hdown
    · rcases Nat.lt_or_ge c.maxTime (l + 2 * c.deviation) with hup | hup
      · exact range_le_of_neither hclose hdown hup
      · rw [setIntervalCore_highUp hh hl hclose hdown hup, absDiff_add_self] at hr
        exact absurd hr (Nat.lt_irrefl _)
    · rw [setIntervalCore_lowDown hh hl hclose hdown, absDiff_sub_self (by omega)] at hr
      exact absurd hr (Nat.lt_irrefl _)
  · rw [setIntervalCore_apart hh hl hapart] at hr
    exact absurd hapart (Nat.not_le.2 hr)

end IntervalCore

/-- Settles O18: each clause by the equation of its branch, the last by `setIntervalCore_unseparated`. -/
theorem setIntervalWidensGap : Obligations.SetIntervalWidensGap := by
  intro c high low hc
  dsimp only
  refine ⟨?range, setIntervalCore_apart rfl rfl, fun hclose hdown => ?lowDown, fun hclose hdown hup => ?highUp,
    setIntervalCore_neither rfl rfl, setIntervalCore_unseparated⟩
  case range =>
    obtain ⟨hhigh, hlow⟩ := setIntervalCore_inRange hc high low
    exact ⟨hhigh.1, hhigh.2, hlow⟩
  case lowDown =>
    rw [setIntervalCore_lowDown rfl rfl hclose hdown]
    exact ⟨rfl, Nat.sub_add_cancel (Nat.le_of_add_left_le hdown)⟩
  case highUp =>
    rw [setIntervalCore_highUp rfl rfl hclose hdown hup]
    exact ⟨rfl, rfl⟩

/-! ## The profile commands -/

section StoredProfile

variable (s : State) (h : Handle) (p : Profile)

/-- Where a transmitter profile command ends: the profile stored, the frame in flight abandoned with its line LOW, and
the new profile deciding both the phase and the answer (R134, R137). -/
theorem storeTxProfile_quiet :
    storeTxProfile h (s.txAt h) p s.quiet = .next
      (((s.setTx h { s.txAt h with
          profile := p
          phase := if 2 * s.cfg.deviation ≤ absDiff p.high p.low then .idle else .errorDefinitions }).setLine
        (s.txAt h).pin .low).replied
          (if 2 * s.cfg.deviation ≤ absDiff p.high p.low then .ok else .rejected)
          (if 2 * s.cfg.deviation ≤ absDiff p.high p.low then 1 else 0) [] [.pinWrite (s.txAt h).pin .low]) := by
  by_cases hapart : 2 * s.cfg.deviation ≤ absDiff p.high p.low
  · have hrest := restTx_idle.2 ((separated_iff s.cfg p).2 hapart)
    simp only [storeTxProfile, State.quiet_cfg, hrest, if_pos hapart, if_true]
    rfl
  · have hrest := restTx_definitions.2 (Bool.eq_false_iff.2 (mt (separated_iff s.cfg p).1 hapart))
    simp only [storeTxProfile, State.quiet_cfg, hrest, if_neg hapart, reduceCtorEq, if_false]
    rfl

/-- Where a receiver profile command ends: the profile stored, `ErrorOverflow` kept, any other phase and the answer
decided by the new profile (R135, R138). -/
theorem storeRxProfile_quiet :
    storeRxProfile h (s.rxAt h) p s.quiet = .next
      ((s.setRx h { s.rxAt h with
          profile := p
          phase := if (s.rxAt h).phase = .errorOverflow then .errorOverflow
                   else if 2 * s.cfg.deviation ≤ absDiff p.high p.low then .idle else .errorDefinitions }).replied
        (if 2 * s.cfg.deviation ≤ absDiff p.high p.low then .ok else .rejected)
        (if 2 * s.cfg.deviation ≤ absDiff p.high p.low then 1 else 0) [] []) := by
  have hkept (q : RxPhase) : (if (s.rxAt h).phase = .errorOverflow then (s.rxAt h).phase else q) =
      if (s.rxAt h).phase = .errorOverflow then .errorOverflow else q := ite_congr rfl id fun _ => rfl
  by_cases hapart : 2 * s.cfg.deviation ≤ absDiff p.high p.low
  · have hsep := (separated_iff s.cfg p).2 hapart
    simp only [storeRxProfile, State.quiet_cfg, State.setRx_cfg, restRx_idle.2 hsep, hkept, if_pos hsep, if_pos hapart]
    rfl
  · have hsep := mt (separated_iff s.cfg p).1 hapart
    simp only [storeRxProfile, State.quiet_cfg, State.setRx_cfg, restRx_definitions.2 (Bool.eq_false_iff.2 hsep), hkept,
      if_neg hsep, if_neg hapart]
    rfl

end StoredProfile

/-! The four commands: the row of the opcode map (R101), and which profile is stored in the addressed context. -/

theorem encodes_txSetInterval : Encodes 0x14 fun w => .txSetInterval (handleField w) (fieldA w) (fieldB w) :=
  fun w hop => by simp [decode, hop]

theorem encodes_txSetStart : Encodes 0x15 fun w => .txSetStart (handleField w) (fieldA w) (fieldB w) :=
  fun w hop => by simp [decode, hop]

theorem encodes_rxSetInterval : Encodes 0x24 fun w => .rxSetInterval (handleField w) (fieldA w) (fieldB w) :=
  fun w hop => by simp [decode, hop]

theorem encodes_rxSetStart : Encodes 0x25 fun w => .rxSetStart (handleField w) (fieldA w) (fieldB w) :=
  fun w hop => by simp [decode, hop]

section Commands

variable (h : Handle) (high low : Nat) (s : State)

theorem exec_txSetInterval : exec (.txSetInterval h high low) s =
    onTx h s fun t s => storeTxProfile h t (t.profile.withInterval (setIntervalCore s.cfg high low)) s := rfl

theorem exec_txSetStart : exec (.txSetStart h high low) s =
    onTx h s fun t s => storeTxProfile h t (t.profile.withStart (setStartCore s.cfg high low)) s := rfl

theorem exec_rxSetInterval : exec (.rxSetInterval h high low) s =
    onRx h s fun r s => storeRxProfile h r (r.profile.withInterval (setIntervalCore s.cfg high low)) s := rfl

theorem exec_rxSetStart : exec (.rxSetStart h high low) s =
    onRx h s fun r s => storeRxProfile h r (r.profile.withStart (setStartCore s.cfg high low)) s := rfl

end Commands

/-- Settles O19: the command stores the profile with the pair of `setIntervalCore` in it. -/
theorem txSetIntervalRule : Obligations.TxSetIntervalRule := by
  refine ⟨encodes_txSetInterval, fun h high low s => ?_⟩
  rw [exec_txSetInterval]
  exact ⟨fun ha => (onTx_active ha).trans (storeTxProfile_quiet s h _), onTx_inactive⟩

/-- Settles O20: the command stores the profile with the clamped START durations in it, so the pair that decides the
phase and the answer is the old one. -/
theorem txSetStartRule : Obligations.TxSetStartRule := by
  refine ⟨encodes_txSetStart, fun h high low s => ?_⟩
  rw [exec_txSetStart]
  exact ⟨fun ha => (onTx_active ha).trans (storeTxProfile_quiet s h _), onTx_inactive⟩

/-- Settles O21: as O19, for a receiver. -/
theorem rxSetIntervalRule : Obligations.RxSetIntervalRule := by
  refine ⟨encodes_rxSetInterval, fun h high low s => ?_⟩
  rw [exec_rxSetInterval]
  exact ⟨fun ha => (onRx_active ha).trans (storeRxProfile_quiet s h _), onRx_inactive⟩

/-- Settles O22: as O20, for a receiver. -/
theorem rxSetStartRule : Obligations.RxSetStartRule := by
  refine ⟨encodes_rxSetStart, fun h high low s => ?_⟩
  rw [exec_rxSetStart]
  exact ⟨fun ha => (onRx_active ha).trans (storeRxProfile_quiet s h _), onRx_inactive⟩

end Sys2Proof.Machine

/-! # The transmitter (R92 to R94, R160 to R168) -/

namespace Sys2Proof.Machine

/-! ## How long a half lasts (R166) -/

section Halves

variable {c : Cfg} {t : TxContext}

/-- The nominal duration of the half a transmitter is in (R151). -/
def halfDuration (t : TxContext) : Nat := if t.half = .high then durHigh t else durLow t

theorem halfDuration_high (hh : t.half = .high) : halfDuration t = durHigh t := if_pos hh

theorem halfDuration_low (hh : t.half = .low) : halfDuration t = durLow t := if_neg (by simp [hh])

theorem succ_lt_halfTicks_iff (hc : 1 ≤ c.tick) (d j : Nat) : j + 1 < halfTicks c d ↔ (j + 1) * c.tick < d := by
  have hdiv := Nat.le_div_iff_mul_le (x := j + 2) (y := d + c.tick - 1) hc
  have hmul : (j + 2) * c.tick = (j + 1) * c.tick + c.tick := Nat.succ_mul _ _
  unfold halfTicks
  omega

theorem halfTicks_pos (c : Cfg) (d : Nat) : 0 < halfTicks c d := Nat.le_max_left _ _

/-- The tick in which a half ends adds enough to the time elapsed before it. -/
theorem le_halfTicks_pred (hc : 1 ≤ c.tick) (d : Nat) : d ≤ (halfTicks c d - 1) * c.tick + c.tick := by
  have hpos := halfTicks_pos c d
  have hlast := succ_lt_halfTicks_iff hc d (halfTicks c d - 1)
  rw [Nat.sub_add_cancel hpos] at hlast
  rw [← Nat.succ_mul, Nat.succ_eq_add_one, Nat.sub_add_cancel hpos]
  omega

theorem txAfter_succ (c : Cfg) (n : Nat) (t : TxContext) : txAfter c (n + 1) t = (txTick c (txAfter c n t)).1 :=
  txAfter_add c n 1 t

/-- Until its last tick a half only adds to the elapsed time (R165). -/
theorem txAfter_within (hc : 1 ≤ c.tick) (hp : t.phase = .sending) (h0 : t.elapsed = 0) {j : Nat}
    (hj : j < halfTicks c (halfDuration t)) : txAfter c j t = { t with elapsed := j * c.tick } := by
  induction j with
  | zero => rw [Nat.zero_mul, txAfter, ← h0]
  | succ j ih =>
    have hlt : j * c.tick + c.tick < halfDuration t := by
      rw [← Nat.succ_mul]
      exact (succ_lt_halfTicks_iff hc _ j).1 hj
    rw [txAfter_succ, ih (by omega), txTick_within (t := { t with elapsed := j * c.tick }) hp hlt, Nat.succ_mul]

/-- The last tick of a half, with the time that elapsed before it (R165). -/
theorem txAfter_halfTicks (hc : 1 ≤ c.tick) (hp : t.phase = .sending) (h0 : t.elapsed = 0) :
    ∃ e, halfDuration t ≤ e + c.tick ∧
      txAfter c (halfTicks c (halfDuration t)) t = (txTick c { t with elapsed := e }).1 := by
  have hpos := halfTicks_pos c (halfDuration t)
  refine ⟨_, le_halfTicks_pred hc _, ?_⟩
  rw [← txAfter_within hc hp h0 (Nat.sub_lt hpos Nat.one_pos), ← txAfter_succ, Nat.sub_add_cancel hpos]

/-- A HIGH half is followed by the LOW half of its symbol (R165). -/
theorem txAfter_high (hc : 1 ≤ c.tick) (hp : t.phase = .sending) (h0 : t.elapsed = 0) (hh : t.half = .high) :
    txAfter c (halfTicks c (halfDuration t)) t = { t with half := .low, elapsed := 0 } := by
  obtain ⟨e, he, hlast⟩ := txAfter_halfTicks hc hp h0
  rw [halfDuration_high hh] at he
  rw [hlast, txTick_high (t := { t with elapsed := e }) hp hh he]

/-- A LOW half with bits left is followed by the next symbol (R165). -/
theorem txAfter_low_next (hc : 1 ≤ c.tick) (hp : t.phase = .sending) (h0 : t.elapsed = 0) (hh : t.half = .low)
    (hn : t.byteIndex ≠ t.bufLen) : txAfter c (halfTicks c (halfDuration t)) t = nextSymbol c t := by
  obtain ⟨e, he, hlast⟩ := txAfter_halfTicks hc hp h0
  rw [halfDuration_low hh] at he
  rw [hlast, txTick_next (t := { t with elapsed := e }) hp hh he hn]
  rfl

/-- The last LOW half of a frame is followed by `Idle` (R165). -/
theorem txAfter_low_last (hc : 1 ≤ c.tick) (hp : t.phase = .sending) (h0 : t.elapsed = 0) (hh : t.half = .low)
    (hn : t.byteIndex = t.bufLen) : (txAfter c (halfTicks c (halfDuration t)) t).phase = .idle := by
  obtain ⟨e, he, hlast⟩ := txAfter_halfTicks hc hp h0
  rw [halfDuration_low hh] at he
  rw [hlast, txTick_last (t := { t with elapsed := e }) hp hh he hn]

end Halves

/-- Settles O28: within a half only the elapsed time changes, and its last tick hands over. -/
theorem halfLastsCeilTicks : Obligations.HalfLastsCeilTicks := by
  refine ⟨fun _ _ => txTick_idle, fun c t hc hp h0 =>
    ⟨fun j hj => ?within, txAfter_high hc hp h0, txAfter_low_last hc hp h0, fun hh hn => ?next⟩⟩
  case within =>
    obtain ⟨hsilent, hlevel⟩ := txTick_levels c { t with elapsed := j * c.tick }
    rw [txAfter_within hc hp h0 hj]
    exact ⟨rfl, fun hnone => hsilent.1 hnone hp, hlevel⟩
  case next =>
    have hnext := txAfter_low_next hc hp h0 hh hn
    rw [halfDuration] at hnext
    rw [hnext]
    exact ⟨hp, rfl, rfl⟩

/-! ## The waveform of a frame (R92 to R94, R167) -/

section Waves

variable {c : Cfg} {t u v : TxContext}

/-- From `t` a transmitter is `Sending` for one tick per level of the wave, its pin takes these levels, and it is then
in `u`. -/
structure Sends (c : Cfg) (t : TxContext) (wave : List Level) (u : TxContext) : Prop where
  levels : ∀ l, txWave c wave.length l t = wave
  sending : ∀ j < wave.length, (txAfter c j t).phase = .sending
  after : txAfter c wave.length t = u

/-- What is sent in a row is one wave. -/
theorem Sends.append {w x : List Level} (hw : Sends c t w u) (hx : Sends c u x v) : Sends c t (w ++ x) v where
  levels l := by rw [List.length_append, txWave_add, hw.levels, hw.after, hx.levels]
  sending j hj := by
    rcases Nat.lt_or_ge j w.length with hlt | hge
    · exact hw.sending j hlt
    · obtain ⟨k, rfl⟩ := Nat.exists_eq_add_of_le hge
      rw [txAfter_add, hw.after]
      exact hx.sending k (by simpa using hj)
  after := by rw [List.length_append, txAfter_add, hw.after, hx.after]

/-- A tick of a `Sending` transmitter leaves its pin at the level of the half it was in (R165). -/
theorem txTick_getLastD (hp : t.phase = .sending) (l : Level) : (txTick c t).2.getLastD l = t.half := by
  obtain ⟨hsilent, hlevel⟩ := txTick_levels c t
  have hne : (txTick c t).2 ≠ [] := fun hnone => hsilent.1 hnone hp
  rw [List.getLastD_eq_getLast?, List.getLast?_eq_getLast_of_ne_nil hne]
  exact hlevel _ (List.getLast_mem hne)

/-- The pin holds the level of a half for as long as the transmitter is in it. -/
theorem txWave_replicate {n : Nat} {a : Level}
    (h : ∀ j < n, (txAfter c j t).phase = .sending ∧ (txAfter c j t).half = a) (l : Level) :
    txWave c n l t = List.replicate n a := by
  induction n generalizing t l with
  | zero => rfl
  | succ n ih =>
    obtain ⟨hp, hh⟩ := h 0 (Nat.succ_pos n)
    have hhead : (txTick c t).2.getLastD l = a := (txTick_getLastD hp l).trans hh
    rw [txWave, hhead, ih (fun j hj => h (j + 1) (Nat.succ_lt_succ hj)), List.replicate_succ]

/-- A half is sent as its level, repeated (R166). -/
theorem sends_half (hc : 1 ≤ c.tick) (hp : t.phase = .sending) (h0 : t.elapsed = 0) :
    Sends c t (List.replicate (halfTicks c (halfDuration t)) t.half)
      (txAfter c (halfTicks c (halfDuration t)) t) where
  levels l := by
    rw [List.length_replicate]
    refine txWave_replicate (fun j hj => ?_) l
    rw [txAfter_within hc hp h0 hj]
    exact ⟨hp, rfl⟩
  sending j hj := by
    rw [List.length_replicate] at hj
    rw [txAfter_within hc hp h0 hj]
    exact hp
  after := by rw [List.length_replicate]

/-- A transmitter at the beginning of a symbol. -/
structure AtSymbol (t : TxContext) : Prop where
  phase : t.phase = .sending
  half : t.half = .high
  elapsed : t.elapsed = 0

/-- A symbol is sent as its pulse (R93, R166); what follows is what follows its LOW half. -/
theorem AtSymbol.sends_pulse (ht : AtSymbol t) (hc : 1 ≤ c.tick) :
    Sends c t (pulse c (durHigh t) (durLow t))
      (txAfter c (halfTicks c (halfDuration { t with half := .low, elapsed := 0 }))
        { t with half := .low, elapsed := 0 }) := by
  have hhigh := sends_half hc ht.phase ht.elapsed
  rw [txAfter_high hc ht.phase ht.elapsed ht.half, halfDuration_high ht.half, ht.half] at hhigh
  exact hhigh.append (sends_half (t := { t with half := .low, elapsed := 0 }) hc ht.phase rfl)

/-- With bits left a symbol is followed by the next one (R165). -/
theorem AtSymbol.sends_next (ht : AtSymbol t) (hc : 1 ≤ c.tick) (hn : t.byteIndex ≠ t.bufLen) :
    Sends c t (pulse c (durHigh t) (durLow t)) (nextSymbol c t) := by
  have hnext := txAfter_low_next (t := { t with half := .low, elapsed := 0 }) hc ht.phase rfl rfl hn
  have hsent := ht.sends_pulse hc
  rwa [hnext] at hsent

/-- After the last symbol of a frame the transmitter is `Idle` (R165). -/
theorem AtSymbol.sends_last (ht : AtSymbol t) (hc : 1 ≤ c.tick) (hn : t.byteIndex = t.bufLen) :
    ∃ u, Sends c t (pulse c (durHigh t) (durLow t)) u ∧ u.phase = .idle :=
  ⟨_, ht.sends_pulse hc, txAfter_low_last (t := { t with half := .low, elapsed := 0 }) hc ht.phase rfl rfl hn⟩

theorem AtSymbol.at_nextSymbol (ht : AtSymbol t) (c : Cfg) : AtSymbol (nextSymbol c t) := ⟨ht.phase, rfl, rfl⟩

/-- The next symbol is the pulse of the bit at the cursor (R93, R165). -/
theorem pulse_nextSymbol (c : Cfg) (t : TxContext) :
    pulse c (durHigh (nextSymbol c t)) (durLow (nextSymbol c t)) =
      bitPulse c t.profile (bitOf (bufByte c t.buf t.byteIndex) t.bitIndex) := by
  cases hbit : bitOf (bufByte c t.buf t.byteIndex) t.bitIndex <;> simp [nextSymbol, durHigh, durLow, bitPulse, hbit]

/-- From the cursor at bit `i` of byte `n` on, a frame of `len` bytes in the buffer `m` has these bits left, in wire
order (R63, R165). -/
def BitsLeft (c : Cfg) (m : Memory) (len : Nat) : Nat → Fin 8 → List Bool → Prop
  | n, _, [] => n = len
  | n, i, b :: bits => n ≠ len ∧ bitOf (bufByte c m n) i = b ∧ BitsLeft c m len (nextByte n i) (nextBit i) bits

/-- The symbol a transmitter is in, and a pulse for every bit left (R92, R165). -/
theorem AtSymbol.sends_bits (hc : 1 ≤ c.tick) {bits : List Bool} (ht : AtSymbol t)
    (hb : BitsLeft c t.buf t.bufLen t.byteIndex t.bitIndex bits) :
    ∃ u, Sends c t (pulse c (durHigh t) (durLow t) ++ bits.flatMap (bitPulse c t.profile)) u ∧ u.phase = .idle := by
  induction bits generalizing t with
  | nil => simpa using ht.sends_last hc hb
  | cons b bits ih =>
    obtain ⟨hn, rfl, hrest⟩ := hb
    obtain ⟨u, hsent, hidle⟩ := ih (ht.at_nextSymbol c) hrest
    rw [pulse_nextSymbol] at hsent
    exact ⟨u, (ht.sends_next hc hn).append hsent, hidle⟩

theorem bitsLeft_byte {m : Memory} {len n : Nat} {bits : List Bool} (hn : n ≠ len)
    (hrest : BitsLeft c m len (n + 1) 7 bits) : BitsLeft c m len n 7 (byteBits (bufByte c m n) ++ bits) :=
  ⟨hn, rfl, hn, rfl, hn, rfl, hn, rfl, hn, rfl, hn, rfl, hn, rfl, hn, rfl, hrest⟩

/-- At the first bit of a byte, the bits left are those of the bytes left (R63). -/
theorem bitsLeft_wireBits (c : Cfg) (m : Memory) (n k : Nat) :
    BitsLeft c m (n + k) n 7 (wireBits (bufSlice c m n k)) := by
  induction k generalizing n with
  | zero => rfl
  | succ k ih =>
    have hslice : bufSlice c m n (k + 1) = bufByte c m n :: bufSlice c m (n + 1) k := by
      rw [Nat.add_comm k 1, bufSlice_append]
      rfl
    have hlen : n + (k + 1) = n + 1 + k := by omega
    rw [hslice, hlen]
    exact bitsLeft_byte (by omega) (ih (n + 1))

/-- A loaded frame is sent as its waveform (R167). -/
theorem FrameLoaded.sends {bytes : List Byte} (ht : FrameLoaded c t bytes) (hc : 1 ≤ c.tick) :
    ∃ u, Sends c t (frameWave c t.profile bytes) u ∧ u.phase = .idle := by
  have hbits := bitsLeft_wireBits c t.buf 0 bytes.length
  rw [ht.content, Nat.zero_add, ← ht.bufLen, ← ht.byteIndex, ← ht.bitIndex] at hbits
  have hstart : pulse c (durHigh t) (durLow t) = pulse c t.profile.startHigh t.profile.startLow := by
    simp [durHigh, durLow, ht.sym]
  rw [frameWave, ← hstart]
  exact AtSymbol.sends_bits hc ⟨ht.phase, ht.half, ht.elapsed⟩ hbits

theorem pulse_length (c : Cfg) (high low : Nat) : (pulse c high low).length = halfTicks c high + halfTicks c low := by
  simp [pulse, symbolWave]

/-- ONE and ZERO last equally long (R93). -/
theorem bitPulse_length (c : Cfg) (p : Profile) (b : Bool) :
    (bitPulse c p b).length = halfTicks c p.high + halfTicks c p.low := by
  cases b
  · exact (pulse_length c p.low p.high).trans (Nat.add_comm _ _)
  · exact pulse_length c p.high p.low

theorem wireBits_length (bytes : List Byte) : (wireBits bytes).length = 8 * bytes.length := by
  simp [wireBits, byteBits, Nat.mul_comm]

theorem frameWave_length (c : Cfg) (p : Profile) (bytes : List Byte) :
    (frameWave c p bytes).length = halfTicks c p.startHigh + halfTicks c p.startLow +
      8 * bytes.length * (halfTicks c p.high + halfTicks c p.low) := by
  simp [frameWave, pulse_length, bitPulse_length, wireBits_length]

end Waves

/-- Settles O29: the frame is sent symbol by symbol, and its waveform has as many levels as the statement says. -/
theorem frameWaveform : Obligations.FrameWaveform := by
  intro c t bytes l hc ht
  obtain ⟨u, hsent, hidle⟩ := ht.sends hc
  dsimp only
  rw [← frameWave_length]
  refine ⟨hsent.levels l, hsent.sending, ?_⟩
  rw [hsent.after]
  exact hidle

/-! ## The transmit commands (R160 to R164) -/

/-! The rows of the opcode map (R101). -/

theorem encodes_txSend : Encodes 0x12 fun w => .txSend (handleField w) (lowA w).toNat :=
  fun w hop => by simp [decode, hop]

theorem encodes_txStop : Encodes 0x13 fun w => .txStop (handleField w) :=
  fun w hop => by simp [decode, hop]

theorem encodes_txSetChannel : Encodes 0x16 fun w => .txSetChannel (handleField w) (lowA w) :=
  fun w hop => by simp [decode, hop]

theorem encodes_txSetId : Encodes 0x17 fun w => .txSetId (handleField w) (lowA w) :=
  fun w hop => by simp [decode, hop]

theorem encodes_txGetState : Encodes 0x18 fun w => .txGetState (handleField w) :=
  fun w hop => by simp [decode, hop]

/-! The arms of the dispatcher (R101). -/

section Arms

variable (h : Handle) (s : State)

theorem exec_txSend (length : Nat) : exec (.txSend h length) s = execTxSend h length s := rfl
theorem exec_txStop : exec (.txStop h) s = execTxStop h s := rfl
theorem exec_txSetChannel (channel : Byte) : exec (.txSetChannel h channel) s = execTxSetChannel h channel s := rfl
theorem exec_txSetId (id : Byte) : exec (.txSetId h id) s = execTxSetId h id s := rfl
theorem exec_txGetState : exec (.txGetState h) s = execTxGetState h s := rfl

end Arms

@[simp] theorem State.replied_txAt (s : State) (status : Status) (value : Nat) (data : List Byte) (events : List Event)
    (k : Handle) : (s.replied status value data events).txAt k = s.txAt k := rfl

/-! ### The frame buffer -/

/-- The bytes of a frame by their offsets (R61). -/
theorem frameBytes_getElem (id channel : Nibble) (payload : List Byte) (i : Nat)
    (hi : i < (frameBytes id channel payload).length) :
    (frameBytes id channel payload)[i] =
      if i = 0 then headerByte id channel
      else if i = 1 then BitVec.ofNat 8 payload.length
      else if i < 2 + payload.length then payload.getD (i - 2) 0
      else checksum payload := by
  match i with
  | 0 => rfl
  | 1 => rfl
  | k + 2 =>
    rw [frameBytes_length] at hi
    rw [show 2 + payload.length = payload.length + 2 from Nat.add_comm _ _]
    by_cases hk : k < payload.length <;> simp [frameBytes, List.getElem_append, hk]

/-- A frame written into a buffer, and above it the bytes as they were (R61, R160). -/
theorem bufByte_writeFrame {c : Cfg} (m : Memory) (id channel : Nibble) (payload : List Byte) {i : Nat}
    (hi : i < c.bufCap) :
    bufByte c (m.writeBytes 0 (frameBytes id channel payload)) i =
      if i = 0 then headerByte id channel
      else if i = 1 then BitVec.ofNat 8 payload.length
      else if i < 2 + payload.length then payload.getD (i - 2) 0
      else if i = 2 + payload.length then checksum payload
      else bufByte c m i := by
  rw [bufByte_of_lt _ hi, bufByte_of_lt _ hi, Memory.read_writeBytes]
  by_cases hframe : 0 ≤ i ∧ i < 0 + (frameBytes id channel payload).length
  · simp only [dif_pos hframe, frameBytes_getElem, Nat.sub_zero]
    rw [frameBytes_length] at hframe
    split_ifs with h0 h1 hbody hsum
    · rfl
    · rfl
    · rfl
    · rfl
    · omega
  · rw [dif_neg hframe]
    rw [frameBytes_length] at hframe
    rw [if_neg (by omega), if_neg (by omega), if_neg (by omega), if_neg (by omega)]

/-- The payload port holds every payload that a configuration of R11 admits. -/
theorem payloadBytes_length {s : State} {n : Nat} (hc : validCfg s.cfg) (hn : n ≤ s.cfg.maxPayload) :
    (s.payloadBytes n).length = n := by
  have hcap := hc.bufCap_eq
  have hle := hc.bufCap_le
  rw [State.payloadBytes, List.length_take, Vector.length_toList]
  exact Nat.min_eq_left (by show n ≤ 252; omega)

theorem payloadBytes_getD (s : State) {n i : Nat} (hi : i < n) :
    (s.payloadBytes n).getD i 0 = s.payloadPort.toList.getD i 0 := by
  simp [State.payloadBytes, List.getD_eq_getElem?_getD, hi]

/-- The frame buffer of an accepted `TX_SEND`, by the bytes of the payload port (R105, R160). -/
theorem bufByte_sentFrame {s : State} {length i : Nat} (hc : validCfg s.cfg) (hl : length ≤ s.cfg.maxPayload)
    (t : TxContext) (hi : i < s.cfg.bufCap) :
    bufByte s.cfg (t.buf.writeBytes 0 (frameBytes t.id t.channel (s.payloadBytes length))) i =
      if i = 0 then headerByte t.id t.channel
      else if i = 1 then BitVec.ofNat 8 length
      else if i < 2 + length then s.payloadPort.toList.getD (i - 2) 0
      else if i = 2 + length then checksum (s.payloadPort.toList.take length)
      else bufByte s.cfg t.buf i := by
  rw [bufByte_writeFrame _ _ _ _ hi, payloadBytes_length hc hl]
  split_ifs with h0 h1 hbody
  · rfl
  · rfl
  · exact payloadBytes_getD s (by omega)
  · rfl
  · rfl

/-! ### `TX_SEND` -/

section Commands

variable {s : State} {h : Handle}

/-- The state an accepted `TX_SEND` leaves (R160). -/
def State.sendStarted (s : State) (h : Handle) (length : Nat) : State :=
  ({ s.setTx h (startFrame (s.txAt h) (s.payloadBytes length)) with tickRunning := true }).replied .ok 1 []
    (if s.tickRunning then [] else [.tickStart s.cfg.tick])

/-- The checks of `TX_SEND` in their order (R160). -/
theorem exec_txSend_active (ha : s.txActive h) (length : Nat) :
    exec (.txSend h length) s =
      if (s.txAt h).phase = .errorDefinitions then .next (s.replied .rejected 0 [] [])
      else if (s.txAt h).id = 0 then .next (s.replied .invalidAddress 0 [] [])
      else if (s.txAt h).channel = 0 then .next (s.replied .invalidChannel 0 [] [])
      else if s.cfg.maxPayload < length then .next (s.replied .payloadTooLarge 0 [] [])
      else .next (s.sendStarted h length) := by
  have hstart := respond_startTick_quiet (s.setTx h (startFrame (s.txAt h) (s.payloadBytes length))) .ok 1
  rw [show s.sendStarted h length = _ from hstart.symm]
  exact (exec_txSend h s length).trans (onTx_active ha)

/-! ### `TX_STOP` -/

/-- The state `TX_STOP` leaves (R152, R161). -/
def State.txStopped (s : State) (h : Handle) : State :=
  ((s.setTx h { s.txAt h with phase := stoppedTxPhase (s.txAt h).phase }).setLine (s.txAt h).pin .low).replied .ok 0 []
    [.pinWrite (s.txAt h).pin .low]

theorem exec_txStop_active (ha : s.txActive h) : exec (.txStop h) s = .next (s.txStopped h) :=
  (exec_txStop h s).trans (onTx_active ha)

theorem stoppedTxPhase_eq (p : TxPhase) :
    stoppedTxPhase p = if p = .errorDefinitions then .errorDefinitions else .idle := by
  cases p <;> rfl

@[simp] theorem stoppedTxPhase_stopped (p : TxPhase) : stoppedTxPhase (stoppedTxPhase p) = stoppedTxPhase p := by
  cases p <;> rfl

@[simp] theorem txStopped_txAt (s : State) (h : Handle) :
    (s.txStopped h).txAt h = { s.txAt h with phase := stoppedTxPhase (s.txAt h).phase } :=
  s.setTx_txAt_self h _

/-- A stopped transmitter is stopped already (R152). -/
theorem txStopped_txStopped (s : State) (h : Handle) : (s.txStopped h).txStopped h = s.txStopped h := by
  rw [State.txStopped, txStopped_txAt]
  simp [State.txStopped, State.replied, State.setTx, State.setLine]

/-! ### `TX_SET_CHANNEL`, `TX_SET_ID` and `TX_GET_STATE` -/

theorem exec_txSetChannel_active (ha : s.txActive h) (channel : Byte) : exec (.txSetChannel h channel) s =
    .next ((s.setTx h { s.txAt h with channel := BitVec.ofNat 4 (channel.toNat % 16) }).replied .ok 0 [] []) := by
  rw [← keptNibble_eq]
  exact (exec_txSetChannel h s channel).trans (onTx_active ha)

theorem exec_txSetId_active (ha : s.txActive h) (id : Byte) : exec (.txSetId h id) s =
    .next ((s.setTx h { s.txAt h with id := BitVec.ofNat 4 (id.toNat % 16) }).replied .ok 0 [] []) := by
  rw [← keptNibble_eq]
  exact (exec_txSetId h s id).trans (onTx_active ha)

end Commands

/-! ### The statements -/

/-- Settles O23: the checks one by one; the buffer of an accepted frame is the old one with the frame written in it. -/
theorem txSendRule : Obligations.TxSendRule := by
  refine ⟨encodes_txSend, fun h length s => ⟨(exec_txSend h s length).trans ∘ onTx_inactive,
    fun ha hp => ?phase, fun ha hp hi => ?address, fun ha hp hi hc => ?channel, fun ha hp hi hc hl => ?tooLarge,
    fun hv ha hp hi hc hl => ⟨_, fun i => bufByte_sentFrame hv hl (s.txAt h), ?accepted⟩⟩⟩
  case phase => rw [exec_txSend_active ha, if_pos hp]
  case address => rw [exec_txSend_active ha, if_neg hp, if_pos hi]
  case channel => rw [exec_txSend_active ha, if_neg hp, if_neg hi, if_pos hc]
  case tooLarge => rw [exec_txSend_active ha, if_neg hp, if_neg hi, if_neg hc, if_pos hl]
  case accepted =>
    rw [exec_txSend_active ha, if_neg hp, if_neg hi, if_neg hc, if_neg (Nat.not_lt.2 hl), State.sendStarted,
      startFrame, payloadBytes_length hv hl]

/-- Settles O24: both stops end in the state `TX_STOP` leaves. -/
theorem txStopRule : Obligations.TxStopRule := by
  refine ⟨encodes_txStop, fun h s => ⟨fun ha => ?_, (exec_txStop h s).trans ∘ onTx_inactive⟩⟩
  rw [← stoppedTxPhase_eq]
  have hactive : (s.txStopped h).txActive h := ⟨ha.1, by rw [txStopped_txAt]; exact ha.2⟩
  refine ⟨exec_txStop_active ha, (exec_txStop_active hactive).trans ?_⟩
  rw [txStopped_txStopped]
  rfl

/-- Settles O25: the stored 0 is the channel the next `TX_SEND` checks. -/
theorem txSetChannelRule : Obligations.TxSetChannelRule := by
  refine ⟨encodes_txSetChannel, fun h channel s => ⟨fun ha => exec_txSetChannel_active ha channel,
    (exec_txSetChannel h s channel).trans ∘ onTx_inactive,
    fun ha hp hi hzero => ⟨_, exec_txSetChannel_active ha channel, fun length => ?_⟩⟩⟩
  refine (exec_txSend_active ?_ length).trans ?_
  · exact ⟨ha.1, by simpa using ha.2⟩
  · simp [hp, show (s.txAt h).id ≠ 0#4 from hi, hzero]

/-- Settles O26: the stored 0 is the address the next `TX_SEND` checks. -/
theorem txSetIdRule : Obligations.TxSetIdRule := by
  refine ⟨encodes_txSetId, fun h id s => ⟨fun ha => exec_txSetId_active ha id,
    (exec_txSetId h s id).trans ∘ onTx_inactive,
    fun ha hp hzero => ⟨_, exec_txSetId_active ha id, fun length => ?_⟩⟩⟩
  refine (exec_txSend_active ?_ length).trans ?_
  · exact ⟨ha.1, by simpa using ha.2⟩
  · simp [hp, hzero]

/-- Settles O27: the answer is the code of the phase. -/
theorem txGetStateRule : Obligations.TxGetStateRule := by
  refine ⟨encodes_txGetState, fun h s => ⟨fun ha => ?_, (exec_txGetState h s).trans ∘ onTx_inactive⟩⟩
  rw [exec_txGetState, execTxGetState, onTx_active ha]
  cases (s.txAt h).phase <;> rfl

end Sys2Proof.Machine

/-! # The receiver (R180 to R213) -/

namespace Sys2Proof.Machine

section Receiver

variable {c : Cfg} {r : RxContext} {lvl : Level}

/-! ## Storing a bit (R203) -/

theorem nextBit_ne {i : Fin 8} (hi : i ≠ 0) : nextBit i = i - 1 := if_neg hi

/-- The last bit of a byte moves the cursor to the next byte. -/
theorem storeBit_last {b : Bool} (hfits : r.bufLen < c.bufCap) (hi : r.bitCursor = 0) :
    storeBit c r b = { r with buf := (storeBit c r b).buf, bitCursor := 7, bufLen := r.bufLen + 1 } := by
  simp only [storeBit_fits hfits, hi, nextBit_zero, nextByte_zero]

/-- Any other bit moves the cursor within the byte. -/
theorem storeBit_inner {b : Bool} (hfits : r.bufLen < c.bufCap) (hi : r.bitCursor ≠ 0) :
    storeBit c r b = { r with buf := (storeBit c r b).buf, bitCursor := nextBit r.bitCursor } := by
  simp only [storeBit_fits hfits, nextByte_ne hi]

/-! ## The classifier (R200, R201) -/

/-- The two samples of a receiver are within tolerance of the durations `high` and `low` (R200, R201). -/
abbrev PairNear (c : Cfg) (r : RxContext) (high low : Nat) : Prop :=
  absDiff r.sampleHigh high ≤ c.deviation ∧ absDiff r.sampleLow low ≤ c.deviation

/-- The classifier by the distances of the two samples. -/
theorem classifyPair_eq (c : Cfg) (r : RxContext) :
    classifyPair c r =
      if PairNear c r r.profile.startHigh r.profile.startLow then beginFrame r
      else if PairNear c r r.profile.high r.profile.low then storeBit c r true
      else if PairNear c r r.profile.low r.profile.high then storeBit c r false
      else r := by
  simp only [classifyPair, Bool.and_eq_true, within_iff]

theorem classifyPair_start (hs : PairNear c r r.profile.startHigh r.profile.startLow) :
    classifyPair c r = beginFrame r := by rw [classifyPair_eq, if_pos hs]

theorem classifyPair_one (hs : ¬PairNear c r r.profile.startHigh r.profile.startLow)
    (ho : PairNear c r r.profile.high r.profile.low) : classifyPair c r = storeBit c r true := by
  rw [classifyPair_eq, if_neg hs, if_pos ho]

theorem classifyPair_zero (hs : ¬PairNear c r r.profile.startHigh r.profile.startLow)
    (ho : ¬PairNear c r r.profile.high r.profile.low) (hz : PairNear c r r.profile.low r.profile.high) :
    classifyPair c r = storeBit c r false := by
  rw [classifyPair_eq, if_neg hs, if_neg ho, if_pos hz]

theorem classifyPair_none (hs : ¬PairNear c r r.profile.startHigh r.profile.startLow)
    (ho : ¬PairNear c r r.profile.high r.profile.low) (hz : ¬PairNear c r r.profile.low r.profile.high) :
    classifyPair c r = r := by
  rw [classifyPair_eq, if_neg hs, if_neg ho, if_neg hz]

/-- A pair that is no START and is near a bit stores one (R201). -/
theorem classifyPair_bit (hs : ¬PairNear c r r.profile.startHigh r.profile.startLow)
    (hbit : PairNear c r r.profile.high r.profile.low ∨ PairNear c r r.profile.low r.profile.high) :
    ∃ b, classifyPair c r = storeBit c r b := by
  by_cases ho : PairNear c r r.profile.high r.profile.low
  · exact ⟨true, classifyPair_one hs ho⟩
  · exact ⟨false, classifyPair_zero hs ho (hbit.resolve_left ho)⟩

/-! ## The time-out (R197) -/

/-- The HIGH sample of a receiver is within tolerance of the duration `d` (R197, R200). -/
abbrev LoneNear (c : Cfg) (r : RxContext) (d : Nat) : Prop := absDiff r.sampleHigh d ≤ c.deviation

/-- The lone sample of a time-out by its distance to the two durations. -/
theorem classifyLone_eq (c : Cfg) (r : RxContext) :
    classifyLone c r =
      if LoneNear c r r.profile.high then storeBit c r true
      else if LoneNear c r r.profile.low then storeBit c r false
      else r := by
  simp only [classifyLone, within_iff]

theorem classifyLone_one (ho : LoneNear c r r.profile.high) :
    classifyLone c r = storeBit c r true := by rw [classifyLone_eq, if_pos ho]

theorem classifyLone_zero (ho : ¬LoneNear c r r.profile.high)
    (hz : LoneNear c r r.profile.low) : classifyLone c r = storeBit c r false := by
  rw [classifyLone_eq, if_neg ho, if_pos hz]

/-- A lone sample near a bit stores one (R197). -/
theorem classifyLone_bit (hbit : LoneNear c r r.profile.high ∨ LoneNear c r r.profile.low) :
    ∃ b, classifyLone c r = storeBit c r b := by
  by_cases ho : LoneNear c r r.profile.high
  · exact ⟨true, classifyLone_one ho⟩
  · exact ⟨false, classifyLone_zero ho (hbit.resolve_left ho)⟩

theorem classifyLone_none (hbit : ¬(LoneNear c r r.profile.high ∨ LoneNear c r r.profile.low)) :
    classifyLone c r = r := by
  rw [not_or] at hbit
  rw [classifyLone_eq, if_neg hbit.1, if_neg hbit.2]

theorem timeout_idle (hp : r.pending = false) : timeout c r = clearTracker r := by simp [timeout, hp]

/-- A pending sample is classified, and then only a receiver that is `Listening` validates. -/
theorem timeout_pending (hp : r.pending = true) :
    timeout c r = clearTracker (validateIfListening c (classifyLone c r)) := by simp [timeout, hp]

theorem validateIfListening_other (hl : r.phase ≠ .listening) : validateIfListening c r = r := if_neg hl

theorem validateIfListening_ok (hl : r.phase = .listening) (hok : frameOk c r = true) :
    validateIfListening c r = { r with phase := .messageReady } := by
  rw [validateIfListening, if_pos hl]
  rcases validate_cases c r with ⟨-, hv⟩ | ⟨hbad, -⟩
  · exact hv
  · exact absurd (hok.symm.trans hbad) (by decide)

theorem validateIfListening_bad (hl : r.phase = .listening) (hbad : frameOk c r = false) :
    validateIfListening c r = { r with phase := .listening, bufLen := 0, bitCursor := 7 } := by
  rw [validateIfListening, if_pos hl]
  rcases validate_cases c r with ⟨hok, -⟩ | ⟨-, hv⟩
  · exact absurd (hok.symm.trans hbad) (by decide)
  · exact hv

/-! ## Transition detection (R198) -/

theorem detect_same (h : lvl = r.prevLevel) : detect c lvl r = r := if_pos h

theorem detect_first (h : lvl ≠ r.prevLevel) (hf : r.found = false) :
    detect c lvl r = { r with prevLevel := lvl, found := true, elapsed := 0 } := by simp [detect, h, hf]

theorem detect_falling (h : lvl ≠ r.prevLevel) (hf : r.found = true) (hl : lvl = .low) :
    detect c lvl r = { r with prevLevel := .low, sampleHigh := r.elapsed, elapsed := 0, pending := true } := by
  subst hl
  simp [detect, h, hf]

theorem detect_rising (h : lvl ≠ r.prevLevel) (hf : r.found = true) (hl : lvl = .high) (hp : r.pending = false) :
    detect c lvl r = { r with prevLevel := .high, sampleLow := r.elapsed, elapsed := 0 } := by
  subst hl
  simp [detect, h, hf, hp]

theorem detect_pair (h : lvl ≠ r.prevLevel) (hf : r.found = true) (hl : lvl = .high) (hp : r.pending = true) :
    detect c lvl r =
      classifyPair c { r with prevLevel := .high, sampleLow := r.elapsed, elapsed := 0, pending := false } := by
  subst hl
  simp [detect, h, hf, hp]

/-! ## A tick (R196) -/

theorem rxTick_early (ht : tracks r = true) (he : r.elapsed + c.tick < c.elapsedMax) :
    rxTick c lvl r = detect c lvl { r with elapsed := r.elapsed + c.tick } := by
  have ht' : tracks { r with elapsed := r.elapsed + c.tick } = true := ht
  simp [rxTick, timeoutIfDue, ht, ht', Nat.not_le.2 he]

/-- A rising edge before the time-out completes the pair that a HIGH sample waits for. -/
theorem rxTick_pair (ht : tracks r = true) (he : r.elapsed + c.tick < c.elapsedMax) (hf : r.found = true)
    (hl : r.prevLevel = .low) (hp : r.pending = true) :
    rxTick c .high r = classifyPair c
      { r with prevLevel := .high, sampleLow := r.elapsed + c.tick, elapsed := 0, pending := false } :=
  (rxTick_early ht he).trans
    (detect_pair (r := { r with elapsed := r.elapsed + c.tick }) (by simp [hl]) hf rfl hp)

/-- When the time-out is due it comes first; an overflow in it ends the tick. -/
theorem rxTick_due (ht : tracks r = true) (he : c.elapsedMax ≤ r.elapsed + c.tick) :
    rxTick c lvl r =
      if tracks (timeout c { r with elapsed := r.elapsed + c.tick }) then
        detect c lvl (timeout c { r with elapsed := r.elapsed + c.tick })
      else timeout c { r with elapsed := r.elapsed + c.tick } := by
  simp [rxTick, timeoutIfDue, ht, he]

end Receiver

/-! ## The statements on single operations -/

/-- Settles O37: the buffer is that of the stored bit, which `bitOf_storeBit` reads. -/
theorem storeBitRule : Obligations.StoreBitRule := fun c r b =>
  ⟨storeBit_full, fun hfits =>
    ⟨(storeBit c r b).buf, fun i _ j => bitOf_storeBit hfits i j, storeBit_last hfits,
      fun hi => nextBit_ne hi ▸ storeBit_inner hfits hi⟩⟩

/-- Settles O38: the windows are tried in the order of `classifyPair_eq`. -/
theorem classifyPairRule : Obligations.ClassifyPairRule := fun _ _ =>
  ⟨classifyPair_start, classifyPair_one, classifyPair_zero, classifyPair_none⟩

/-- Settles O39: what the lone sample leaves is validated, or not, before the tracker is cleared. -/
theorem timeoutRule : Obligations.TimeoutRule := by
  intro c r
  dsimp only
  rw [← classifyLone_eq]
  refine ⟨timeout_idle, fun hp hl => ?kept, fun hp hl hok => ?ready, fun hp hl hbad => ?discarded⟩
  case kept => rw [timeout_pending hp, validateIfListening_other hl]; rfl
  case ready => rw [timeout_pending hp, validateIfListening_ok hl hok]; rfl
  case discarded => rw [timeout_pending hp, validateIfListening_bad hl hbad]; rfl

/-- Settles O40: one equation per kind of edge. -/
theorem edgeDetectionRule : Obligations.EdgeDetectionRule := fun _ _ _ =>
  ⟨detect_same, detect_first, detect_falling, detect_rising, detect_pair⟩

/-- Settles O41: the tick is added before either the time-out or the edge is looked for. -/
theorem receiverTickOrder : Obligations.ReceiverTickOrder := by
  intro c lvl r
  dsimp only
  simp only [← tracks_iff, Bool.not_eq_true]
  refine ⟨rxTick_idle, rxTick_early, fun ht he hq => ?tracked, fun ht he hq => ?overflowed⟩
  case tracked => rw [rxTick_due ht he, if_pos hq]
  case overflowed => rw [rxTick_due ht he, if_neg (by simp [hq])]

/-! ## The receive commands (R180 to R187) -/

/-! The rows of the opcode map (R101). -/

theorem encodes_rxListen : Encodes 0x22 fun w => .rxListen (handleField w) :=
  fun w hop => by simp [decode, hop]

theorem encodes_rxStop : Encodes 0x23 fun w => .rxStop (handleField w) :=
  fun w hop => by simp [decode, hop]

theorem encodes_rxSetChannel : Encodes 0x26 fun w => .rxSetChannel (handleField w) (lowA w) :=
  fun w hop => by simp [decode, hop]

theorem encodes_rxReset : Encodes 0x27 fun w => .rxReset (handleField w) :=
  fun w hop => by simp [decode, hop]

theorem encodes_rxGetState : Encodes 0x28 fun w => .rxGetState (handleField w) :=
  fun w hop => by simp [decode, hop]

theorem encodes_rxGetMessage : Encodes 0x29 fun w => .rxGetMessage (handleField w) :=
  fun w hop => by simp [decode, hop]

theorem encodes_rxGetMessageLength : Encodes 0x2A fun w => .rxGetMessageLength (handleField w) :=
  fun w hop => by simp [decode, hop]

theorem encodes_rxClearBuffer : Encodes 0x2B fun w => .rxClearBuffer (handleField w) :=
  fun w hop => by simp [decode, hop]

/-! The arms of the dispatcher (R101). -/

section Arms

variable (h : Handle) (s : State)

theorem exec_rxListen : exec (.rxListen h) s = execRxListen h s := rfl
theorem exec_rxStop : exec (.rxStop h) s = execRxStop h s := rfl
theorem exec_rxSetChannel (channel : Byte) : exec (.rxSetChannel h channel) s = execRxSetChannel h channel s := rfl
theorem exec_rxReset : exec (.rxReset h) s = execRxReset h s := rfl
theorem exec_rxGetState : exec (.rxGetState h) s = execRxGetState h s := rfl
theorem exec_rxGetMessage : exec (.rxGetMessage h) s = execRxGetMessage h s := rfl
theorem exec_rxGetMessageLength : exec (.rxGetMessageLength h) s = execRxGetMessageLength h s := rfl
theorem exec_rxClearBuffer : exec (.rxClearBuffer h) s = execRxClearBuffer h s := rfl

end Arms

@[simp] theorem State.replied_rxAt (s : State) (status : Status) (value : Nat) (data : List Byte) (events : List Event)
    (k : Handle) : (s.replied status value data events).rxAt k = s.rxAt k := rfl

section Commands

variable {s : State} {h : Handle}

/-! ### `RX_LISTEN` -/

/-- The state an accepted `RX_LISTEN` leaves (R180). -/
def State.listenStarted (s : State) (h : Handle) : State :=
  ({ s.setRx h (startListening (s.rxAt h)) with tickRunning := true }).replied .ok 1 []
    (if s.tickRunning then [] else [.tickStart s.cfg.tick])

/-- The checks of `RX_LISTEN` in their order (R180). -/
theorem exec_rxListen_active (ha : s.rxActive h) :
    exec (.rxListen h) s =
      if (s.rxAt h).phase = .errorOverflow ∨ (s.rxAt h).phase = .errorDefinitions then
        .next (s.replied .rejected 0 [] [])
      else if (s.rxAt h).address = 0 then .next (s.replied .invalidAddress 0 [] [])
      else if (s.rxAt h).channel = 0 then .next (s.replied .invalidChannel 0 [] [])
      else .next (s.listenStarted h) := by
  have hstart := respond_startTick_quiet (s.setRx h (startListening (s.rxAt h))) .ok 1
  rw [show s.listenStarted h = _ from hstart.symm]
  exact (exec_rxListen h s).trans (onRx_active ha)

/-! ### `RX_STOP` -/

/-- The state `RX_STOP` leaves (R181, R189). -/
def State.rxStopped (s : State) (h : Handle) : State :=
  (s.setRx h { s.rxAt h with phase := stoppedRxPhase (s.rxAt h).phase }).replied .ok 0 [] []

theorem exec_rxStop_active (ha : s.rxActive h) : exec (.rxStop h) s = .next (s.rxStopped h) :=
  (exec_rxStop h s).trans (onRx_active ha)

@[simp] theorem stoppedRxPhase_stopped (p : RxPhase) : stoppedRxPhase (stoppedRxPhase p) = stoppedRxPhase p := by
  cases p <;> rfl

@[simp] theorem rxStopped_rxAt (s : State) (h : Handle) :
    (s.rxStopped h).rxAt h = { s.rxAt h with phase := stoppedRxPhase (s.rxAt h).phase } :=
  s.setRx_rxAt_self h _

/-- A stopped receiver is stopped already (R189). -/
theorem rxStopped_rxStopped (s : State) (h : Handle) : (s.rxStopped h).rxStopped h = s.rxStopped h := by
  rw [State.rxStopped, rxStopped_rxAt]
  simp [State.rxStopped, State.replied, State.setRx]

/-- The first and every further `RX_STOP` end in the state that the first one leaves (R181). -/
theorem exec_rxStop_twice (ha : s.rxActive h) :
    exec (.rxStop h) s = .next (s.rxStopped h) ∧ exec (.rxStop h) (s.rxStopped h) = .next (s.rxStopped h) := by
  have hactive : (s.rxStopped h).rxActive h := ⟨ha.1, by rw [rxStopped_rxAt]; exact ha.2⟩
  refine ⟨exec_rxStop_active ha, (exec_rxStop_active hactive).trans ?_⟩
  rw [rxStopped_rxStopped]

/-! ### `RX_SET_CHANNEL` and `RX_CLEAR_BUFFER` -/

theorem exec_rxSetChannel_active (ha : s.rxActive h) (channel : Byte) : exec (.rxSetChannel h channel) s =
    .next ((s.setRx h { s.rxAt h with channel := BitVec.ofNat 4 (channel.toNat % 16) }).replied .ok 0 [] []) := by
  rw [← keptNibble_eq]
  exact (exec_rxSetChannel h s channel).trans (onRx_active ha)

theorem exec_rxClearBuffer_active (ha : s.rxActive h) : exec (.rxClearBuffer h) s =
    if (s.rxAt h).phase = .messageReady then .next ((s.setRx h (clearBuffer (s.rxAt h))).replied .ok 1 [] [])
    else .next (s.replied .rejected 0 [] []) :=
  (exec_rxClearBuffer h s).trans (onRx_active ha)

/-! ### The message read-out -/

theorem exec_rxGetMessage_active (ha : s.rxActive h) : exec (.rxGetMessage h) s =
    if (s.rxAt h).phase = .messageReady then
      .next (s.replied .ok (bufByte s.cfg (s.rxAt h).buf 1).toNat
        (bufSlice s.cfg (s.rxAt h).buf 2 (bufByte s.cfg (s.rxAt h).buf 1).toNat) [])
    else .next (s.replied .rejected 0 [] []) :=
  (exec_rxGetMessage h s).trans (onRx_active ha)

theorem exec_rxGetMessageLength_active (ha : s.rxActive h) : exec (.rxGetMessageLength h) s =
    if (s.rxAt h).phase = .messageReady then .next (s.replied .ok (bufByte s.cfg (s.rxAt h).buf 1).toNat [] [])
    else .next (s.replied .rejected 0 [] []) :=
  (exec_rxGetMessageLength h s).trans (onRx_active ha)

end Commands

/-! ### The statements -/

/-- Settles O30: the checks one by one. -/
theorem rxListenRule : Obligations.RxListenRule := by
  refine ⟨encodes_rxListen, fun h s => ⟨(exec_rxListen h s).trans ∘ onRx_inactive,
    fun ha hp => ?phase, fun ha hp hi => ?address, fun ha hp hi hc => ?channel, fun ha hp hi hc => ?accepted⟩⟩
  case phase => rw [exec_rxListen_active ha, if_pos hp]
  case address => rw [exec_rxListen_active ha, if_neg hp, if_pos hi]
  case channel => rw [exec_rxListen_active ha, if_neg hp, if_neg hi, if_pos hc]
  case accepted =>
    rw [exec_rxListen_active ha, if_neg hp, if_neg hi, if_neg hc]
    rfl

/-- Settles O31: both stops end in the state `RX_STOP` leaves, whose phase the statement gives case by case. -/
theorem rxStopRule : Obligations.RxStopRule := by
  refine ⟨encodes_rxStop, fun h s => ⟨fun ha => ?_, (exec_rxStop h s).trans ∘ onRx_inactive⟩⟩
  have hstop := exec_rxStop_twice ha
  rw [State.rxStopped] at hstop
  cases hp : (s.rxAt h).phase <;> rw [hp] at hstop <;> exact hstop

/-- Settles O32: the phase is the one the profile decides, whatever the phase was. -/
theorem rxResetRule : Obligations.RxResetRule := by
  refine ⟨encodes_rxReset, fun h s => ⟨fun ha => ?_, (exec_rxReset h s).trans ∘ onRx_inactive⟩⟩
  simp only [← separated_iff]
  exact (exec_rxReset h s).trans (onRx_active ha)

/-- Settles O33: the stored 0 is the channel the next `RX_LISTEN` checks. -/
theorem rxSetChannelRule : Obligations.RxSetChannelRule := by
  refine ⟨encodes_rxSetChannel, fun h channel s => ⟨fun ha => exec_rxSetChannel_active ha channel,
    (exec_rxSetChannel h s channel).trans ∘ onRx_inactive,
    fun ha ho hd hi hzero => ⟨_, exec_rxSetChannel_active ha channel, (exec_rxListen_active ?_).trans ?_⟩⟩⟩
  · exact ⟨ha.1, by simpa using ha.2⟩
  · simp [ho, hd, show (s.rxAt h).address ≠ 0#4 from hi, hzero]

/-- Settles O34: the answer is the code of the phase, and the invariant excludes `Validating`. -/
theorem rxGetStateRule : Obligations.RxGetStateRule := by
  refine ⟨encodes_rxGetState, fun h s =>
    ⟨fun ha => ?_, (exec_rxGetState h s).trans ∘ onRx_inactive, fun hs => (hs.rx h).settled⟩⟩
  rw [exec_rxGetState, execRxGetState, onRx_active ha]
  cases (s.rxAt h).phase <;> rfl

/-- Settles O35: both answers by the phase; the invariant bounds the length byte of a message. -/
theorem rxReadOutRule : Obligations.RxReadOutRule := by
  refine ⟨encodes_rxGetMessage, encodes_rxGetMessageLength, fun h s => ⟨fun ha hm => ?ready, fun ha hm => ?other,
    fun ha => ⟨(exec_rxGetMessage h s).trans (onRx_inactive ha), (exec_rxGetMessageLength h s).trans (onRx_inactive ha)⟩,
    fun hs hm => ((hs.rx h).message hm).1⟩⟩
  case ready =>
    rw [exec_rxGetMessage_active ha, exec_rxGetMessageLength_active ha, if_pos hm, if_pos hm]
    exact ⟨rfl, rfl⟩
  case other =>
    rw [exec_rxGetMessage_active ha, exec_rxGetMessageLength_active ha, if_neg hm, if_neg hm]
    exact ⟨rfl, rfl⟩

/-- Settles O36: the buffer without cells reads 0 everywhere. -/
theorem rxClearBufferRule : Obligations.RxClearBufferRule := by
  refine ⟨encodes_rxClearBuffer, fun h s =>
    ⟨fun ha hm => ⟨[], fun i => bufByte_of_lt [], ?ready⟩, fun ha hm => ?other,
      (exec_rxClearBuffer h s).trans ∘ onRx_inactive⟩⟩
  case ready =>
    rw [exec_rxClearBuffer_active ha, if_pos hm]
    rfl
  case other => rw [exec_rxClearBuffer_active ha, if_neg hm]

/-! ## A ready message under the ticks (R209, R212) -/

section ReadyMessage

variable {c : Cfg} {r : RxContext} {lvl : Level}

/-- Without a pair to classify, transition detection changes the edge tracker only (R198). -/
theorem clearTracker_detect (h : lvl = .high → r.pending = false) :
    clearTracker (detect c lvl r) = { clearTracker r with prevLevel := lvl } := by
  rcases detect_cases c lvl r with ⟨rfl, ho⟩ | ⟨-, -, ho⟩ | ⟨-, -, rfl, ho⟩ | ⟨-, -, rfl, -, ho⟩ | ⟨-, -, hl, hp, -⟩
  · rw [ho]; rfl
  · rw [ho]; rfl
  · rw [ho]; rfl
  · rw [ho]; rfl
  · exact absurd (h hl) (by simp [hp])

/-- The phase of `q` and its buffer are those of `r`. -/
structure SameMessage (q r : RxContext) : Prop where
  phase : q.phase = r.phase
  buf : q.buf = r.buf

theorem detect_sameMessage (h : lvl = .high → r.pending = false) : SameMessage (detect c lvl r) r := by
  have hd := clearTracker_detect (c := c) h
  have hphase : (detect c lvl r).phase = r.phase := congrArg (·.phase) hd
  have hbuf : (detect c lvl r).buf = r.buf := congrArg (·.buf) hd
  exact ⟨hphase, hbuf⟩

/-- The edge looked for after a time-out completes no pair, so a tick at the time-out does what the time-out does. -/
theorem rxTick_due_sameMessage (ht : tracks r = true) (he : c.elapsedMax ≤ r.elapsed + c.tick) :
    SameMessage (rxTick c lvl r) (timeout c { r with elapsed := r.elapsed + c.tick }) := by
  rw [rxTick_due ht he]
  split
  · exact detect_sameMessage fun _ => rfl
  · exact ⟨rfl, rfl⟩

/-- A receiver that is ready with a message of `n` bytes, and the bytes behind it within the buffer. -/
structure HoldsMessage (c : Cfg) (n : Nat) (r : RxContext) : Prop where
  ready : r.phase = .messageReady
  received : n ≤ r.bufLen
  fits : r.bufLen ≤ c.bufCap

variable {n : Nat}

/-- The message of `n` bytes in `r` is ready in `q`, byte for byte. -/
abbrev KeepsMessage (c : Cfg) (n : Nat) (r q : RxContext) : Prop :=
  q.phase = .messageReady ∧ bufSlice c q.buf 0 n = bufSlice c r.buf 0 n

theorem HoldsMessage.kept (h : HoldsMessage c n r) : KeepsMessage c n r r := ⟨h.ready, rfl⟩

theorem SameMessage.keeps {q x : RxContext} (hq : SameMessage q x) (hx : KeepsMessage c n r x) : KeepsMessage c n r q :=
  ⟨hq.phase.trans hx.1, by rw [hq.buf, hx.2]⟩

/-- A bit is stored behind the message, or overflows the buffer where that is full (R203, R209). -/
theorem HoldsMessage.after_storeBit (h : HoldsMessage c n r) (b : Bool) :
    (r.bufLen = c.bufCap → (storeBit c r b).phase = .errorOverflow) ∧
    (r.bufLen ≠ c.bufCap → KeepsMessage c n r (storeBit c r b)) := by
  refine ⟨fun hfull => by rw [storeBit_full hfull.ge], fun hroom => ⟨?_, bufSlice_congr fun i _ hi => ?_⟩⟩
  · rw [storeBit_fits (lt_of_le_of_ne h.fits hroom)]
    exact h.ready
  · exact storeBit_keeps i (by have := h.received; omega)

/-- What a classified pair makes of a ready receiver (R201, R209). -/
theorem HoldsMessage.after_classifyPair (h : HoldsMessage c n r) :
    let start := PairNear c r r.profile.startHigh r.profile.startLow
    let bit := PairNear c r r.profile.high r.profile.low ∨ PairNear c r r.profile.low r.profile.high
    let q := classifyPair c r
    (start → q.phase = .listening ∧ q.bufLen = 0 ∧ q.bitCursor = 7) ∧
    (¬start → bit → r.bufLen = c.bufCap → q.phase = .errorOverflow) ∧
    (¬start → ¬(bit ∧ r.bufLen = c.bufCap) → KeepsMessage c n r q) := by
  refine ⟨fun hs => ?start, fun hs hbit hfull => ?full, fun hs hroom => ?kept⟩
  case start =>
    rw [classifyPair_start hs]
    exact ⟨if_pos h.ready, rfl, rfl⟩
  case full =>
    obtain ⟨b, ho⟩ := classifyPair_bit hs hbit
    rw [ho]
    exact (h.after_storeBit b).1 hfull
  case kept =>
    by_cases hbit : PairNear c r r.profile.high r.profile.low ∨ PairNear c r r.profile.low r.profile.high
    · obtain ⟨b, ho⟩ := classifyPair_bit hs hbit
      rw [ho]
      exact (h.after_storeBit b).2 fun hfull => hroom ⟨hbit, hfull⟩
    · rw [not_or] at hbit
      rw [classifyPair_none hs hbit.1 hbit.2]
      exact h.kept

/-- What the lone sample of a time-out makes of a ready receiver (R197, R209). -/
theorem HoldsMessage.after_classifyLone (h : HoldsMessage c n r) :
    let bit := LoneNear c r r.profile.high ∨ LoneNear c r r.profile.low
    let q := classifyLone c r
    (bit → r.bufLen = c.bufCap → q.phase = .errorOverflow) ∧
    (¬(bit ∧ r.bufLen = c.bufCap) → KeepsMessage c n r q) := by
  refine ⟨fun hbit hfull => ?full, fun hroom => ?kept⟩
  case full =>
    obtain ⟨b, ho⟩ := classifyLone_bit hbit
    rw [ho]
    exact (h.after_storeBit b).1 hfull
  case kept =>
    by_cases hbit : LoneNear c r r.profile.high ∨ LoneNear c r r.profile.low
    · obtain ⟨b, ho⟩ := classifyLone_bit hbit
      rw [ho]
      exact (h.after_storeBit b).2 fun hfull => hroom ⟨hbit, hfull⟩
    · rw [classifyLone_none hbit]
      exact h.kept

/-- The lone sample of a time-out never leaves a ready receiver `Listening`, so nothing is validated (R197). -/
theorem HoldsMessage.timeout_same (h : HoldsMessage c n r) (hp : r.pending = true) :
    SameMessage (timeout c r) (classifyLone c r) := by
  have hphase : (classifyLone c r).phase ≠ .listening := by
    obtain ⟨hfull, hkept⟩ := h.after_classifyLone
    by_cases hover : (LoneNear c r r.profile.high ∨ LoneNear c r r.profile.low) ∧
        r.bufLen = c.bufCap
    · simp [hfull hover.1 hover.2]
    · simp [(hkept hover).1]
  rw [timeout_pending hp, validateIfListening_other hphase]
  exact ⟨rfl, rfl⟩

/-- What a tick makes of a ready receiver: a pair classified, a lone sample classified at the time-out, or nothing. -/
theorem HoldsMessage.tick_cases (h : HoldsMessage c n r)
    (hpend : r.pending = true → r.found = true ∧ r.prevLevel = .low) :
    ((r.pending = true ∧ r.elapsed + c.tick < c.elapsedMax ∧ lvl = .high) ∧
      rxTick c lvl r = classifyPair c
        { r with prevLevel := .high, sampleLow := r.elapsed + c.tick, elapsed := 0, pending := false }) ∨
    ((r.pending = true ∧ c.elapsedMax ≤ r.elapsed + c.tick) ∧
      SameMessage (rxTick c lvl r) (classifyLone c { r with elapsed := r.elapsed + c.tick })) ∨
    (¬(r.pending = true ∧ r.elapsed + c.tick < c.elapsedMax ∧ lvl = .high) ∧
      ¬(r.pending = true ∧ c.elapsedMax ≤ r.elapsed + c.tick) ∧ SameMessage (rxTick c lvl r) r) := by
  have ht : tracks r = true := (tracks_iff r).2 (.inr h.ready)
  rcases Nat.lt_or_ge (r.elapsed + c.tick) c.elapsedMax with he | he
  · by_cases hpair : r.pending = true ∧ r.elapsed + c.tick < c.elapsedMax ∧ lvl = .high
    · obtain ⟨hp, -, rfl⟩ := hpair
      obtain ⟨hf, hlow⟩ := hpend hp
      exact .inl ⟨⟨hp, he, rfl⟩, rxTick_pair ht he hf hlow hp⟩
    · have hsame : SameMessage (detect c lvl { r with elapsed := r.elapsed + c.tick })
          { r with elapsed := r.elapsed + c.tick } :=
        detect_sameMessage fun hl => by simpa [hl, he] using hpair
      rw [← rxTick_early ht he] at hsame
      exact .inr (.inr ⟨hpair, by omega, hsame.phase, hsame.buf⟩)
  · have htick := rxTick_due_sameMessage (lvl := lvl) ht he
    by_cases hp : r.pending = true
    · have hlone := HoldsMessage.timeout_same (r := { r with elapsed := r.elapsed + c.tick })
        ⟨h.ready, h.received, h.fits⟩ hp
      exact .inr (.inl ⟨⟨hp, he⟩, htick.phase.trans hlone.phase, htick.buf.trans hlone.buf⟩)
    · rw [timeout_idle (r := { r with elapsed := r.elapsed + c.tick }) (by simpa using hp)] at htick
      exact .inr (.inr ⟨by simp [hp], by simp [hp], htick.phase, htick.buf⟩)

end ReadyMessage

/-- Settles O42: a tick classifies a pair, or a lone sample, or changes nothing of the message. -/
theorem readyMessageStable : Obligations.ReadyMessageStable := by
  intro c lvl r hr hm
  dsimp only
  have h : HoldsMessage c ((bufByte c r.buf 1).toNat + 3) r := ⟨hm, (hr.message hm).2, hr.length⟩
  rcases h.tick_cases (lvl := lvl) hr.pending with ⟨hpair, hq⟩ | ⟨hlone, hq⟩ | ⟨hpair, hlone, hq⟩
  case inl =>
    have hlone : ¬(r.pending = true ∧ c.elapsedMax ≤ r.elapsed + c.tick) := by omega
    rw [hq]
    obtain ⟨hstart, hfull, hkept⟩ := HoldsMessage.after_classifyPair (c := c)
      (r := { r with prevLevel := .high, sampleLow := r.elapsed + c.tick, elapsed := 0, pending := false })
      ⟨h.ready, h.received, h.fits⟩
    refine ⟨fun hs => hstart hs.2, ?_, fun hs hroom => hkept (fun hn => hs ⟨hpair, hn⟩) ?_⟩
    · rintro ⟨⟨-, hs, hbit⟩ | ⟨hl, -⟩, hcap⟩
      · exact hfull (fun hn => hs ⟨hpair, hn⟩) hbit hcap
      · exact absurd hl hlone
    · exact fun ⟨hbit, hcap⟩ => hroom ⟨.inl ⟨hpair, hs, hbit⟩, hcap⟩
  case inr.inl =>
    have hpair : ¬(r.pending = true ∧ r.elapsed + c.tick < c.elapsedMax ∧ lvl = .high) := by omega
    obtain ⟨hfull, hkept⟩ := HoldsMessage.after_classifyLone (c := c) (r := { r with elapsed := r.elapsed + c.tick })
      ⟨h.ready, h.received, h.fits⟩
    refine ⟨fun hs => absurd hs.1 hpair, ?_, fun _ hroom => hq.keeps (hkept ?_)⟩
    · rintro ⟨⟨hp, -⟩ | ⟨-, hbit⟩, hcap⟩
      · exact absurd hp hpair
      · exact hq.phase.trans (hfull hbit hcap)
    · exact fun ⟨hbit, hcap⟩ => hroom ⟨.inr ⟨hlone, hbit⟩, hcap⟩
  case inr.inr =>
    refine ⟨fun hs => absurd hs.1 hpair, ?_, fun _ _ => hq.keeps h.kept⟩
    rintro ⟨⟨hp, -⟩ | ⟨hl, -⟩, -⟩
    · exact absurd hp hpair
    · exact absurd hl hlone

/-! ## Bytes stored bit by bit (R63, R203) -/

section StoredBytes

variable {c : Cfg} {r q : RxContext}

/-- Bits stored one after the other (R203). -/
def storeBits (c : Cfg) (r : RxContext) (bits : List Bool) : RxContext := bits.foldl (storeBit c) r

theorem storeBits_append (c : Cfg) (r : RxContext) (bits more : List Bool) :
    storeBits c r (bits ++ more) = storeBits c (storeBits c r bits) more := List.foldl_append

@[simp] theorem storeBits_singleton (c : Cfg) (r : RxContext) (b : Bool) : storeBits c r [b] = storeBit c r b := rfl

/-- `q` is `r` with the bits above `i` of byte `b` stored in the byte that `r` was about to fill. -/
structure Filling (c : Cfg) (r : RxContext) (b : Byte) (i : Fin 8) (q : RxContext) : Prop where
  frame : ∃ m, q = { r with buf := m, bitCursor := i }
  stored : ∀ j, i < j → bitOf (bufByte c q.buf r.bufLen) j = bitOf b j
  others : ∀ k, k ≠ r.bufLen → bufByte c q.buf k = bufByte c r.buf k

variable {b : Byte} {i : Fin 8}

theorem Filling.start (hi : r.bitCursor = 7) : Filling c r b 7 r where
  frame := ⟨r.buf, by rw [← hi]⟩
  stored j hj := absurd hj (Fin.not_lt.2 (Fin.le_last j))
  others _ _ := rfl

/-- The bit at the cursor joins those stored (R203). -/
theorem Filling.stores (h : Filling c r b i q) (hfits : r.bufLen < c.bufCap) :
    (∀ j, i ≤ j → bitOf (bufByte c (storeBit c q (bitOf b i)).buf r.bufLen) j = bitOf b j) ∧
    ∀ k, k ≠ r.bufLen → bufByte c (storeBit c q (bitOf b i)).buf k = bufByte c r.buf k := by
  obtain ⟨⟨m, rfl⟩, hstored, hothers⟩ := h
  have hbit := bitOf_storeBit (r := { r with buf := m, bitCursor := i }) (b := bitOf b i) hfits
  refine ⟨fun j hj => ?_, fun k hk => byte_ext fun j => ?_⟩
  · rw [hbit]
    by_cases hji : j = i
    · simp [hji]
    · simpa [hji] using hstored j (lt_of_le_of_ne hj (Ne.symm hji))
  · rw [hbit, if_neg fun hx => hk hx.1, hothers k hk]

theorem Filling.next (h : Filling c r b i q) (hfits : r.bufLen < c.bufCap) (hi : i ≠ 0) :
    Filling c r b (nextBit i) (storeBit c q (bitOf b i)) := by
  obtain ⟨hstored, hothers⟩ := h.stores hfits
  refine ⟨?_, fun j hj => hstored j ?_, hothers⟩
  · obtain ⟨m, rfl⟩ := h.frame
    exact ⟨_, storeBit_inner (r := { r with buf := m, bitCursor := i }) hfits hi⟩
  · have := nextBit_val hi
    rw [Fin.lt_def] at hj
    rw [Fin.le_def]
    omega

/-- The byte is complete with its bit 0, and the next one is up (R203). -/
theorem Filling.last (h : Filling c r b 0 q) (hfits : r.bufLen < c.bufCap) :
    ∃ m, storeBit c q (bitOf b 0) = { r with buf := m, bitCursor := 7, bufLen := r.bufLen + 1 } ∧
      bufByte c m r.bufLen = b ∧ ∀ k, k ≠ r.bufLen → bufByte c m k = bufByte c r.buf k := by
  obtain ⟨hstored, hothers⟩ := h.stores hfits
  refine ⟨(storeBit c q (bitOf b 0)).buf, ?_, byte_ext fun j => hstored j (Fin.zero_le j), hothers⟩
  obtain ⟨m, rfl⟩ := h.frame
  exact storeBit_last (r := { r with buf := m, bitCursor := 0 }) hfits rfl

/-- The eight bits of a byte fill the byte at the cursor and no other (R203). -/
theorem storeBits_byteBits (hfits : r.bufLen < c.bufCap) (hi : r.bitCursor = 7) (b : Byte) :
    ∃ m, storeBits c r (byteBits b) = { r with buf := m, bitCursor := 7, bufLen := r.bufLen + 1 } ∧
      bufByte c m r.bufLen = b ∧ ∀ k, k ≠ r.bufLen → bufByte c m k = bufByte c r.buf k := by
  have h7 : Filling c r b 7 r := .start hi
  have h4 := ((h7.next hfits (by decide)).next hfits (by decide)).next hfits (by decide)
  have h1 := ((h4.next hfits (by decide)).next hfits (by decide)).next hfits (by decide)
  exact (h1.next hfits (by decide)).last hfits

/-- Stored in wire order, bytes follow those already in the buffer, which are kept (R63, R203). -/
theorem storeBits_wireBits {bytes : List Byte} (hfits : r.bufLen + bytes.length ≤ c.bufCap) (hi : r.bitCursor = 7) :
    ∃ m, storeBits c r (wireBits bytes) = { r with buf := m, bitCursor := 7, bufLen := r.bufLen + bytes.length } ∧
      bufSlice c m r.bufLen bytes.length = bytes ∧ ∀ k < r.bufLen, bufByte c m k = bufByte c r.buf k := by
  induction bytes generalizing r with
  | nil => exact ⟨r.buf, by rw [← hi]; rfl, rfl, fun _ _ => rfl⟩
  | cons b bytes ih =>
    rw [List.length_cons] at hfits
    obtain ⟨m₁, hbyte, hb, hkept₁⟩ := storeBits_byteBits (c := c) (by omega) hi b
    obtain ⟨m, hrest, hslice, hkept⟩ :=
      ih (r := { r with buf := m₁, bitCursor := 7, bufLen := r.bufLen + 1 }) (by dsimp only; omega) rfl
    refine ⟨m, ?_, ?_, fun k hk => (hkept k (Nat.lt_succ_of_lt hk)).trans (hkept₁ k (Nat.ne_of_lt hk))⟩
    · rw [show wireBits (b :: bytes) = byteBits b ++ wireBits bytes from rfl, storeBits_append, hbyte, hrest,
        List.length_cons, Nat.add_assoc, Nat.add_comm 1]
    · rw [List.length_cons, Nat.add_comm _ 1, bufSlice_append, hslice]
      have hfirst : bufByte c m r.bufLen = b := (hkept r.bufLen (Nat.lt_succ_self _)).trans hb
      simp [bufSlice, hfirst]

/-- From the beginning of a frame on, the buffer holds the bytes stored (R204). -/
theorem storeBits_fromStart {bytes : List Byte} (h0 : r.bufLen = 0) (hi : r.bitCursor = 7)
    (hfits : bytes.length ≤ c.bufCap) :
    ∃ m, storeBits c r (wireBits bytes) = { r with buf := m, bitCursor := 7, bufLen := bytes.length } ∧
      bufSlice c m 0 bytes.length = bytes := by
  obtain ⟨m, hstored, hbytes, -⟩ := storeBits_wireBits (c := c) (r := r) (bytes := bytes) (by omega) hi
  rw [h0, Nat.zero_add] at hstored
  rw [h0] at hbytes
  exact ⟨m, hstored, hbytes⟩

end StoredBytes

/-! ## A frame on the line (R204, R213) -/

section Hearing

variable {c : Cfg} {r : RxContext} {p : Profile} {b : Bool} {n : Nat × Nat}

theorem rxAfter_append (c : Cfg) (ls ms : List Level) (r : RxContext) :
    rxAfter c (ls ++ ms) r = rxAfter c ms (rxAfter c ls r) := by
  induction ls generalizing r with
  | nil => rfl
  | cons l ls ih => exact ih _

/-- A receiver right after a rising edge, with nothing pending. -/
def risen (r : RxContext) (x y : Nat) : RxContext :=
  { r with elapsed := 0, found := true, pending := false, sampleHigh := x, sampleLow := y, prevLevel := .high }

/-- A receiver right after a falling edge, with a HIGH sample pending. -/
def fallen (r : RxContext) (x y : Nat) : RxContext :=
  { r with elapsed := 0, found := true, pending := true, sampleHigh := x, sampleLow := y, prevLevel := .low }

/-- A receiver on a `LOW` line whose edge tracker a time-out has cleared. -/
def rested (r : RxContext) : RxContext := { clearTracker r with prevLevel := .low }

/-- A stored bit neither reads nor writes the edge tracker (R203). -/
theorem storeBit_setTracker (c : Cfg) (r : RxContext) (b : Bool) (e x y : Nat) (f p : Bool) (l : Level) :
    storeBit c { r with elapsed := e, found := f, pending := p, sampleHigh := x, sampleLow := y, prevLevel := l } b =
      { storeBit c r b with
        elapsed := e, found := f, pending := p, sampleHigh := x, sampleLow := y, prevLevel := l } := by
  unfold storeBit
  split <;> rfl

theorem storeBit_risen (c : Cfg) (r : RxContext) (x y : Nat) (b : Bool) :
    storeBit c (risen r x y) b = risen (storeBit c r b) x y := storeBit_setTracker c r b 0 x y true false .high

theorem storeBit_rested (c : Cfg) (r : RxContext) (b : Bool) : storeBit c (rested r) b = rested (storeBit c r b) :=
  storeBit_setTracker c r b 0 0 0 false false .low

/-! ### A half -/

/-- The rest of a HIGH half of `k` ticks after its first, up to the falling edge. -/
def upToFall (k : Nat) : List Level := List.replicate (k - 1) .high ++ [Level.low]

/-- The rest of a LOW half of `k` ticks after its first, up to the rising edge. -/
def upToRise (k : Nat) : List Level := List.replicate (k - 1) .low ++ [Level.high]

/-- On a line that keeps its level the elapsed time grows, until the time-out (R196). -/
theorem rxAfter_steady (ht : tracks r = true) {k : Nat} (he : r.elapsed + k * c.tick < c.elapsedMax) :
    rxAfter c (List.replicate k r.prevLevel) r = { r with elapsed := r.elapsed + k * c.tick } := by
  induction k generalizing r with
  | zero => simp [rxAfter]
  | succ k ih =>
    rw [Nat.succ_mul] at he
    have htick : rxTick c r.prevLevel r = { r with elapsed := r.elapsed + c.tick } :=
      (rxTick_early ht (by omega)).trans (detect_same rfl)
    rw [List.replicate_succ, rxAfter, htick]
    refine (ih (r := { r with elapsed := r.elapsed + c.tick }) ht (by dsimp only; omega)).trans ?_
    simp [Nat.succ_mul, Nat.add_assoc, Nat.add_comm c.tick]

/-- From an edge on, the elapsed time is the time since the edge (R198). -/
theorem rxAfter_fromEdge (ht : tracks r = true) (h0 : r.elapsed = 0) {lvl : Level} (hl : r.prevLevel = lvl) {k : Nat}
    (he : k * c.tick < c.elapsedMax) : rxAfter c (List.replicate k lvl) r = { r with elapsed := k * c.tick } := by
  rw [← hl, rxAfter_steady ht (by omega), h0, Nat.zero_add]

theorem rxTick_falling (ht : tracks r = true) (he : r.elapsed + c.tick < c.elapsedMax) (hf : r.found = true)
    (hl : r.prevLevel = .high) :
    rxTick c .low r = { r with prevLevel := .low, sampleHigh := r.elapsed + c.tick, elapsed := 0, pending := true } :=
  (rxTick_early ht he).trans (detect_falling (r := { r with elapsed := r.elapsed + c.tick }) (by simp [hl]) hf rfl)

/-- A HIGH half, up to the falling edge that measures it (R198). -/
theorem rxAfter_highHalf (hl : r.phase = .listening) {k : Nat} (hk : 1 ≤ k) (he : k * c.tick < c.elapsedMax)
    (x y : Nat) : rxAfter c (upToFall k) (risen r x y) = fallen r (k * c.tick) y := by
  obtain ⟨j, rfl⟩ := Nat.exists_eq_add_of_le' hk
  rw [Nat.succ_mul] at he ⊢
  have ht : tracks (risen r x y) = true := (tracks_iff _).2 (.inl hl)
  rw [upToFall, Nat.add_sub_cancel, rxAfter_append, rxAfter_fromEdge (r := risen r x y) (lvl := .high) ht rfl rfl
    (by omega)]
  exact rxTick_falling (r := { risen r x y with elapsed := j * c.tick }) ht he rfl rfl

/-- A LOW half, up to the rising edge that completes the pair (R198). -/
theorem rxAfter_lowHalf (hl : r.phase = .listening) {k : Nat} (hk : 1 ≤ k) (he : k * c.tick < c.elapsedMax)
    (x y : Nat) : rxAfter c (upToRise k) (fallen r x y) = classifyPair c (risen r x (k * c.tick)) := by
  obtain ⟨j, rfl⟩ := Nat.exists_eq_add_of_le' hk
  rw [Nat.succ_mul] at he ⊢
  have ht : tracks (fallen r x y) = true := (tracks_iff _).2 (.inl hl)
  rw [upToRise, Nat.add_sub_cancel, rxAfter_append, rxAfter_fromEdge (r := fallen r x y) (lvl := .low) ht rfl rfl
    (by omega)]
  exact rxTick_pair (r := { fallen r x y with elapsed := j * c.tick }) ht he rfl rfl rfl

/-! ### A symbol -/

/-- A symbol after its first tick, up to the first tick of the next one: what a receiver has seen of it when it
classifies it (R198). -/
def heardWave (n : Nat × Nat) : List Level := upToFall n.1 ++ upToRise n.2

theorem symbolWave_append_high {n : Nat × Nat} (h : 1 ≤ n.1 ∧ 1 ≤ n.2) :
    symbolWave n ++ [Level.high] = Level.high :: heardWave n := by
  obtain ⟨⟨j, hj⟩, k, hk⟩ := And.intro (Nat.exists_eq_add_of_le' h.1) (Nat.exists_eq_add_of_le' h.2)
  simp [symbolWave, heardWave, upToFall, upToRise, hj, hk, List.replicate_succ]

/-- Symbols in a row, cut one tick later than they begin: after their rising edges. -/
theorem flatMap_symbolWave_append_high {ns : List (Nat × Nat)} (h : ∀ n ∈ ns, 1 ≤ n.1 ∧ 1 ≤ n.2) :
    ns.flatMap symbolWave ++ [Level.high] = Level.high :: ns.flatMap heardWave := by
  induction ns with
  | nil => rfl
  | cons n ns ih =>
    rw [List.forall_mem_cons] at h
    rw [List.flatMap_cons, List.append_assoc, ih h.2, List.append_cons, symbolWave_append_high h.1]
    rfl

/-- A symbol is classified by the lengths of its halves (R201). -/
theorem rxAfter_heardWave (hl : r.phase = .listening) {high low : Nat} (hn : Measured c high low n) (x y : Nat) :
    rxAfter c (heardWave n) (risen r x y) = classifyPair c (risen r (n.1 * c.tick) (n.2 * c.tick)) := by
  rw [heardWave, rxAfter_append, rxAfter_highHalf hl hn.present.1 hn.inTime.1,
    rxAfter_lowHalf hl hn.present.2 hn.inTime.2]

/-- A measured START begins a frame (R201). -/
theorem rxAfter_start (hl : r.phase = .listening) (hn : Measured c r.profile.startHigh r.profile.startLow n)
    (x y : Nat) : rxAfter c (heardWave n) (risen r x y) = risen (beginFrame r) (n.1 * c.tick) (n.2 * c.tick) := by
  rw [rxAfter_heardWave hl hn, classifyPair_start hn.near]
  rfl

/-- A measured bit is stored (R201, R203). -/
theorem rxAfter_bit (hl : r.phase = .listening) (hn : MeasuredBit c r.profile b n) (x y : Nat) :
    rxAfter c (heardWave n) (risen r x y) = risen (storeBit c r b) (n.1 * c.tick) (n.2 * c.tick) := by
  rw [rxAfter_heardWave hl hn.halves, ← storeBit_risen]
  cases b with
  | true => exact classifyPair_one hn.notStart hn.halves.near
  | false => exact classifyPair_zero hn.notStart (hn.notOne rfl) hn.halves.near

/-! ### Symbols in a row -/

/-- A receiver that is `Listening` after bits were stored was so before: `ErrorOverflow` is not left (R203). -/
theorem listening_of_storeBits {bits : List Bool} (h : (storeBits c r bits).phase = .listening) :
    r.phase = .listening := by
  induction bits generalizing r with
  | nil => exact h
  | cons b bits ih =>
    have hb : (storeBit c r b).phase = .listening := ih h
    obtain ⟨_, _, _, _, ho, hph | hph⟩ := storeBit_frame c r b
    · rw [← hph, ← hb, ho]
    · simp [ho, hph] at hb

theorem storeBit_profile (c : Cfg) (r : RxContext) (b : Bool) : (storeBit c r b).profile = r.profile := by
  obtain ⟨_, _, _, _, ho, -⟩ := storeBit_frame c r b
  rw [ho]

theorem storeBits_profile (c : Cfg) (r : RxContext) (bits : List Bool) :
    (storeBits c r bits).profile = r.profile := by
  induction bits generalizing r with
  | nil => rfl
  | cons b bits ih => exact (ih _).trans (storeBit_profile c r b)

/-- Measured bits are stored one after the other. -/
theorem rxAfter_bits {bits : List Bool} {ns : List (Nat × Nat)} (hn : List.Forall₂ (MeasuredBit c p) bits ns)
    (hp : r.profile = p) (hl : (storeBits c r bits).phase = .listening) (x y : Nat) :
    ∃ x' y', rxAfter c (ns.flatMap heardWave) (risen r x y) = risen (storeBits c r bits) x' y' := by
  induction hn generalizing r x y with
  | nil => exact ⟨x, y, rfl⟩
  | cons hb _ ih =>
    subst hp
    rw [List.flatMap_cons, rxAfter_append, rxAfter_bit (listening_of_storeBits (bits := _ :: _) hl) hb]
    exact ih (storeBit_profile c r _) hl _ _

/-! ### The quiet line after a frame -/

/-- The time-out after a bit's HIGH half stores the bit and validates (R197). -/
theorem timeout_lastBit (hl : (storeBit c r b).phase = .listening) (hn : MeasuredBit c r.profile b n)
    (hlast : b = false → c.deviation < absDiff (n.1 * c.tick) r.profile.high) (e y : Nat) :
    timeout c { fallen r (n.1 * c.tick) y with elapsed := e } = validateIfListening c (rested (storeBit c r b)) := by
  set q : RxContext := { fallen r (n.1 * c.tick) y with elapsed := e }
  have hnear := hn.halves.near.1
  have hlone : classifyLone c q = storeBit c q b := by
    cases b with
    | true => exact classifyLone_one (r := q) hnear
    | false => exact classifyLone_zero (r := q) (Nat.not_le.2 (hlast rfl)) hnear
  rw [timeout_pending (r := q) rfl, hlone, clearTracker_validateIfListening, clearTracker_storeBit, ← storeBit_rested]
  rfl

/-- A time-out is due after `timeoutTicks` ticks and not before (R331). -/
theorem timeoutTicks_spec (ht : 1 ≤ c.tick) (he : 1 ≤ c.elapsedMax) :
    ∃ k, timeoutTicks c = k + 1 ∧ k * c.tick < c.elapsedMax ∧ c.elapsedMax ≤ k * c.tick + c.tick := by
  have hpos : 1 ≤ timeoutTicks c := (Nat.le_div_iff_mul_le ht).2 (by omega)
  obtain ⟨k, hk⟩ := Nat.exists_eq_add_of_le' hpos
  have hlower := (Nat.le_div_iff_mul_le (x := k + 1) (y := c.elapsedMax + c.tick - 1) ht).1 hk.ge
  have hupper := (Nat.div_lt_iff_lt_mul (x := c.elapsedMax + c.tick - 1) (y := k + 2) ht).1 (by
    show timeoutTicks c < _; omega)
  rw [Nat.succ_mul] at hlower
  rw [Nat.succ_mul, Nat.succ_mul] at hupper
  exact ⟨k, hk, by omega, by omega⟩

/-- On a quiet line a receiver with nothing pending changes its edge tracker only (R197). -/
theorem rxTick_quiet (ht : tracks r = true) (hp : r.pending = false) (hl : r.prevLevel = .low) :
    rxTick c .low r = { r with elapsed := r.elapsed + c.tick } ∨ rxTick c .low r = clearTracker r := by
  rcases Nat.lt_or_ge (r.elapsed + c.tick) c.elapsedMax with he | he
  · exact .inl ((rxTick_early ht he).trans (detect_same hl.symm))
  · have hout : timeout c { r with elapsed := r.elapsed + c.tick } = clearTracker r := timeout_idle hp
    rw [rxTick_due ht he, hout, if_pos (show tracks (clearTracker r) = true from ht)]
    exact .inr (detect_same hl.symm)

theorem rxAfter_quiet (ht : tracks r = true) (hp : r.pending = false) (hl : r.prevLevel = .low) (k : Nat) :
    clearTracker (rxAfter c (List.replicate k Level.low) r) = clearTracker r := by
  induction k generalizing r with
  | zero => rfl
  | succ k ih =>
    rw [List.replicate_succ, rxAfter]
    rcases rxTick_quiet (c := c) ht hp hl with htick | htick <;> rw [htick]
    · exact ih (r := { r with elapsed := r.elapsed + c.tick }) ht hp hl
    · exact ih (r := clearTracker r) ht rfl hl

/-- A validation leaves the receiver where a quiet line changes nothing more of it (R123). -/
theorem validateIfListening_rested (hl : r.phase = .listening) :
    tracks (validateIfListening c (rested r)) = true ∧ (validateIfListening c (rested r)).pending = false ∧
      (validateIfListening c (rested r)).prevLevel = .low := by
  cases hok : frameOk c (rested r) with
  | true => rw [validateIfListening_ok (r := rested r) hl hok]; exact ⟨rfl, rfl, rfl⟩
  | false => rw [validateIfListening_bad (r := rested r) hl hok]; exact ⟨rfl, rfl, rfl⟩

/-- The last bit of a frame, on a line that stays `LOW` for the time-out, is stored and the frame validated (R197). -/
theorem rxAfter_lastBit (ht : 1 ≤ c.tick) (he : 1 ≤ c.elapsedMax) (hl : (storeBit c r b).phase = .listening)
    (hn : MeasuredBit c r.profile b n) (hlast : b = false → c.deviation < absDiff (n.1 * c.tick) r.profile.high)
    {quiet : Nat} (hquiet : timeoutTicks c ≤ quiet) (x y : Nat) :
    clearTracker (rxAfter c (upToFall n.1 ++ List.replicate quiet Level.low) (risen r x y)) =
      validateIfListening c (rested (storeBit c r b)) := by
  obtain ⟨k, hk, hbefore, hdue⟩ := timeoutTicks_spec ht he
  obtain ⟨rest, rfl⟩ := Nat.exists_eq_add_of_le (hk ▸ hquiet)
  have hlisten : r.phase = .listening := listening_of_storeBits (bits := [b]) hl
  have htracks : tracks (fallen r (n.1 * c.tick) y) = true := (tracks_iff _).2 (.inl hlisten)
  obtain ⟨htracks', hpending, hlow⟩ := validateIfListening_rested (c := c) hl
  have htick : rxTick c .low { fallen r (n.1 * c.tick) y with elapsed := k * c.tick } =
      validateIfListening c (rested (storeBit c r b)) := by
    rw [rxTick_due (r := { fallen r (n.1 * c.tick) y with elapsed := k * c.tick }) htracks hdue]
    have hout := timeout_lastBit hl hn hlast (k * c.tick + c.tick) y
    rw [hout, if_pos htracks', detect_same hlow.symm]
  rw [List.replicate_add, List.replicate_succ', rxAfter_append, rxAfter_append, rxAfter_append,
    rxAfter_highHalf hlisten hn.halves.present.1 hn.halves.inTime.1,
    rxAfter_fromEdge (r := fallen r (n.1 * c.tick) y) (lvl := .low) htracks rfl rfl hbefore, rxAfter, rxAfter, htick,
    rxAfter_quiet htracks' hpending hlow, clearTracker_validateIfListening]
  rfl

/-- The first tick of a frame is a rising edge with nothing pending, whether or not a time-out is due (R198). -/
theorem Waiting.rises (hw : Waiting r) : ∃ x y, rxTick c .high r = risen r x y := by
  have ht : tracks r = true := (tracks_iff r).2 (.inl hw.phase)
  have hedge : Level.high ≠ r.prevLevel := by simp [hw.prevLevel]
  rcases Nat.lt_or_ge (r.elapsed + c.tick) c.elapsedMax with he | he
  · refine ⟨r.sampleHigh, r.sampleLow, ?_⟩
    rw [rxTick_early ht he, detect_first (r := { r with elapsed := r.elapsed + c.tick }) hedge hw.found, risen,
      ← hw.pending]
  · have hout : timeout c { r with elapsed := r.elapsed + c.tick } = clearTracker r := timeout_idle hw.pending
    refine ⟨0, 0, ?_⟩
    rw [rxTick_due ht he, hout, if_pos (show tracks (clearTracker r) = true from ht)]
    exact detect_first (r := clearTracker r) hedge rfl

/-! ### A whole frame -/

/-- A list related to one with a last element has a last element itself. -/
theorem exists_concat_of_forall₂_concat {α β : Type} {R : α → β → Prop} {l : List α} {front : List β}
    {last : β} (h : List.Forall₂ R l (front ++ [last])) :
    ∃ init x, l = init ++ [x] ∧ List.Forall₂ R init front ∧ R x last := by
  have hlast := List.forall₂_drop_append _ _ _ h
  rw [List.forall₂_cons_right_iff] at hlast
  obtain ⟨x, rest, hx, hrest, hdrop⟩ := hlast
  rw [List.forall₂_nil_right_iff.1 hrest] at hdrop
  exact ⟨_, x, by rw [← hdrop, List.take_append_drop], List.forall₂_take_append _ _ _ h, hx⟩

theorem present_of_measured {bits : List Bool} {ns : List (Nat × Nat)} (h : List.Forall₂ (MeasuredBit c p) bits ns) :
    ∀ n ∈ ns, 1 ≤ n.1 ∧ 1 ≤ n.2 := by
  induction h with
  | nil => simp
  | cons hb _ ih => exact List.forall_mem_cons.2 ⟨hb.halves.present, ih⟩

/-- The levels of a frame and of the quiet line after it, cut at the rising edges. -/
theorem frame_levels {ns : List (Nat × Nat)} {last : Nat × Nat} (hns : ∀ n ∈ ns, 1 ≤ n.1 ∧ 1 ≤ n.2)
    (hlast : 1 ≤ last.1 ∧ 1 ≤ last.2) (quiet : Nat) :
    (ns ++ [last]).flatMap symbolWave ++ List.replicate quiet Level.low =
      Level.high :: (ns.flatMap heardWave ++
        (upToFall last.1 ++ List.replicate (last.2 - 1 + quiet) Level.low)) := by
  obtain ⟨⟨j, hj⟩, k, hk⟩ := And.intro (Nat.exists_eq_add_of_le' hlast.1) (Nat.exists_eq_add_of_le' hlast.2)
  have hsymbol : symbolWave last ++ List.replicate quiet Level.low =
      [Level.high] ++ (upToFall last.1 ++ List.replicate (last.2 - 1 + quiet) Level.low) := by
    simp [symbolWave, upToFall, hj, hk, List.replicate_succ]
  rw [List.flatMap_append, List.flatMap_singleton, List.append_assoc, hsymbol, ← List.append_assoc,
    flatMap_symbolWave_append_high hns, List.cons_append]

/-- A `Listening` receiver after a whole frame and a quiet line: all bits stored, the frame validated (R204). -/
theorem Waiting.rxAfter_frame {bits : List Bool} {start last : Nat × Nat} {symbols : List (Nat × Nat)} {quiet : Nat}
    (hw : Waiting r) (ht : 1 ≤ c.tick) (he : 1 ≤ c.elapsedMax) (hquiet : timeoutTicks c ≤ quiet)
    (hstart : Measured c r.profile.startHigh r.profile.startLow start)
    (hbits : List.Forall₂ (MeasuredBit c r.profile) bits (symbols ++ [last]))
    (hlast : bits.getLast? = some false → c.deviation < absDiff (last.1 * c.tick) r.profile.high)
    (hl : (storeBits c (beginFrame r) bits).phase = .listening) :
    clearTracker (rxAfter c ((start :: symbols ++ [last]).flatMap symbolWave ++ List.replicate quiet Level.low) r) =
      validateIfListening c (rested (storeBits c (beginFrame r) bits)) := by
  obtain ⟨init, b, rfl, hinit, hb⟩ := exists_concat_of_forall₂_concat hbits
  rw [storeBits_append, storeBits_singleton] at hl ⊢
  obtain ⟨x, y, hfirst⟩ := hw.rises (c := c)
  obtain ⟨x', y', hrow⟩ := rxAfter_bits (r := beginFrame r) hinit rfl (listening_of_storeBits (bits := [b]) hl)
    (start.1 * c.tick) (start.2 * c.tick)
  have hprofile : (storeBits c (beginFrame r) init).profile = r.profile := storeBits_profile c _ init
  rw [frame_levels (List.forall_mem_cons.2 ⟨hstart.present, present_of_measured hinit⟩) hb.halves.present,
    rxAfter, hfirst, List.flatMap_cons, rxAfter_append, rxAfter_append (ls := heardWave start),
    rxAfter_start hw.phase hstart, hrow]
  rw [← hprofile] at hb hlast
  exact rxAfter_lastBit ht he hl hb (fun hzero => hlast (by simp [hzero])) (Nat.le_add_left_of_le hquiet) x' y'

/-- A validation keeps a frame for this receiver and discards anything else (R122, R123). -/
theorem validateIfListening_outcome (hc : validCfg c) (hl : r.phase = .listening) (hfits : r.bufLen ≤ c.bufCap)
    {bytes : List Byte} (hbytes : bufSlice c r.buf 0 r.bufLen = bytes) :
    let q := validateIfListening c r
    let ours := ∃ payload : List Byte, payload.length ≤ c.maxPayload ∧ bytes = frameBytes r.address r.channel payload
    q.buf = r.buf ∧ (ours → q.phase = .messageReady ∧ q.bufLen = r.bufLen) ∧
      (¬ours → q.phase = .listening ∧ q.bufLen = 0 ∧ q.bitCursor = 7) := by
  subst hbytes
  dsimp only
  rw [← (frameCheckAcceptsExactlyFrames c r hc hfits).1]
  cases hok : frameOk c r with
  | true =>
    rw [validateIfListening_ok hl hok]
    exact ⟨rfl, fun _ => ⟨rfl, rfl⟩, fun hn => absurd rfl hn⟩
  | false =>
    rw [validateIfListening_bad hl hok]
    exact ⟨rfl, fun hn => absurd hn (by decide), fun _ => ⟨rfl, rfl, rfl⟩⟩

end Hearing

/-- Settles O43: the bits stored are the bytes, and the validation after them decides what the receiver keeps. -/
theorem frameReception : Obligations.FrameReception := by
  intro c r bytes start last symbols quiet hc hw _ hcap hquiet hstart hbits hlast
  dsimp only
  obtain ⟨m, hstored, hbytes⟩ := storeBits_fromStart (c := c) (r := beginFrame r) rfl rfl hcap
  have hphase : (beginFrame r).phase = .listening := by simp [beginFrame, hw.phase]
  have hq := hw.rxAfter_frame hc.1 hc.elapsedMax_pos hquiet hstart hbits hlast (by rw [hstored]; exact hphase)
  rw [hstored] at hq
  obtain ⟨hbuf, hours, hother⟩ := validateIfListening_outcome (c := c)
    (r := rested { beginFrame r with buf := m, bitCursor := 7, bufLen := bytes.length }) hc hphase hcap hbytes
  rw [← hq] at hbuf hours hother
  exact ⟨(congrArg (bufSlice c · 0 bytes.length) hbuf).trans hbytes, hours, hother⟩

end Sys2Proof.Machine

/-! # The registries: attach, detach and order (R231 to R239) -/

namespace Sys2Proof.Machine

/-! ## Admission and eviction (R237, R238) -/

/-- Eviction, by where the handle first stands: its slot takes the last entry, and the last slot is dropped (R238). -/
theorem Registry.remove_first (g : Registry) {h : Handle} {before rest : List Handle} (hb : h ∉ before)
    (hl : g.live = before ++ h :: rest) :
    (g.remove h).1.live = (before ++ (h :: rest).getLast (List.cons_ne_nil h rest) :: rest).dropLast ∧
      (g.remove h).2 = 1 := by
  obtain ⟨hi, hf⟩ := g.find_first h hb hl
  have hslot : before.length < g.live.length := by simp [hl]
  obtain ⟨hlive, hfound⟩ := g.remove_live h hslot hf
  refine ⟨?_, hfound⟩
  rw [hlive]
  simp [hl]

/-- Settles O50: the handle stands before the last entry, is the last entry, or is not registered. -/
theorem registryEviction : Obligations.RegistryEviction := by
  refine fun g h => ⟨fun before after last hb hl => ?inside, fun before hb hl => ?last, g.remove_absent h⟩
  case inside => simpa [List.dropLast_cons_of_ne_nil] using g.remove_first hb hl
  case last => simpa using g.remove_first hb hl

/-- Settles O49: the capacity is within the storage, so the slot after the last is there to be written. -/
theorem registryAdmission : Obligations.RegistryAdmission := by
  refine fun cap g h hcap => ⟨fun hroom => ?_, g.add_full h⟩
  rw [g.live_length]
  exact g.add_live h hcap hroom

/-! ## The order of the receivers (R233) -/

/-- Writes of two contexts commute. -/
theorem State.setRx_comm (s : State) {h k : Handle} (hne : h ≠ k) (r q : RxContext) :
    (s.setRx h r).setRx k q = (s.setRx k q).setRx h r := by
  have hslot : h.toNat ≠ k.toNat := fun e => hne (BitVec.eq_of_toNat_eq e)
  simp only [State.setRx, Vector.set_comm _ _ hslot]

/-- A receiver's advance reads its own context and a line, and writes its own context only, so two advances commute
(R233). -/
theorem rxAdvance_comm (s : State) (h k : Handle) : rxAdvance (rxAdvance s h) k = rxAdvance (rxAdvance s k) h := by
  rcases eq_or_ne h k with rfl | hne
  · rfl
  · have hk : (rxAdvance s h).rxAt k = s.rxAt k := by rw [rxAdvance_rxAt, if_neg hne.symm]
    have hh : (rxAdvance s k).rxAt h = s.rxAt h := by rw [rxAdvance_rxAt, if_neg hne]
    rw [rxAdvance_eq (rxAdvance s h), rxAdvance_eq (rxAdvance s k), hk, hh]
    exact s.setRx_comm hne _ _

/-- The state with other receivers registered, or the same in another order. -/
def State.withRxReg (s : State) (g : Registry) : State := { s with rxReg := g }

/-! No advance reads the receiver registry. -/

theorem State.withRxReg_pinWrites (s : State) (g : Registry) (p : Pin) (levels : List Level) :
    (s.withRxReg g).pinWrites p levels = (s.pinWrites p levels).withRxReg g := by
  induction levels generalizing s with
  | nil => rfl
  | cons v levels ih => exact ih (s.pinWrite p v)

theorem txAdvance_withRxReg (s : State) (g : Registry) (h : Handle) :
    txAdvance (s.withRxReg g) h = (txAdvance s h).withRxReg g :=
  (s.setTx h (txTick s.cfg (s.txAt h)).1).withRxReg_pinWrites g _ _

theorem advanceTransmitters_withRxReg (s : State) (g : Registry) :
    advanceTransmitters (s.withRxReg g) = (advanceTransmitters s).withRxReg g :=
  List.foldl_hom (State.withRxReg · g) fun u h => txAdvance_withRxReg u g h

/-- The transmitters of a pass leave the receiver registry as it is. -/
theorem advanceTransmitters_rxReg (s : State) : (advanceTransmitters s).rxReg = s.rxReg := by
  obtain ⟨-, -, -, hreg, -⟩ := foldl_txAdvance_frame s s.txReg.live
  exact hreg

/-- A pass over the same receivers in another order (R233). -/
theorem advanceReceivers_perm (s : State) {g : Registry} (hg : g.live.Perm s.rxReg.live) :
    advanceReceivers (s.withRxReg g) = (advanceReceivers s).withRxReg g :=
  calc advanceReceivers (s.withRxReg g)
    _ = (g.live.foldl rxAdvance s).withRxReg g := List.foldl_hom (State.withRxReg · g) fun _ _ => rfl
    _ = (advanceReceivers s).withRxReg g := by
      rw [advanceReceivers, hg.foldl_eq' fun h _ k _ u => rxAdvance_comm u h k]

theorem dispatchPass_perm (s : State) {g : Registry} (hg : g.live.Perm s.rxReg.live) :
    dispatchPass (s.withRxReg g) = (dispatchPass s).withRxReg g := by
  rw [dispatchPass, advanceTransmitters_withRxReg]
  exact advanceReceivers_perm _ (by rwa [advanceTransmitters_rxReg])

/-- Settles O54: the advances of two receivers commute, so the order in a pass makes no difference. -/
theorem receiverOrderUnobservable : Obligations.ReceiverOrderUnobservable := by
  intro s g _ hg
  rcases Bool.eq_false_or_eq_true s.tickRunning with hr | hr
  · have hpass := dispatchPass_perm s.quiet hg
    exact ⟨_, exec_tick_running hr, (exec_tick_running (s := s.withRxReg g) hr).trans (congrArg _ hpass)⟩
  · exact ⟨_, execTick_stopped s hr, execTick_stopped (s.withRxReg g) hr⟩

/-! ## The attach and detach commands (R231, R232, R235, R236) -/

/-! The rows of the opcode map (R101). -/

theorem encodes_txAttach : Encodes 0x10 fun w => .txAttach (handleField w) (lowA w) :=
  fun w hop => by simp [decode, hop]

theorem encodes_txDetach : Encodes 0x11 fun w => .txDetach (handleField w) :=
  fun w hop => by simp [decode, hop]

theorem encodes_rxAttach : Encodes 0x20 fun w => .rxAttach (handleField w) (lowA w) (lowB w) :=
  fun w hop => by simp [decode, hop]

theorem encodes_rxDetach : Encodes 0x21 fun w => .rxDetach (handleField w) :=
  fun w hop => by simp [decode, hop]

/-! The arms of the dispatcher (R101). -/

section Arms

variable (h : Handle) (pin : Pin) (s : State)

theorem exec_txAttach : exec (.txAttach h pin) s = execTxAttach h pin s := rfl
theorem exec_txDetach : exec (.txDetach h) s = execTxDetach h s := rfl
theorem exec_rxAttach (address : Byte) : exec (.rxAttach h pin address) s = execRxAttach h pin address s := rfl
theorem exec_rxDetach : exec (.rxDetach h) s = execRxDetach h s := rfl

end Arms

/-! ### Attach -/

/-- The phase in which a profile rests a transmitter, by its gap (R131, R132). -/
theorem restTx_eq (c : Cfg) (p : Profile) :
    restTx c p = if 2 * c.deviation ≤ absDiff p.high p.low then .idle else .errorDefinitions :=
  if_congr (separated_iff c p) rfl rfl

/-- The phase in which a profile rests a receiver, by its gap (R131, R132). -/
theorem restRx_eq (c : Cfg) (p : Profile) :
    restRx c p = if 2 * c.deviation ≤ absDiff p.high p.low then .idle else .errorDefinitions :=
  if_congr (separated_iff c p) rfl rfl

/-- The checks of `TX_ATTACH` in their order, admission last (R231). -/
theorem execTxAttach_eq (h : Handle) (pin : Pin) (s : State) :
    execTxAttach h pin s =
      if s.cfg.nTxCtx ≤ h.toNat then .next (s.replied .notInitialized 0 [] [])
      else if (s.txAt h).life ≠ .free then .next (s.replied .rejected 0 [] [])
      else if (s.txReg.add s.cfg.maxTransmitters h).2 = 0 then
        .next ((s.setTx h { attachedTx s.cfg pin with life := .inert }).replied .rejected 0 [] [])
      else
        .next (((({ s with txReg := (s.txReg.add s.cfg.maxTransmitters h).1 }).setTx h
          { attachedTx s.cfg pin with life := .active }).setLine pin .low).replied .ok
            (s.txReg.add s.cfg.maxTransmitters h).2 [] [.pinConfigure pin .output, .pinWrite pin .low]) := rfl

/-- The checks of `RX_ATTACH` in their order, admission last (R235). -/
theorem execRxAttach_eq (h : Handle) (pin : Pin) (address : Byte) (s : State) :
    execRxAttach h pin address s =
      if s.cfg.nRxCtx ≤ h.toNat then .next (s.replied .notInitialized 0 [] [])
      else if (s.rxAt h).life ≠ .free then .next (s.replied .rejected 0 [] [])
      else if keptNibble address = 0 then .next (s.replied .invalidAddress 0 [] [])
      else if (s.rxReg.add s.cfg.maxReceivers h).2 = 0 then
        .next ((s.setRx h { attachedRx s.cfg pin (keptNibble address) with life := .inert }).replied .rejected 0 [] [])
      else
        .next ((({ s with rxReg := (s.rxReg.add s.cfg.maxReceivers h).1 }).setRx h
          { attachedRx s.cfg pin (keptNibble address) with life := .active }).replied .ok
            (s.rxReg.add s.cfg.maxReceivers h).2 [] [.pinConfigure pin .input]) := rfl

/-- A registry with room takes the handle after the last one and answers the new count (R237). -/
theorem Registry.add_room (g : Registry) (h : Handle) {cap : Nat} (hcap : cap ≤ Config.registrySlots)
    (hroom : g.count.val < cap) :
    (g.add cap h).1.count.val = g.count.val + 1 ∧ (g.add cap h).1.live = g.live ++ [h] ∧
      (g.add cap h).2 = g.count.val + 1 := by
  obtain ⟨hlive, hcount⟩ := g.add_live h hcap hroom
  refine ⟨?_, hlive, hcount⟩
  rw [← Registry.live_length, hlive, List.length_append, g.live_length, List.length_singleton]

/-! ### Detach -/

/-- The stop and the release of a transmitter are one write of its context, and the eviction between them writes the
registry only (R152, R232). -/
theorem txStop_release (h : Handle) (s : State) (g : Registry) :
    ({ txStop h s with txReg := g }).setTx h { (txStop h s).txAt h with life := .free } =
      (({ s with txReg := g }).setTx h { s.txAt h with
          life := .free
          phase := stoppedTxPhase (s.txAt h).phase }).pinWrite (s.txAt h).pin .low := by
  have hstop : (txStop h s).txAt h = { s.txAt h with phase := stoppedTxPhase (s.txAt h).phase } := s.setTx_txAt_self h _
  rw [hstop]
  exact congrArg (fun u => ({ u with txReg := g }).pinWrite (s.txAt h).pin .low) (State.setTx_setTx _ _)

/-- As for a transmitter, with no line written (R189, R236). -/
theorem rxStop_release (h : Handle) (s : State) (g : Registry) :
    ({ rxStop h s with rxReg := g }).setRx h { (rxStop h s).rxAt h with life := .free } =
      ({ s with rxReg := g }).setRx h { s.rxAt h with
          life := .free
          phase := stoppedRxPhase (s.rxAt h).phase } := by
  have hstop : (rxStop h s).rxAt h = { s.rxAt h with phase := stoppedRxPhase (s.rxAt h).phase } := s.setRx_rxAt_self h _
  rw [hstop]
  exact congrArg (fun u => { u with rxReg := g }) (State.setRx_setRx _ _)

/-- The branches of `TX_DETACH` (R232). -/
theorem execTxDetach_eq (h : Handle) (s : State) :
    execTxDetach h s =
      if s.cfg.nTxCtx ≤ h.toNat ∨ (s.txAt h).life = .free then .next (s.replied .notInitialized 0 [] [])
      else if (s.txAt h).life = .active then
        .next (((({ s with txReg := (s.txReg.remove h).1 }).setTx h { s.txAt h with
            life := .free
            phase := stoppedTxPhase (s.txAt h).phase }).setLine (s.txAt h).pin .low).replied
          .ok (s.txReg.remove h).2 [] [.pinWrite (s.txAt h).pin .low])
      else .next ((s.setTx h { s.txAt h with life := .free }).replied .ok 0 [] []) :=
  if_congr Iff.rfl rfl <| if_congr Iff.rfl
    (congrArg (answer · .ok (s.txReg.remove h).2) (txStop_release h s.quiet (s.txReg.remove h).1)) rfl

/-- The branches of `RX_DETACH` (R236). -/
theorem execRxDetach_eq (h : Handle) (s : State) :
    execRxDetach h s =
      if s.cfg.nRxCtx ≤ h.toNat ∨ (s.rxAt h).life = .free then .next (s.replied .notInitialized 0 [] [])
      else if (s.rxAt h).life = .active then
        .next ((({ s with rxReg := (s.rxReg.remove h).1 }).setRx h { s.rxAt h with
            life := .free
            phase := stoppedRxPhase (s.rxAt h).phase }).replied .ok (s.rxReg.remove h).2 [] [])
      else .next ((s.setRx h { s.rxAt h with life := .free }).replied .ok 0 [] []) :=
  if_congr Iff.rfl rfl <| if_congr Iff.rfl
    (congrArg (answer · .ok (s.rxReg.remove h).2) (rxStop_release h s.quiet (s.rxReg.remove h).1)) rfl

/-! ### The statements -/

/-- Settles O45: the checks one by one; the answer of the admission tells which result it has. -/
theorem txAttachRule : Obligations.TxAttachRule := by
  refine ⟨encodes_txAttach, fun h pin s => ?_⟩
  dsimp only
  simp only [exec_txAttach, execTxAttach_eq, attachedTx, restTx_eq]
  refine ⟨fun hexists => ?missing, fun hexists hused => ?used, fun hexists hfree hfull => ?full,
    fun hc hexists hfree hroom => ?room⟩
  case missing => exact if_pos hexists
  case used => rw [if_neg (Nat.not_le.2 hexists), if_pos hused]
  case full =>
    rw [if_neg (Nat.not_le.2 hexists), if_neg (not_not.2 hfree), s.txReg.add_full h hfull, if_pos rfl]
    rfl
  case room =>
    obtain ⟨hcount, hlive, hanswer⟩ := s.txReg.add_room h hc.registries.1 hroom
    refine ⟨_, hcount, hlive, ?_⟩
    rw [if_neg (Nat.not_le.2 hexists), if_neg (not_not.2 hfree), hanswer, if_neg (Nat.succ_ne_zero _)]
    rfl

/-- Settles O46: as O45, with the address nibble tested before the admission. -/
theorem rxAttachRule : Obligations.RxAttachRule := by
  refine ⟨encodes_rxAttach, fun h pin address s => ?_⟩
  dsimp only
  simp only [exec_rxAttach, execRxAttach_eq, attachedRx, restRx_eq, keptNibble_eq]
  refine ⟨fun hexists => ?missing, fun hexists hused => ?used, fun hexists hfree hzero => ?address,
    fun hexists hfree hne hfull => ?full, fun hc hexists hfree hne hroom => ?room⟩
  case missing => exact if_pos hexists
  case used => rw [if_neg (Nat.not_le.2 hexists), if_pos hused]
  case address => rw [if_neg (Nat.not_le.2 hexists), if_neg (not_not.2 hfree), if_pos hzero]
  case full =>
    rw [if_neg (Nat.not_le.2 hexists), if_neg (not_not.2 hfree), if_neg hne, s.rxReg.add_full h hfull, if_pos rfl]
    rfl
  case room =>
    obtain ⟨hcount, hlive, hanswer⟩ := s.rxReg.add_room h hc.registries.2 hroom
    refine ⟨_, hcount, hlive, ?_⟩
    rw [if_neg (Nat.not_le.2 hexists), if_neg (not_not.2 hfree), if_neg hne, hanswer, if_neg (Nat.succ_ne_zero _)]
    rfl

/-- Settles O47: the three branches; an `Active` transmitter is in the registry or not, which eviction answers. -/
theorem txDetachRule : Obligations.TxDetachRule := by
  refine ⟨encodes_txDetach, fun h s => ?_⟩
  dsimp only
  rw [exec_txDetach, execTxDetach_eq, ← stoppedTxPhase_eq, ← Registry.remove_found]
  refine ⟨fun hmissing => if_pos hmissing, fun hexists hinert => ?inert, fun ⟨hexists, hactive⟩ => ?active⟩
  case inert => simp [hinert, Nat.not_le.2 hexists]
  case active => simp [hactive, Nat.not_le.2 hexists]

/-- Settles O48: as O47, with the phase that the stop leaves by cases. -/
theorem rxDetachRule : Obligations.RxDetachRule := by
  refine ⟨encodes_rxDetach, fun h s => ?_⟩
  dsimp only
  rw [exec_rxDetach, execRxDetach_eq, ← Registry.remove_found]
  refine ⟨fun hmissing => if_pos hmissing, fun hexists hinert => ?inert, fun ⟨hexists, hactive⟩ => ?active⟩
  case inert => simp [hinert, Nat.not_le.2 hexists]
  case active =>
    rw [if_neg (by simp [hactive, Nat.not_le.2 hexists]), if_pos hactive]
    cases (s.rxAt h).phase <;> rfl

/-! ## What a command leaves alone (R73, R239) -/

/-- From `s` to `t` only the transmitter `a` and the receiver `b` are written, and lines only if `a` is on them. -/
structure WritesOnly (a b : Option Handle) (s t : State) : Prop where
  tx : ∀ k, a ≠ some k → t.txAt k = s.txAt k
  rx : ∀ k, b ≠ some k → t.rxAt k = s.rxAt k
  line : ∀ p, t.lineAt p ≠ s.lineAt p → ∃ k, a = some k ∧ (t.txAt k).pin = p
  payloadPort : t.payloadPort = s.payloadPort
  inputs : t.inputs = s.inputs
  cfg : t.cfg = s.cfg

namespace WritesOnly

variable {a b : Option Handle} {s t u : State} {h : Handle}

theorem refl (s : State) : WritesOnly a b s s :=
  ⟨fun _ _ => rfl, fun _ _ => rfl, fun _ hne => absurd rfl hne, rfl, rfl, rfl⟩

/-- The tick source, the registries and the outputs are written too. -/
theorem congr (hu : WritesOnly a b s u)
    (ht : t = { u with tickRunning := t.tickRunning, txReg := t.txReg, rxReg := t.rxReg, out := t.out }) :
    WritesOnly a b s t := by
  rw [ht]
  exact ⟨hu.tx, hu.rx, hu.line, hu.payloadPort, hu.inputs, hu.cfg⟩

/-- The addressed transmitter is written. -/
theorem setTx (s : State) (x : TxContext) : WritesOnly (some h) b s (s.setTx h x) where
  tx k hk := by rw [State.setTx_txAt, if_neg fun e => hk (congrArg some e.symm)]
  rx _ _ := rfl
  line _ hne := absurd rfl hne
  payloadPort := rfl
  inputs := rfl
  cfg := rfl

/-- The addressed transmitter is written, and then the line it is on. -/
theorem setTx_setLine (s : State) (x : TxContext) (v : Level) :
    WritesOnly (some h) b s ((s.setTx h x).setLine x.pin v) where
  tx := (setTx s x (b := b)).tx
  rx _ _ := rfl
  line p hne := by
    refine ⟨h, rfl, ?_⟩
    rw [State.setLine_txAt, State.setTx_txAt_self]
    by_contra hp
    exact hne ((State.setLine_lineAt _ _ _ _).trans (if_neg (Ne.symm hp)))
  payloadPort := rfl
  inputs := rfl
  cfg := rfl

/-- The addressed receiver is written. -/
theorem setRx (s : State) (x : RxContext) : WritesOnly a (some h) s (s.setRx h x) where
  tx _ _ := rfl
  rx k hk := by rw [State.setRx_rxAt, if_neg fun e => hk (congrArg some e.symm)]
  line _ hne := absurd rfl hne
  payloadPort := rfl
  inputs := rfl
  cfg := rfl

/-! The commands: each ends in one of these writes. -/

theorem answers (status : Status) (value : Nat) : Leaves (WritesOnly a b s) (answer s.quiet status value) :=
  .answer ((refl s).congr rfl)

theorem onTx {body : TxContext → State → Result} (hb : Leaves (WritesOnly a b s) (body (s.txAt h) s.quiet)) :
    Leaves (WritesOnly a b s) (onTx h s body) := .onTx ((refl s).congr rfl) fun _ => hb

theorem onRx {body : RxContext → State → Result} (hb : Leaves (WritesOnly a b s) (body (s.rxAt h) s.quiet)) :
    Leaves (WritesOnly a b s) (onRx h s body) := .onRx ((refl s).congr rfl) fun _ => hb

/-- The tick source started after a write (R251). -/
theorem startTick (hu : WritesOnly a b s u) : WritesOnly a b s u.startTick :=
  hu.congr (by unfold State.startTick; split <;> rfl)

theorem execTxDetach (h : Handle) (s : State) : Leaves (WritesOnly (some h) b s) (execTxDetach h s) := by
  rw [execTxDetach_eq]
  exact .ite (fun _ => .next ((refl s).congr rfl)) fun _ =>
    .ite (fun _ => .next ((setTx_setLine s _ _).congr rfl)) fun _ => .next ((setTx s _).congr rfl)

theorem execRxDetach (h : Handle) (s : State) : Leaves (WritesOnly a (some h) s) (execRxDetach h s) := by
  rw [execRxDetach_eq]
  exact .ite (fun _ => .next ((refl s).congr rfl)) fun _ =>
    .ite (fun _ => .next ((setRx s _).congr rfl)) fun _ => .next ((setRx s _).congr rfl)

/-- A command leaves alone what it does not address. -/
theorem exec {i : Instr} (hi : i ≠ .tick) (s : State) :
    Leaves (WritesOnly (txTarget i) (rxTarget i) s) (exec i s) := by
  unfold Machine.exec
  cases i with
  | tick => exact absurd rfl hi
  | txAttach =>
    exact .ite (fun _ => answers _ _) fun _ => .ite (fun _ => answers _ _) fun _ =>
      .ite (fun _ => .answer ((setTx s _).congr rfl)) fun _ => .answer ((setTx_setLine s _ _).congr rfl)
  | txDetach h => exact execTxDetach h s
  | txSend =>
    exact onTx <| .ite (fun _ => answers _ _) fun _ => .ite (fun _ => answers _ _) fun _ =>
      .ite (fun _ => answers _ _) fun _ => .ite (fun _ => answers _ _) fun _ =>
        .answer (((setTx s _).congr rfl).startTick.congr rfl)
  | txSetInterval | txSetStart =>
    exact onTx <| .ite (fun _ => .answer ((setTx_setLine s _ _).congr rfl)) fun _ =>
      .answer ((setTx_setLine s _ _).congr rfl)
  | txStop => exact onTx (.answer ((setTx_setLine s _ _).congr rfl))
  | txSetChannel | txSetId => exact onTx (.answer ((setTx s _).congr rfl))
  | txGetState => exact onTx (answers _ _)
  | rxAttach =>
    exact .ite (fun _ => answers _ _) fun _ => .ite (fun _ => answers _ _) fun _ => .ite (fun _ => answers _ _) fun _ =>
      .ite (fun _ => .answer ((setRx s _).congr rfl)) fun _ => .answer ((setRx s _).congr rfl)
  | rxDetach h => exact execRxDetach h s
  | rxListen =>
    exact onRx <| .ite (fun _ => answers _ _) fun _ => .ite (fun _ => answers _ _) fun _ =>
      .ite (fun _ => answers _ _) fun _ => .answer (((setRx s _).congr rfl).startTick.congr rfl)
  | rxSetInterval | rxSetStart =>
    exact onRx <| .ite (fun _ => .answer ((setRx s _).congr rfl)) fun _ => .answer ((setRx s _).congr rfl)
  | rxStop | rxReset | rxSetChannel => exact onRx (.answer ((setRx s _).congr rfl))
  | rxGetState => exact onRx (answers _ _)
  | rxGetMessage => exact onRx (.ite (fun _ => .next ((refl s).congr rfl)) fun _ => answers _ _)
  | rxGetMessageLength => exact onRx (.ite (fun _ => answers _ _) fun _ => answers _ _)
  | rxClearBuffer => exact onRx (.ite (fun _ => .answer ((setRx s _).congr rfl)) fun _ => answers _ _)

end WritesOnly

/-- Settles O59, by the branches of each command: each writes at most the context it addresses and the line of that
transmitter. -/
theorem commandTouchesOnlyItsContext : Obligations.CommandTouchesOnlyItsContext := by
  intro i s t hi ht
  obtain ⟨htx, hrx, hline, hport, hinputs, hcfg⟩ := WritesOnly.exec hi s t ht
  exact ⟨htx, hrx, hline, hport, hinputs, hcfg⟩

end Sys2Proof.Machine

/-! # The scheduler: ticks and the tick source (R251 to R256) -/

namespace Sys2Proof.Machine

/-! ## The tick (R252, R253) -/

/-- Settles O51: a tick that is not taken leaves quiet outputs and nothing else. -/
theorem tickIgnoredBeforeStart : Obligations.TickIgnoredBeforeStart := execTick_stopped

/-- A pass over distinct transmitters emits the writes of each, in the order of the list. -/
theorem foldl_txAdvance_events_eq (l : List Handle) (hd : l.Nodup) (s : State) :
    (l.foldl txAdvance s).out.events = s.out.events ++
      l.flatMap fun h => (txTick s.cfg (s.txAt h)).2.map (Event.pinWrite (s.txAt h).pin) := by
  induction l generalizing s with
  | nil => simp
  | cons x l ih =>
    obtain ⟨hx, hd⟩ := List.nodup_cons.1 hd
    have hkept : ∀ k ∈ l, (txAdvance s x).txAt k = s.txAt k := fun k hk => by
      rw [txAdvance_txAt, if_neg (ne_of_mem_of_not_mem hk hx)]
    have hrest : (l.flatMap fun h => (txTick (txAdvance s x).cfg ((txAdvance s x).txAt h)).2.map
          (Event.pinWrite ((txAdvance s x).txAt h).pin)) =
        l.flatMap fun h => (txTick s.cfg (s.txAt h)).2.map (Event.pinWrite (s.txAt h).pin) :=
      List.flatMap_congr fun k hk => by rw [hkept k hk, txAdvance_cfg]
    rw [List.foldl_cons, ih hd, hrest, txAdvance_events, List.append_assoc, List.flatMap_cons]

/-- The receivers of a pass put nothing on the outputs (R233). -/
theorem dispatchPass_out (s : State) : (dispatchPass s).out = (advanceTransmitters s).out := by
  obtain ⟨rx, hpass⟩ := dispatchPass_eq s
  rw [hpass]

/-- Settles O52: the pass is one walk over the transmitters, then one over the receivers, each handle met once. -/
theorem tickAdvancesEachOnce : Obligations.TickAdvancesEachOnce := by
  intro s hr htx hrx
  obtain ⟨hcfg, hrun, htxReg, hrxReg, hport, hinputs, hresponse⟩ := dispatchPass_frame s.quiet
  refine ⟨_, exec_tick_running hr, fun h hm => ?tx, fun h hm => ?otherTx, fun h hm => ?rx, fun h hm => ?otherRx,
    fun p hp => ?line, hcfg, hrun.trans hr, htxReg, hrxReg, hport, hinputs, hresponse, ?events⟩
  case tx => exact (dispatchPass_txAt s.quiet htx h).trans (if_pos hm)
  case otherTx => exact (dispatchPass_txAt s.quiet htx h).trans (if_neg hm)
  case rx => exact (dispatchPass_rxAt s.quiet hrx h).trans (if_pos hm)
  case otherRx => exact (dispatchPass_rxAt s.quiet hrx h).trans (if_neg hm)
  case line => exact (dispatchPass_lineAt s.quiet p).trans (foldl_txAdvance_line_kept s.quiet _ htx p hp)
  case events =>
    rw [dispatchPass_out]
    exact foldl_txAdvance_events_eq _ htx s.quiet

/-! ## The tick source (R251) -/

/-- What a command or a tick from `s` to `t` can do to the tick source. -/
inductive TickSource (s t : State) : Prop where
  /-- It is left as it was, and no start is requested. -/
  | kept (hrun : t.tickRunning = s.tickRunning) (hevents : ∀ n, Event.tickStart n ∉ t.out.events)
  /-- `StartTick()` is called: the source runs from then on, and a start is requested only if it did not run before. -/
  | started (hrun : t.tickRunning = true)
      (hevents : t.out.events = if s.tickRunning then [] else [.tickStart s.cfg.tick])

namespace TickSource

variable {s t u : State} {h : Handle}

/-- The flag is never cleared, and a start is requested exactly where it is set, with the tick interval. -/
theorem spec (hs : TickSource s t) : (s.tickRunning = true → t.tickRunning = true) ∧
    ∀ n, Event.tickStart n ∈ t.out.events ↔ s.tickRunning = false ∧ t.tickRunning = true ∧ n = s.cfg.tick := by
  cases hs with
  | kept hrun hevents =>
    refine ⟨hrun.trans, fun n => iff_of_false (hevents n) ?_⟩
    rintro ⟨hstopped, hrunning, -⟩
    simp [← hrun, hrunning] at hstopped
  | started hrun hevents =>
    refine ⟨fun _ => hrun, fun n => ?_⟩
    cases hr : s.tickRunning <;> simp [hevents, hrun, hr]

/-! One rule per kind of ending: no event, one write of a pin, `StartTick()`. -/

theorem silent (hrun : t.tickRunning = s.tickRunning) (hevents : t.out.events = []) : TickSource s t :=
  .kept hrun (by simp [hevents])

theorem pinWrite {p : Pin} {v : Level} (hrun : t.tickRunning = s.tickRunning)
    (hevents : t.out.events = [.pinWrite p v]) : TickSource s t :=
  .kept hrun (by simp [hevents])

theorem startTick {status : Status} {value : Nat} (hcfg : u.cfg = s.cfg) (hrun : u.tickRunning = s.tickRunning)
    (hevents : u.out.events = []) : TickSource s (u.startTick.respond status value []) := by
  refine .started (State.startTick_tickRunning u) ?_
  rw [State.respond_out, State.startTick_out, hrun, hcfg]
  split <;> simp [hevents]

/-! The tick and the commands. -/

theorem execTick (s : State) : Leaves (TickSource s) (execTick s) := by
  cases hr : s.tickRunning with
  | false =>
    rw [execTick_stopped s hr]
    exact .next (silent rfl rfl)
  | true =>
    obtain ⟨-, hrun, -⟩ := dispatchPass_frame s.quiet
    rw [execTick_running s hr]
    refine .next (.kept hrun fun n hn => ?_)
    rw [dispatchPass_out] at hn
    exact List.not_mem_nil (foldl_txAdvance_events _ s.quiet n hn)

theorem answers (status : Status) (value : Nat) : Leaves (TickSource s) (answer s.quiet status value) :=
  .answer (silent rfl rfl)

theorem onTx {body : TxContext → State → Result} (hb : Leaves (TickSource s) (body (s.txAt h) s.quiet)) :
    Leaves (TickSource s) (onTx h s body) := .onTx (silent rfl rfl) fun _ => hb

theorem onRx {body : RxContext → State → Result} (hb : Leaves (TickSource s) (body (s.rxAt h) s.quiet)) :
    Leaves (TickSource s) (onRx h s body) := .onRx (silent rfl rfl) fun _ => hb

theorem execTxAttach (h : Handle) (pin : Pin) (s : State) : Leaves (TickSource s) (execTxAttach h pin s) :=
  .ite (fun _ => answers _ _) fun _ => .ite (fun _ => answers _ _) fun _ =>
    .ite (fun _ => .answer (silent rfl rfl)) fun _ => .answer (.kept rfl (by simp [Output.none]))

theorem execTxDetach (h : Handle) (s : State) : Leaves (TickSource s) (execTxDetach h s) :=
  .ite (fun _ => answers _ _) fun _ =>
    .ite (fun _ => .answer (pinWrite rfl rfl)) fun _ => .answer (silent rfl rfl)

theorem execRxAttach (h : Handle) (pin : Pin) (address : Byte) (s : State) :
    Leaves (TickSource s) (execRxAttach h pin address s) :=
  .ite (fun _ => answers _ _) fun _ => .ite (fun _ => answers _ _) fun _ => .ite (fun _ => answers _ _) fun _ =>
    .ite (fun _ => .answer (silent rfl rfl)) fun _ => .answer (.kept rfl (by simp [Output.none]))

theorem execRxDetach (h : Handle) (s : State) : Leaves (TickSource s) (execRxDetach h s) :=
  .ite (fun _ => answers _ _) fun _ =>
    .ite (fun _ => .answer (silent rfl rfl)) fun _ => .answer (silent rfl rfl)

/-- Only an accepted `TX_SEND` or `RX_LISTEN` calls `StartTick()` (R160, R180). -/
theorem exec (i : Instr) (s : State) : Leaves (TickSource s) (exec i s) := by
  unfold Machine.exec
  cases i with
  | tick => exact execTick s
  | txAttach h pin => exact execTxAttach h pin s
  | txDetach h => exact execTxDetach h s
  | txSend =>
    exact onTx <| .ite (fun _ => answers _ _) fun _ => .ite (fun _ => answers _ _) fun _ =>
      .ite (fun _ => answers _ _) fun _ => .ite (fun _ => answers _ _) fun _ => .answer (startTick rfl rfl rfl)
  | txSetInterval | txSetStart =>
    exact onTx (.ite (fun _ => .answer (pinWrite rfl rfl)) fun _ => .answer (pinWrite rfl rfl))
  | txStop => exact onTx (.answer (pinWrite rfl rfl))
  | txSetChannel | txSetId | txGetState => exact onTx (.answer (silent rfl rfl))
  | rxAttach h pin address => exact execRxAttach h pin address s
  | rxDetach h => exact execRxDetach h s
  | rxListen =>
    exact onRx <| .ite (fun _ => answers _ _) fun _ => .ite (fun _ => answers _ _) fun _ =>
      .ite (fun _ => answers _ _) fun _ => .answer (startTick rfl rfl rfl)
  | rxSetInterval | rxSetStart =>
    exact onRx (.ite (fun _ => .answer (silent rfl rfl)) fun _ => .answer (silent rfl rfl))
  | rxStop | rxReset | rxSetChannel | rxGetState => exact onRx (.answer (silent rfl rfl))
  | rxGetMessage => exact onRx (.ite (fun _ => .next (silent rfl rfl)) fun _ => answers _ _)
  | rxGetMessageLength => exact onRx (.ite (fun _ => answers _ _) fun _ => answers _ _)
  | rxClearBuffer => exact onRx (.ite (fun _ => .answer (silent rfl rfl)) fun _ => answers _ _)

end TickSource

/-- Settles O55: every command and the tick end in one of the two cases of `TickSource`. -/
theorem tickSourceStartedOnce : Obligations.TickSourceStartedOnce := fun i s t ht => (TickSource.exec i s t ht).spec

end Sys2Proof.Machine

/-! # Errors and fatal phases (R265, R269, R270) -/

namespace Sys2Proof.Machine

/-! ## Every step has a next state (R265) -/

/-- The result is a next state: no fault and no refusal. -/
def Answers (r : Result) : Prop := ∃ t, r = .next t

/-! One rule per way a command is put together, as for `Leaves`. -/

namespace Answers

variable {s : State} {h : Handle}

theorem next (t : State) : Answers (.next t) := ⟨t, rfl⟩

theorem answer (s : State) (status : Status) (value : Nat) : Answers (answer s status value) := next _

theorem ite {p : Prop} [Decidable p] {a b : Result} (ha : Answers a) (hb : Answers b) :
    Answers (if p then a else b) := by
  split
  · exact ha
  · exact hb

theorem storeTxProfile (x : TxContext) (p : Profile) (s : State) : Answers (storeTxProfile h x p s) :=
  ite (answer _ _ _) (answer _ _ _)

theorem storeRxProfile (x : RxContext) (p : Profile) (s : State) : Answers (storeRxProfile h x p s) :=
  ite (answer _ _ _) (answer _ _ _)

/-- No command and no tick faults or is refused. -/
theorem exec (i : Instr) (s : State) : Answers (exec i s) := by
  unfold Machine.exec
  cases i with
  | tick => exact next _
  | txAttach => exact ite (answer _ _ _) (ite (answer _ _ _) (ite (answer _ _ _) (answer _ _ _)))
  | txDetach => exact ite (answer _ _ _) (ite (answer _ _ _) (answer _ _ _))
  | txSend =>
    exact onTx_next fun _ _ =>
      ite (answer _ _ _) (ite (answer _ _ _) (ite (answer _ _ _) (ite (answer _ _ _) (answer _ _ _))))
  | txSetInterval | txSetStart => exact onTx_next fun _ _ => storeTxProfile _ _ _
  | txStop | txSetChannel | txSetId | txGetState => exact onTx_next fun _ _ => answer _ _ _
  | rxAttach =>
    exact ite (answer _ _ _) (ite (answer _ _ _) (ite (answer _ _ _) (ite (answer _ _ _) (answer _ _ _))))
  | rxDetach => exact ite (answer _ _ _) (ite (answer _ _ _) (answer _ _ _))
  | rxListen =>
    exact onRx_next fun _ _ => ite (answer _ _ _) (ite (answer _ _ _) (ite (answer _ _ _) (answer _ _ _)))
  | rxSetInterval | rxSetStart => exact onRx_next fun _ _ => storeRxProfile _ _ _
  | rxStop | rxReset | rxSetChannel | rxGetState => exact onRx_next fun _ _ => answer _ _ _
  | rxGetMessage => exact onRx_next fun _ _ => ite (next _) (answer _ _ _)
  | rxGetMessageLength | rxClearBuffer => exact onRx_next fun _ _ => ite (answer _ _ _) (answer _ _ _)

/-- A word that is no command is answered too (R106). -/
theorem runWord (w : CmdWord) (s : State) : Answers (runWord w s) := by
  unfold Machine.runWord
  split
  · exact exec _ s
  · exact answer _ _ _

theorem takeInput (i : Input) (s : State) : Answers (takeInput i s) := by
  cases i with
  | word w payload => exact runWord w _
  | drive p v => exact next _
  | hardwareReset => exact next _

theorem takeNext (s : State) : Answers (takeNext s) := by
  cases hi : s.inputs with
  | nil => exact ⟨s, by rw [Machine.takeNext, hi]⟩
  | cons i rest =>
    rw [takeNext_cons hi]
    exact takeInput i _

end Answers

/-- Settles O7, by the input a step takes; a command by its branches, none of which stops the machine. -/
theorem everyStepAnswers : Obligations.EveryStepAnswers := fun s hc =>
  step_valid hc ▸ Answers.takeNext s

/-! ## What reaches a context in a fatal phase

A tick passes it by, and so does every command that addresses another context. -/

section Reach

variable {P : State → Prop} {s t : State} {h : Handle} {i : Instr}

/-- A tick leaves the state with quiet outputs, or a dispatch pass from there. -/
theorem Leaves.execTick (hq : P s.quiet) (hp : P (dispatchPass s.quiet)) : Leaves P (execTick s) :=
  .next <| by
    split
    · exact hp
    · exact hq

/-- A dispatch pass leaves alone a receiver that does not track its line. -/
theorem dispatchPass_rxAt_untracked (hk : tracks (s.rxAt h) = false) : (dispatchPass s).rxAt h = s.rxAt h := by
  obtain ⟨-, -, -, -, hrx, -⟩ := foldl_txAdvance_frame s s.txReg.live
  have htx : (advanceTransmitters s).rxAt h = s.rxAt h := by simp only [State.rxAt, advanceTransmitters, hrx]
  exact (foldl_rxAdvance_idle _ _ h (htx ▸ hk)).trans htx

/-- A dispatch pass writes no profile of a transmitter. -/
theorem dispatchPass_txProfile (s : State) (h : Handle) : ((dispatchPass s).txAt h).profile = (s.txAt h).profile := by
  obtain ⟨rx, hpass⟩ := dispatchPass_eq s
  obtain ⟨-, -, -, -, hprofile, -⟩ := foldl_txAdvance_kept s.txReg.live s h
  rw [hpass]
  exact hprofile

/-- A receiver that does not track its line changes only by a command that addresses it. -/
theorem exec_rxAt_untracked (hi : rxTarget i ≠ some h) (hk : tracks (s.rxAt h) = false) :
    Leaves (fun t => t.rxAt h = s.rxAt h) (exec i s) := by
  by_cases htick : i = .tick
  · subst htick
    exact .execTick rfl (dispatchPass_rxAt_untracked hk)
  · exact fun t ht => (WritesOnly.exec htick s t ht).rx h hi

/-- The profile of a transmitter changes only by a command that addresses it. -/
theorem exec_txProfile_unaddressed (hi : txTarget i ≠ some h) :
    Leaves (fun t => (t.txAt h).profile = (s.txAt h).profile) (exec i s) := by
  by_cases htick : i = .tick
  · subst htick
    exact .execTick rfl (dispatchPass_txProfile s.quiet h)
  · exact fun t ht => congrArg (·.profile) ((WritesOnly.exec htick s t ht).tx h hi)

end Reach

/-! ## Receivers -/

/-- A receiver at rest is not in `ErrorOverflow` (R132). -/
theorem restRx_ne_errorOverflow (c : Cfg) (p : Profile) : restRx c p ≠ .errorOverflow := by
  rcases restRx_cases c p with hrest | hrest <;> simp [hrest]

/-- What `i` may make of the receiver `h`, from `r` to `q`, where it finds it in use and not tracking its line. -/
structure FatalRx (c : Cfg) (i : Instr) (h : Handle) (r q : RxContext) : Prop where
  /-- `ErrorOverflow` is not left, but by `RX_RESET` (R269). -/
  stays : r.phase = .errorOverflow → q.phase = .errorOverflow ∨ i = .rxReset h
  /-- `ErrorOverflow` is not entered (R203). -/
  enters : q.phase = .errorOverflow → r.phase = .errorOverflow
  /-- Whether the profile is separated is decided anew by `RX_SET_INTERVAL` only (R131, R135). -/
  separation : separated c q.profile = separated c r.profile ∨ ∃ high low, i = .rxSetInterval h high low

/-- Every next state this result can give holds the receiver `h` as `i` may leave it from `s`. -/
abbrev LeavesRx (c : Cfg) (i : Instr) (h : Handle) (s : State) (result : Result) : Prop :=
  Leaves (fun t => FatalRx c i h (s.rxAt h) (t.rxAt h)) result

namespace FatalRx

variable {c : Cfg} {i : Instr} {h : Handle} {s t : State} {r q : RxContext} {p : Profile}

theorem refl (r : RxContext) : FatalRx c i h r r := ⟨.inl, id, .inl rfl⟩

/-- A context that differs in neither `phase` nor profile. -/
theorem same (hphase : q.phase = r.phase) (hprofile : q.profile = r.profile) : FatalRx c i h r q :=
  ⟨fun ho => .inl (hphase.trans ho), hphase.symm.trans, .inl (by rw [hprofile])⟩

/-- A stop keeps `ErrorOverflow` and does not enter it (R189). -/
theorem stopped (hphase : q.phase = stoppedRxPhase r.phase) (hprofile : q.profile = r.profile) :
    FatalRx c i h r q := by
  rcases stoppedRxPhase_cases r.phase with ⟨hr, hstop⟩ | ⟨hr, hstop⟩ | ⟨hr, -, hstop⟩
  · exact same (by rw [hphase, hstop, hr]) hprofile
  · exact same (by rw [hphase, hstop, hr]) hprofile
  · exact ⟨fun ho => absurd ho hr, by simp [hphase, hstop], .inl (by rw [hprofile])⟩

/-- The context is written, by a command that writes no other. -/
theorem write (ht : t.rx = s.rx.set h.toNat q) (hq : FatalRx c i h (s.rxAt h) q) :
    FatalRx c i h (s.rxAt h) (t.rxAt h) := by
  have hwritten : t.rxAt h = q := (congrArg (·[h.toNat]) ht).trans (s.setRx_rxAt_self h q)
  rwa [hwritten]

/-- A command that writes no context. -/
theorem answers (status : Status) (value : Nat) : LeavesRx c i h s (answer s.quiet status value) := .answer (refl _)

theorem onRx {body : RxContext → State → Result} (hb : LeavesRx c i h s (body (s.rxAt h) s.quiet)) :
    LeavesRx c i h s (onRx h s body) := .onRx (refl _) fun _ => hb

/-- A stored profile rests the receiver, unless it is in `ErrorOverflow` (R135, R138). -/
theorem storeRxProfile
    (hp : separated c p = separated c (s.rxAt h).profile ∨ ∃ high low, i = .rxSetInterval h high low) :
    LeavesRx c i h s (storeRxProfile h (s.rxAt h) p s.quiet) := by
  have hstored : FatalRx c i h (s.rxAt h)
      { s.rxAt h with
        profile := p
        phase := if (s.rxAt h).phase = .errorOverflow then (s.rxAt h).phase else restRx s.cfg p } := by
    refine ⟨fun ho => .inl ((if_pos ho).trans ho), fun ho => ?_, hp⟩
    by_contra hne
    exact restRx_ne_errorOverflow s.cfg p ((if_neg hne).symm.trans ho)
  exact .ite (fun _ => .answer (write rfl hstored)) fun _ => .answer (write rfl hstored)

theorem execRxDetach (h : Handle) (s : State) : LeavesRx c i h s (execRxDetach h s) := by
  rw [execRxDetach_eq]
  exact .ite (fun _ => .next (refl _)) fun _ => .ite (fun _ => .next (write rfl (stopped rfl rfl))) fun _ =>
    .next (write rfl (same rfl rfl))

/-- The commands that address the receiver; `hi` leaves no other. -/
theorem exec_addressed (hi : rxTarget i = some h) (hl : (s.rxAt h).life = .active)
    (hk : tracks (s.rxAt h) = false) :
    LeavesRx c i h s (exec i s) := by
  unfold Machine.exec
  cases i with cases hi
  | rxAttach =>
    exact .ite (fun _ => answers _ _) fun _ => .ite (fun _ => answers _ _) fun hfree => absurd (by simp [hl]) hfree
  | rxDetach => exact execRxDetach h s
  | rxListen =>
    exact onRx <| .ite (fun _ => answers _ _) fun hfatal => .ite (fun _ => answers _ _) fun _ =>
      .ite (fun _ => answers _ _) fun _ =>
        .answer (write (State.startTick_rx _) ⟨fun ho => absurd (.inl ho) hfatal, nofun, .inl rfl⟩)
  | rxStop => exact onRx (.answer (write rfl (stopped rfl rfl)))
  | rxSetInterval _ high low => exact onRx (storeRxProfile (.inr ⟨high, low, rfl⟩))
  | rxSetStart => exact onRx (storeRxProfile (.inl rfl))
  | rxSetChannel => exact onRx (.answer (write rfl (same rfl rfl)))
  | rxReset =>
    exact onRx <| .answer <| write rfl
      ⟨fun _ => .inr rfl, fun ho => absurd ho (restRx_ne_errorOverflow _ _), .inl rfl⟩
  | rxGetState => exact onRx (answers _ _)
  | rxGetMessage => exact onRx (.ite (fun _ => .next (refl _)) fun _ => answers _ _)
  | rxGetMessageLength => exact onRx (.ite (fun _ => answers _ _) fun _ => answers _ _)
  | rxClearBuffer =>
    exact onRx (.ite (fun hready => absurd ((tracks_iff _).2 (.inr hready)) (by simp [hk])) fun _ => answers _ _)

/-- Every command and the tick. -/
theorem exec (hl : (s.rxAt h).life = .active) (hk : tracks (s.rxAt h) = false) :
    LeavesRx c i h s (exec i s) := by
  by_cases hi : rxTarget i = some h
  · exact exec_addressed hi hl hk
  · exact fun t ht => exec_rxAt_untracked hi hk t ht ▸ refl _

end FatalRx

/-- Settles O56: in `ErrorOverflow` the line is not tracked, and of what `FatalRx` allows only `RX_RESET` leaves it. -/
theorem overflowLeftOnlyByReset : Obligations.OverflowLeftOnlyByReset := by
  intro i s t h ht hl ho hleft
  have hk : tracks (s.rxAt h) = false := by simp [tracks, ho]
  have hrx : FatalRx s.cfg i h (s.rxAt h) (t.rxAt h) := FatalRx.exec hl hk t ht
  exact (hrx.stays ho).resolve_left hleft

/-! ## Transmitters -/

/-- Whether the profile of the transmitter `h` is separated, `t` before and `u` after `i`, is decided anew by
`TX_SET_INTERVAL` only (R131, R134). -/
def TxSeparation (c : Cfg) (i : Instr) (h : Handle) (t u : TxContext) : Prop :=
  separated c u.profile = separated c t.profile ∨ ∃ high low, i = .txSetInterval h high low

/-- Every next state this result can give holds the transmitter `h` as `i` may leave it from `s`. -/
abbrev LeavesTx (c : Cfg) (i : Instr) (h : Handle) (s : State) (result : Result) : Prop :=
  Leaves (fun t => TxSeparation c i h (s.txAt h) (t.txAt h)) result

namespace TxSeparation

variable {c : Cfg} {i : Instr} {h : Handle} {s t : State} {x y : TxContext} {p : Profile}

theorem same (hprofile : y.profile = x.profile) : TxSeparation c i h x y := .inl (by rw [hprofile])

/-- The context is written, by a command that writes no other. -/
theorem write (ht : t.tx = s.tx.set h.toNat x) (hx : TxSeparation c i h (s.txAt h) x) :
    TxSeparation c i h (s.txAt h) (t.txAt h) := by
  have hwritten : t.txAt h = x := (congrArg (·[h.toNat]) ht).trans (s.setTx_txAt_self h x)
  rwa [hwritten]

/-- A command that writes no context. -/
theorem answers (status : Status) (value : Nat) : LeavesTx c i h s (answer s.quiet status value) := .answer (same rfl)

theorem onTx {body : TxContext → State → Result} (hb : LeavesTx c i h s (body (s.txAt h) s.quiet)) :
    LeavesTx c i h s (onTx h s body) := .onTx (same rfl) fun _ => hb

theorem storeTxProfile
    (hp : separated c p = separated c (s.txAt h).profile ∨ ∃ high low, i = .txSetInterval h high low) :
    LeavesTx c i h s (storeTxProfile h (s.txAt h) p s.quiet) :=
  have hstored : TxSeparation c i h (s.txAt h) { s.txAt h with profile := p, phase := restTx s.cfg p } := hp
  .ite (fun _ => .answer (write rfl hstored)) fun _ => .answer (write rfl hstored)

theorem execTxDetach (h : Handle) (s : State) : LeavesTx c i h s (execTxDetach h s) := by
  rw [execTxDetach_eq]
  exact .ite (fun _ => .next (same rfl)) fun _ => .ite (fun _ => .next (write rfl (same rfl))) fun _ =>
    .next (write rfl (same rfl))

/-- The commands that address the transmitter; `hi` leaves no other. -/
theorem exec_addressed (hi : txTarget i = some h) (hl : (s.txAt h).life = .active) :
    LeavesTx c i h s (exec i s) := by
  unfold Machine.exec
  cases i with cases hi
  | txAttach =>
    exact .ite (fun _ => answers _ _) fun _ => .ite (fun _ => answers _ _) fun hfree => absurd (by simp [hl]) hfree
  | txDetach => exact execTxDetach h s
  | txSend =>
    exact onTx <| .ite (fun _ => answers _ _) fun _ => .ite (fun _ => answers _ _) fun _ =>
      .ite (fun _ => answers _ _) fun _ => .ite (fun _ => answers _ _) fun _ =>
        .answer (write (State.startTick_tx _) (same rfl))
  | txSetInterval _ high low => exact onTx (storeTxProfile (.inr ⟨high, low, rfl⟩))
  | txSetStart => exact onTx (storeTxProfile (.inl rfl))
  | txStop | txSetChannel | txSetId => exact onTx (.answer (write rfl (same rfl)))
  | txGetState => exact onTx (answers _ _)

/-- Every command and the tick. -/
theorem exec (hl : (s.txAt h).life = .active) :
    LeavesTx c i h s (exec i s) := by
  by_cases hi : txTarget i = some h
  · exact exec_addressed hi hl
  · exact fun t ht => same (exec_txProfile_unaddressed hi t ht)

end TxSeparation

/-! ## `ErrorDefinitions` (R270) -/

/-- Settles O57: the next state meets the invariant too, so a context out of `ErrorDefinitions` has a separated
profile, and only a `*_SET_INTERVAL` can have made it so. -/
theorem definitionsLeftOnlyBySetInterval : Obligations.DefinitionsLeftOnlyBySetInterval := by
  intro i s t h hs ht
  have hok : StateOk t := hs.exec i t ht
  have hcfg : t.cfg = s.cfg := exec_leavesConfig i s t ht
  refine ⟨fun hl hd hleft => ?tx, fun hl hd hleft => ?rx⟩
  case tx =>
    have hbefore : separated s.cfg (s.txAt h).profile = false := (hs.tx h).definitions.1 hd
    have hafter : separated s.cfg (t.txAt h).profile = true :=
      hcfg ▸ Bool.eq_true_of_not_eq_false (mt (hok.tx h).definitions.2 hleft)
    have htx : TxSeparation s.cfg i h (s.txAt h) (t.txAt h) := TxSeparation.exec hl t ht
    exact ⟨htx.resolve_left (by simp [hbefore, hafter]), (separated_iff _ _).1 hafter⟩
  case rx =>
    have hk : tracks (s.rxAt h) = false := by simp [tracks, hd]
    have hrx : FatalRx s.cfg i h (s.rxAt h) (t.rxAt h) := FatalRx.exec hl hk t ht
    have ho : (s.rxAt h).phase ≠ .errorOverflow := by simp [hd]
    have hbefore : separated s.cfg (s.rxAt h).profile = false := ((hs.rx h).definitions ho).1 hd
    have hafter : separated s.cfg (t.rxAt h).profile = true :=
      hcfg ▸ Bool.eq_true_of_not_eq_false (mt ((hok.rx h).definitions (mt hrx.enters ho)).2 hleft)
    exact ⟨hrx.separation.resolve_left (by simp [hbefore, hafter]), (separated_iff _ _).1 hafter⟩

end Sys2Proof.Machine

/-! # Hardware reset (R46, R300, R301) -/

namespace Sys2Proof.Machine

variable {s : State} {rest : List Input}

/-- A reset at the head of the stream is what the step carries out (R16, R300). -/
theorem step_hardwareReset (hc : validCfg s.cfg) (hi : s.inputs = .hardwareReset :: rest) :
    step s = .next (hardwareReset (s.advanceInputs rest)) := (step_valid hc).trans (takeNext_cons hi)

/-- Every transmitter context is as the table of R46 has it. -/
@[simp] theorem hardwareReset_txAt (s : State) (h : Handle) : (hardwareReset s).txAt h = TxContext.fresh s.cfg :=
  State.resetWith_txAt s.cfg s.line h

/-- Every receiver context is as the table of R46 has it. -/
@[simp] theorem hardwareReset_rxAt (s : State) (h : Handle) : (hardwareReset s).rxAt h = RxContext.fresh s.cfg :=
  State.resetWith_rxAt s.cfg s.line h

@[simp] theorem hardwareReset_lineAt (s : State) (p : Pin) : (hardwareReset s).lineAt p = s.lineAt p := rfl

/-- Every slot of an empty registry holds 0 (R46). -/
theorem Registry.empty_slot (i : Fin Config.registrySlots) : Registry.empty.slots[i] = 0 :=
  Vector.getElem_replicate i.isLt

/-- A buffer without cells reads 0 at every offset it has (R46, R60). -/
theorem bufByte_nil {c : Cfg} {i : Nat} (hi : i < c.bufCap) : bufByte c [] i = 0 := bufByte_of_lt [] hi

/-- Settles O10: the state a reset leaves, read piece by piece. -/
theorem hardwareResetValues : Obligations.HardwareResetValues := by
  intro s rest hc hi
  exact ⟨_, step_hardwareReset hc hi, rfl, rfl, rfl, fun i => ⟨Registry.empty_slot i, Registry.empty_slot i⟩,
    hardwareReset_txAt _, hardwareReset_rxAt _, fun _ => bufByte_nil, rfl⟩

/-- Settles O11: the reset takes over the lines it finds. -/
theorem hardwareResetKeepsLines : Obligations.HardwareResetKeepsLines := fun s rest hc hi =>
  ⟨_, step_hardwareReset hc hi, hardwareReset_lineAt (s.advanceInputs rest)⟩

end Sys2Proof.Machine

/-! # From a transmitter to a receiver on its line (R319, R320, R322, R331) -/

namespace Sys2Proof.Machine

/-! ## The symbols of a profile, as a receiver measures them (R94, R319, R320) -/

section Symbols

variable {c : Cfg} {p : Profile} {b : Bool} {d : Nat}

/-- The ticks of the two halves of START (R93, R94). -/
def startTicks (c : Cfg) (p : Profile) : Nat × Nat := (halfTicks c p.startHigh, halfTicks c p.startLow)

/-- The ticks of the two halves of a bit (R93, R94). -/
def bitTicks (c : Cfg) (p : Profile) (b : Bool) : Nat × Nat :=
  (halfTicks c (if b then p.high else p.low), halfTicks c (if b then p.low else p.high))

theorem bitPulse_eq (c : Cfg) (p : Profile) (b : Bool) : bitPulse c p b = symbolWave (bitTicks c p b) := by
  cases b <;> rfl

/-- The waveform of a frame, symbol by symbol (R92). -/
theorem frameWave_eq (c : Cfg) (p : Profile) (bytes : List Byte) :
    frameWave c p bytes = (startTicks c p :: (wireBits bytes).map (bitTicks c p)).flatMap symbolWave := by
  rw [frameWave, funext (bitPulse_eq c p), List.flatMap_cons, List.flatMap_map]
  rfl

/-- No half is sent shorter than its nominal duration (R94). -/
theorem le_halfTicks_mul (hc : 1 ≤ c.tick) (d : Nat) : d ≤ halfTicks c d * c.tick := by
  have hlast := le_halfTicks_pred hc d
  rwa [← Nat.succ_mul, Nat.succ_eq_add_one, Nat.sub_add_cancel (halfTicks_pos c d)] at hlast

/-- A hearable half is measured within tolerance of its nominal duration (R320). -/
theorem Hearable.near (hd : Hearable c d) (hc : 1 ≤ c.tick) : absDiff (halfTicks c d * c.tick) d ≤ c.deviation :=
  (within_iff _ _ _).1 (within_self_range (le_halfTicks_mul hc d) hd.1)

/-- A half measured within tolerance of one duration is not within tolerance of one that is far from it (R319). -/
theorem not_near_of_apart {x a b : Nat} (ha : absDiff x a ≤ c.deviation) (hab : 2 * c.deviation < absDiff b a) :
    c.deviation < absDiff x b := by
  refine Nat.lt_of_not_le fun hb => ?_
  have hout := within_apart ((within_iff c x b).2 hb) hab
  simp [(within_iff c x a).2 ha] at hout

/-- A symbol of two hearable halves is measured as itself (R320). -/
theorem Hearable.measured {high low : Nat} (hhigh : Hearable c high) (hlow : Hearable c low) (hc : 1 ≤ c.tick) :
    Measured c high low (halfTicks c high, halfTicks c low) where
  present := ⟨halfTicks_pos c high, halfTicks_pos c low⟩
  inTime := ⟨hhigh.2, hlow.2⟩
  near := ⟨hhigh.near hc, hlow.near hc⟩

namespace Decodable

theorem measured_start (h : Decodable c p) (hc : 1 ≤ c.tick) :
    Measured c p.startHigh p.startLow (startTicks c p) := h.startHigh.measured h.startLow hc

/-- A bit is measured as itself, and as neither of the symbols tried before it (R201, R319). -/
theorem measuredBit (h : Decodable c p) (hc : 1 ≤ c.tick) (b : Bool) : MeasuredBit c p b (bitTicks c p b) := by
  have hhigh := h.high.near hc
  have hlow := h.low.near hc
  cases b with
  | true =>
    refine ⟨h.high.measured h.low hc, fun hstart => ?_, nofun⟩
    rcases h.startNotOne with hapart | hapart
    · exact Nat.not_le.2 (not_near_of_apart hhigh hapart) hstart.1
    · exact Nat.not_le.2 (not_near_of_apart hlow hapart) hstart.2
  | false =>
    refine ⟨h.low.measured h.high hc, fun hstart => ?_, fun _ hone => ?_⟩
    · rcases h.startNotZero with hapart | hapart
      · exact Nat.not_le.2 (not_near_of_apart hlow hapart) hstart.1
      · exact Nat.not_le.2 (not_near_of_apart hhigh hapart) hstart.2
    · exact Nat.not_le.2 (not_near_of_apart hlow h.bits) hone.1

theorem measuredBits (h : Decodable c p) (hc : 1 ≤ c.tick) (bits : List Bool) :
    List.Forall₂ (MeasuredBit c p) bits (bits.map (bitTicks c p)) :=
  List.forall₂_map_right_iff.2 (List.forall₂_same.2 fun b _ => h.measuredBit hc b)

/-- The HIGH half of a ZERO is no HIGH half of a ONE (R319). -/
theorem zero_not_one (h : Decodable c p) (hc : 1 ≤ c.tick) (hb : b = false) :
    c.deviation < absDiff ((bitTicks c p b).1 * c.tick) p.high := by
  subst hb
  exact not_near_of_apart (h.low.near hc) h.bits

/-- No half of a bit lasts as long as the time-out (R320 (2), R331). -/
theorem lowTicks_le_timeoutTicks (h : Decodable c p) (hc : 1 ≤ c.tick) (he : 1 ≤ c.elapsedMax) (b : Bool) :
    (bitTicks c p b).2 ≤ timeoutTicks c := by
  obtain ⟨k, hk, -, hdue⟩ := timeoutTicks_spec hc he
  have htime := (h.measuredBit hc b).halves.inTime.2
  rw [hk]
  refine Nat.le_of_mul_le_mul_right (c := c.tick) ?_ hc
  rw [Nat.succ_mul]
  omega

end Decodable

end Symbols

/-! ## The last bit of a frame -/

theorem wireBits_concat (bytes : List Byte) (x : Byte) :
    ∃ init, wireBits (bytes ++ [x]) = init ++ [bitOf x 0] :=
  ⟨wireBits bytes ++ [7, 6, 5, 4, 3, 2, 1].map (bitOf x), by
    rw [wireBits, List.flatMap_append, List.flatMap_singleton, List.append_assoc]
    rfl⟩

/-- The last bit on the wire is bit 0 of the checksum (R61, R63). -/
theorem wireBits_frameBytes (id channel : Nibble) (payload : List Byte) :
    ∃ init, wireBits (frameBytes id channel payload) = init ++ [bitOf (checksum payload) 0] :=
  wireBits_concat (headerByte id channel :: BitVec.ofNat 8 payload.length :: payload) (checksum payload)

/-! ## A receiver at the time-out after a frame (R204, R331) -/

section Hearing

variable {c : Cfg} {r : RxContext} {n : Nat × Nat}

/-- A `Listening` receiver at the rising edge after START and bits: the bits are stored. -/
theorem Waiting.rxAfter_symbols {bits : List Bool} {start : Nat × Nat} {symbols : List (Nat × Nat)} (hw : Waiting r)
    (hstart : Measured c r.profile.startHigh r.profile.startLow start)
    (hbits : List.Forall₂ (MeasuredBit c r.profile) bits symbols)
    (hl : (storeBits c (beginFrame r) bits).phase = .listening) :
    ∃ x y, rxAfter c (Level.high :: (start :: symbols).flatMap heardWave) r =
      risen (storeBits c (beginFrame r) bits) x y := by
  obtain ⟨x, y, hfirst⟩ := hw.rises (c := c)
  obtain ⟨x', y', hrow⟩ := rxAfter_bits (r := beginFrame r) hbits rfl hl (start.1 * c.tick) (start.2 * c.tick)
  refine ⟨x', y', ?_⟩
  rw [rxAfter, hfirst, List.flatMap_cons, rxAfter_append, rxAfter_start hw.phase hstart, hrow]

/-- The bits of a frame are stored and the frame validated as soon as the line has been `LOW` for the time-out, of which
the last symbol's own LOW half is a part (R197, R331). -/
theorem Waiting.rxAfter_decodable {init : List Bool} {b : Bool} {quiet : Nat} (hw : Waiting r) (hc : validCfg c)
    (hp : Decodable c r.profile) (hquiet : timeoutTicks c + 1 ≤ (bitTicks c r.profile b).2 + quiet)
    (hl : (storeBits c (beginFrame r) (init ++ [b])).phase = .listening) :
    clearTracker (rxAfter c ((startTicks c r.profile :: (init ++ [b]).map (bitTicks c r.profile)).flatMap symbolWave ++
        List.replicate quiet Level.low) r) =
      validateIfListening c (rested (storeBits c (beginFrame r) (init ++ [b]))) := by
  have hstart := hp.measured_start hc.1
  have hinit := hp.measuredBits hc.1 init
  have hb := hp.measuredBit hc.1 b
  rw [storeBits_append, storeBits_singleton] at hl ⊢
  obtain ⟨x, y, hfront⟩ := hw.rxAfter_symbols hstart hinit (listening_of_storeBits (bits := [b]) hl)
  have hprofile : (storeBits c (beginFrame r) init).profile = r.profile := storeBits_profile c _ init
  have hlast := fun hzero => hp.zero_not_one (b := b) hc.1 hzero
  rw [List.map_append, List.map_singleton, ← List.cons_append,
    frame_levels (List.forall_mem_cons.2 ⟨hstart.present, present_of_measured hinit⟩) hb.halves.present,
    ← List.cons_append, rxAfter_append, hfront]
  rw [← hprofile] at hb hlast hquiet ⊢
  exact rxAfter_lastBit hc.1 hc.elapsedMax_pos hl hb hlast (by omega) x y

/-- A payload in a frame for this receiver, received at the time-out after it (R204, R322). -/
structure Delivered (c : Cfg) (r : RxContext) (payload : List Byte) : Prop where
  phase : r.phase = .messageReady
  length : bufByte c r.buf 1 = BitVec.ofNat 8 payload.length
  message : bufSlice c r.buf 2 payload.length = payload

theorem Waiting.delivered {payload : List Byte} {quiet : Nat} (hw : Waiting r) (hc : validCfg c)
    (hp : Decodable c r.profile) (hn : payload.length ≤ c.maxPayload)
    (hquiet : timeoutTicks c + 1 ≤ (bitTicks c r.profile (bitOf (checksum payload) 0)).2 + quiet) :
    Delivered c (rxAfter c (frameWave c r.profile (frameBytes r.address r.channel payload) ++
      List.replicate quiet Level.low) r) payload := by
  have hlen : (frameBytes r.address r.channel payload).length = payload.length + 3 := frameBytes_length _ _ _
  have hcap : (frameBytes r.address r.channel payload).length ≤ c.bufCap := by rw [hlen, hc.bufCap_eq]; omega
  obtain ⟨m, hstored, hbytes⟩ := storeBits_fromStart (c := c) (r := beginFrame r) rfl rfl hcap
  have hphase : (beginFrame r).phase = .listening := by simp [beginFrame, hw.phase]
  obtain ⟨init, hbits⟩ := wireBits_frameBytes r.address r.channel payload
  have hq := hw.rxAfter_decodable hc hp hquiet (by rw [← hbits, hstored]; exact hphase)
  rw [← hbits, ← frameWave_eq, hstored] at hq
  obtain ⟨hbuf, hours, -⟩ := validateIfListening_outcome (c := c) (r := rested { beginFrame r with
    buf := m, bitCursor := 7, bufLen := (frameBytes r.address r.channel payload).length }) hc hphase hcap hbytes
  obtain ⟨hready, -⟩ := hours ⟨payload, hn, rfl⟩
  rw [← hq] at hbuf hready
  rw [hlen, bufSlice_eq_frameBytes_iff] at hbytes
  obtain ⟨-, hlength, hmessage, -⟩ := hbytes
  exact ⟨hready, (congrArg (bufByte c · 1) hbuf).trans hlength,
    (congrArg (bufSlice c · 2 payload.length) hbuf).trans hmessage⟩

end Hearing

/-! ## The pin after a frame (R165, R167) -/

section Sending

variable {c : Cfg} {t : TxContext}

/-- A transmitter that is not `Sending` leaves its pin as it is (R168). -/
theorem txWave_idle (hp : t.phase ≠ .sending) (n : Nat) (l : Level) : txWave c n l t = List.replicate n l := by
  induction n with
  | zero => rfl
  | succ n ih => rw [txWave, txTick_idle hp, List.replicate_succ]; exact congrArg (l :: ·) ih

/-- A symbol ends `LOW` (R93). -/
theorem symbolWave_getLastD {n : Nat × Nat} (hn : 1 ≤ n.2) (wave : List Level) (l : Level) :
    (wave ++ symbolWave n).getLastD l = .low := by
  obtain ⟨k, hk⟩ := Nat.exists_eq_add_of_le' hn
  rw [symbolWave, hk, List.replicate_succ', ← List.append_assoc, ← List.append_assoc, List.getLastD_concat]

theorem frameWave_getLastD (c : Cfg) (p : Profile) (id channel : Nibble) (payload : List Byte) (l : Level) :
    (frameWave c p (frameBytes id channel payload)).getLastD l = .low := by
  obtain ⟨init, hbits⟩ := wireBits_frameBytes id channel payload
  rw [frameWave_eq, hbits, List.map_append, List.map_singleton, ← List.cons_append, List.flatMap_append,
    List.flatMap_singleton]
  exact symbolWave_getLastD (n := bitTicks c p (bitOf (checksum payload) 0)) (halfTicks_pos c _) _ l

/-- A transmitter with a loaded frame sends it and then leaves its line `LOW` (R167). -/
theorem FrameLoaded.txWave_eq {id channel : Nibble} {payload : List Byte}
    (ht : FrameLoaded c t (frameBytes id channel payload)) (hc : 1 ≤ c.tick) (quiet : Nat) (l : Level) :
    txWave c ((frameWave c t.profile (frameBytes id channel payload)).length + quiet) l t =
      frameWave c t.profile (frameBytes id channel payload) ++ List.replicate quiet .low := by
  obtain ⟨u, hsent, hidle⟩ := ht.sends hc
  rw [txWave_add, hsent.levels, hsent.after, frameWave_getLastD, txWave_idle (by simp [hidle])]

/-- An accepted `TX_SEND` loads the frame of its payload (R160). -/
theorem startFrame_loaded (hc : validCfg c) (t : TxContext) {payload : List Byte} (hn : payload.length ≤ c.maxPayload) :
    FrameLoaded c (startFrame t payload) (frameBytes t.id t.channel payload) := by
  have hfits : (frameBytes t.id t.channel payload).length ≤ c.bufCap := by
    rw [frameBytes_length, hc.bufCap_eq]
    omega
  exact ⟨rfl, rfl, rfl, rfl, rfl, rfl, (frameBytes_length _ _ _).symm, hfits, bufSlice_writeBytes _ _ hfits⟩

theorem startFrame_txWave (hc : validCfg c) (t : TxContext) {payload : List Byte} (hn : payload.length ≤ c.maxPayload)
    (quiet : Nat) (l : Level) :
    txWave c ((frameWave c t.profile (frameBytes t.id t.channel payload)).length + quiet) l (startFrame t payload) =
      frameWave c t.profile (frameBytes t.id t.channel payload) ++ List.replicate quiet .low :=
  (startFrame_loaded hc t hn).txWave_eq hc.1 quiet l

end Sending

/-! ## Ticks of a transmitter and a receiver on one line (R252, R256) -/

/-- A registered transmitter and a registered receiver on its line, on which no other transmitter sends, with the tick
source running. -/
structure Paired (s : State) (a b : Handle) : Prop where
  ok : StateOk s
  running : s.tickRunning = true
  sender : a ∈ s.txReg.live
  receiver : b ∈ s.rxReg.live
  pin : (s.rxAt b).pin = (s.txAt a).pin
  alone : ∀ k ∈ s.txReg.live, k ≠ a → (s.txAt k).pin = (s.txAt a).pin → (s.txAt k).phase ≠ .sending

namespace Paired

variable {s t : State} {a b : Handle}

/-- The line after a tick is what the transmitter of the pair last wrote on it (R70). -/
theorem lineAt_tick (h : Paired s a b) (ht : exec .tick s = .next t) :
    t.lineAt (s.txAt a).pin = (txTick s.cfg (s.txAt a)).2.getLastD (s.lineAt (s.txAt a).pin) := by
  by_cases hp : (s.txAt a).phase = .sending
  · obtain ⟨before, after, hl⟩ := List.append_of_mem h.sender
    have hd := h.ok.txDistinct
    obtain ⟨-, hafter, -⟩ := List.nodup_append.1 (hl ▸ hd)
    obtain ⟨hna, -⟩ := List.nodup_cons.1 hafter
    obtain ⟨u, hu, hline⟩ := lastWriterHoldsLine s before after a h.running hd hl hp fun k hk =>
      h.alone k (by simp [hl, hk]) (ne_of_mem_of_not_mem hk hna)
    obtain rfl : u = t := by simpa [hu] using ht
    rw [hline, txTick_getLastD hp]
  · obtain ⟨u, hu, -, -, -, -, hline, -⟩ :=
      tickAdvancesEachOnce s h.running h.ok.txDistinct h.ok.rxDistinct
    obtain rfl : u = t := by simpa [hu] using ht
    rw [txTick_idle hp]
    refine hline _ fun k hk hpin => ?_
    by_cases hka : k = a
    · exact hka ▸ hp
    · exact h.alone k hk hka hpin

theorem receiver_active (h : Paired s a b) : s.rxActive b := by
  have hlife := (h.ok.rxMember b).1 h.receiver
  exact ⟨h.ok.rxExists b (by simp [hlife]), hlife⟩

/-- A tick of a pair: the transmitter is advanced, and the receiver with the level the transmitter leaves. -/
structure Ticked (s t : State) (a b : Handle) : Prop where
  paired : Paired t a b
  cfg : t.cfg = s.cfg
  sender : t.txAt a = (txTick s.cfg (s.txAt a)).1
  line : t.lineAt (t.txAt a).pin = (txTick s.cfg (s.txAt a)).2.getLastD (s.lineAt (s.txAt a).pin)
  receiver : t.rxAt b = rxTick s.cfg (t.lineAt (t.txAt a).pin) (s.rxAt b)

theorem tick (h : Paired s a b) : ∃ t, exec .tick s = .next t ∧ Ticked s t a b := by
  obtain ⟨t, ht, htx, -, hrx, -, -, hcfg, hrun, htxReg, hrxReg, -⟩ :=
    tickAdvancesEachOnce s h.running h.ok.txDistinct h.ok.rxDistinct
  have hpin : ∀ k ∈ s.txReg.live, (t.txAt k).pin = (s.txAt k).pin := fun k hk => by
    obtain ⟨-, hkept, -⟩ := txTick_frame s.cfg (s.txAt k)
    rw [htx k hk, hkept]
  have hreceiver := hrx b h.receiver
  refine ⟨t, ht, ⟨h.ok.exec _ t ht, hrun, htxReg ▸ h.sender, hrxReg ▸ h.receiver, ?pin, fun k hk hka hkpin => ?alone⟩,
    hcfg, htx a h.sender, ?line, ?receiver⟩
  case pin =>
    obtain ⟨-, hkept, -⟩ := rxTick_frame s.cfg (t.lineAt (s.rxAt b).pin) (s.rxAt b)
    rw [hreceiver, hkept, hpin a h.sender, h.pin]
  case alone =>
    rw [htxReg] at hk
    rw [hpin k hk, hpin a h.sender] at hkpin
    have hidle := h.alone k hk hka hkpin
    rw [htx k hk, txTick_idle hidle]
    exact hidle
  case line =>
    rw [hpin a h.sender]
    exact h.lineAt_tick ht
  case receiver =>
    rw [hpin a h.sender, ← h.pin]
    exact hreceiver

/-- In ticks the receiver of a pair hears the waveform of the transmitter (R167, R204). -/
theorem ticks (h : Paired s a b) (n : Nat) : ∃ t, ticks n s = .next t ∧ Paired t a b ∧ t.cfg = s.cfg ∧
    t.rxAt b = rxAfter s.cfg (txWave s.cfg n (s.lineAt (s.txAt a).pin) (s.txAt a)) (s.rxAt b) := by
  induction n generalizing s with
  | zero => exact ⟨s, rfl, h, rfl, rfl⟩
  | succ n ih =>
    obtain ⟨u, hu, hpair, hcfg, hsender, hline, hreceiver⟩ := h.tick
    obtain ⟨t, ht, hend, hcfg', hheard⟩ := ih hpair
    refine ⟨t, ?_, hend, hcfg'.trans hcfg, ?_⟩
    · rw [Machine.ticks, hu]
      exact ht
    · rw [hheard, hcfg, hreceiver, hline, hsender]
      rfl

end Paired

/-! ## The statement (R322) -/

section Loopback

variable {s : State} {a b : Handle} {length : Nat}

/-- A decodable profile is separated, so its transmitter is in no fatal phase (R131, R270). -/
theorem Decodable.not_errorDefinitions {t : TxContext} {c : Cfg} (hp : Decodable c t.profile) (ht : TxOk c t) :
    t.phase ≠ .errorDefinitions := fun hphase => by
  have hsep := (separated_iff c t.profile).2 hp.bits.le
  simp [ht.definitions.1 hphase] at hsep

/-- `TX_SEND` is accepted where none of its checks fails (R160). -/
theorem exec_txSend_accepted (ha : s.txActive a) (hphase : (s.txAt a).phase ≠ .errorDefinitions)
    (hid : (s.txAt a).id ≠ 0) (hchannel : (s.txAt a).channel ≠ 0) (hn : length ≤ s.cfg.maxPayload) :
    exec (.txSend a length) s = .next (s.sendStarted a length) := by
  rw [exec_txSend_active ha, if_neg hphase, if_neg hid, if_neg hchannel, if_neg (Nat.not_lt.2 hn)]

theorem sendStarted_txAt (s : State) (a k : Handle) (length : Nat) : (s.sendStarted a length).txAt k =
    if k = a then startFrame (s.txAt a) (s.payloadBytes length) else s.txAt k := s.setTx_txAt a k _

/-- An accepted `TX_SEND` makes a pair of its transmitter and a receiver on its line. -/
theorem paired_sendStarted (hs : StateOk s) (ha : s.txActive a) (hb : s.rxActive b)
    (hsend : exec (.txSend a length) s = .next (s.sendStarted a length)) (hpin : (s.rxAt b).pin = (s.txAt a).pin)
    (halone : ∀ k ∈ s.txReg.live, k ≠ a → (s.txAt k).pin = (s.txAt a).pin → (s.txAt k).phase ≠ .sending) :
    Paired (s.sendStarted a length) a b where
  ok := hs.exec _ _ hsend
  running := rfl
  sender := (hs.txMember a).2 ha.2
  receiver := (hs.rxMember b).2 hb.2
  pin := by rw [sendStarted_txAt, if_pos rfl]; exact hpin
  alone k hk hka := by
    rw [sendStarted_txAt, sendStarted_txAt, if_neg hka, if_pos rfl]
    exact halone k hk hka

/-- A delivered message is read out whole (R185). -/
theorem exec_rxGetMessage_delivered {payload : List Byte} (hb : s.rxActive b)
    (hd : Delivered s.cfg (s.rxAt b) payload) (hn : payload.length < 256) :
    exec (.rxGetMessage b) s = .next (s.replied .ok payload.length payload []) := by
  have hlength : (bufByte s.cfg (s.rxAt b).buf 1).toNat = payload.length := by
    rw [hd.length, BitVec.toNat_ofNat, Nat.mod_eq_of_lt hn]
  rw [exec_rxGetMessage_active hb, if_pos hd.phase, hlength, hd.message]

/-- The ticks R331 counts from `TX_SEND` to the delivery of a payload of `n` bytes with this last checksum bit. -/
def deliveryTicks (c : Cfg) (p : Profile) (n : Nat) (lastBit : Bool) : Nat :=
  halfTicks c p.startHigh + halfTicks c p.startLow + 8 * (n + 3) * (halfTicks c p.high + halfTicks c p.low) -
    (if lastBit then halfTicks c p.low else halfTicks c p.high) + 1 + timeoutTicks c

/-- They are those of the whole frame, and of what is left of the time-out after it (R167, R331). -/
theorem deliveryTicks_eq {c : Cfg} {p : Profile} (hc : validCfg c) (hp : Decodable c p) (id channel : Nibble)
    (payload : List Byte) (lastBit : Bool) : deliveryTicks c p payload.length lastBit =
      (frameWave c p (frameBytes id channel payload)).length + (timeoutTicks c + 1 - (bitTicks c p lastBit).2) := by
  have hle := hp.lowTicks_le_timeoutTicks hc.1 hc.elapsedMax_pos lastBit
  have hlow : (bitTicks c p lastBit).2 = if lastBit then halfTicks c p.low else halfTicks c p.high :=
    apply_ite (halfTicks c) _ _ _
  have hpart : (bitTicks c p lastBit).2 ≤ halfTicks c p.high + halfTicks c p.low := by
    rw [hlow]
    split <;> omega
  have hframe := Nat.le_mul_of_pos_left (halfTicks c p.high + halfTicks c p.low)
    (show 0 < 8 * (payload.length + 3) by omega)
  rw [deliveryTicks, ← hlow, frameWave_length, frameBytes_length]
  omega

/-- What a matching receiver makes of the waveform of a sent frame (R204, R322). -/
theorem Waiting.delivered_of_send {c : Cfg} {t : TxContext} {r : RxContext} {payload : List Byte} (hw : Waiting r)
    (hc : validCfg c) (hp : Decodable c t.profile) (hprofile : r.profile = t.profile) (haddress : r.address = t.id)
    (hchannel : r.channel = t.channel) (hn : payload.length ≤ c.maxPayload) (l : Level) :
    Delivered c (rxAfter c (txWave c (deliveryTicks c t.profile payload.length (bitOf (checksum payload) 0)) l
      (startFrame t payload)) r) payload := by
  have hle := hp.lowTicks_le_timeoutTicks hc.1 hc.elapsedMax_pos (bitOf (checksum payload) 0)
  rw [deliveryTicks_eq hc hp t.id t.channel, startFrame_txWave hc t hn]
  rw [← hprofile] at hp hle ⊢
  rw [← haddress, ← hchannel]
  exact hw.delivered hc hp hn (by omega)

end Loopback

/-- Settles O44: the receiver hears the frame and the quiet line after it up to its time-out, the last of the ticks. -/
theorem loopbackDelivers : Obligations.LoopbackDelivers := by
  intro s a b length hs ha hb hpin hprofile haddress hchannel hne halone hn hw hp
  have hid : (s.txAt a).id ≠ 0 := haddress ▸ (hs.rx b).address (by simp [hb.2])
  have hsend := exec_txSend_accepted ha (hp.not_errorDefinitions (hs.tx a)) hid hne hn
  have hpair := paired_sendStarted hs ha hb hsend hpin halone
  have hlength : (s.payloadBytes length).length = length := payloadBytes_length hs.cfg hn
  obtain ⟨t, hticks, hend, hcfg, hheard⟩ := hpair.ticks
    (deliveryTicks s.cfg (s.txAt a).profile length (bitOf (checksum (s.payloadBytes length)) 0))
  have hsent := hw.delivered_of_send hs.cfg hp hprofile haddress hchannel (hlength.symm ▸ hn)
  rw [hlength] at hsent
  have hdelivered : Delivered t.cfg (t.rxAt b) (s.payloadBytes length) := by
    rw [hcfg, hheard, sendStarted_txAt, if_pos rfl]
    exact hsent _
  have hread := exec_rxGetMessage_delivered hend.receiver_active hdelivered
    (by have := hs.cfg.bufCap_eq; have := hs.cfg.bufCap_le; omega)
  refine ⟨_, t, _, hsend, hticks, hdelivered.phase, hread, ?_⟩
  rw [hlength]
  rfl

end Sys2Proof.Machine
